-- ==== Sys2Proof/Word.lean ====
section
/-! DEFINITION. The word types of the R4300i MMU/CP0 block (spec/00_scope.md R8, R9; spec/10_state.md). -/

namespace Sys2Proof

/-- A byte of physical memory. -/
abbrev Byte := BitVec 8

/-- A 32-bit value: an instruction word, an address, a CP0 register (R7 `VADDR_BITS`, R36). -/
abbrev Word := BitVec 32

/-- A 64-bit value: a general register or an FPU slot (R30, R65). -/
abbrev Dword := BitVec 64

/-- A 5-bit unsigned register number (R152). -/
abbrev RegNum := BitVec 5

end Sys2Proof
end

