-- ==== Sys2Proof/Syntax.lean ====
section
/-! DEFINITION. The 21 instructions of spec/opcode_table.json (spec/30_encoding.md R153), one constructor each.
Register numbers are 5-bit (R152). The offset of a load or store is the signed number the assembler writes (R159) and the
code of SYSCALL and BREAK is a number; WellFormed bounds both by the field that holds them (R151). -/

namespace Sys2Proof

inductive Instr where
  /-- MFC0 rt, rd (R181) -/
  | mfc0 (rt rd : RegNum)
  /-- DMFC0 rt, rd (R204) -/
  | dmfc0 (rt rd : RegNum)
  /-- MTC0 rt, rd (R183) -/
  | mtc0 (rt rd : RegNum)
  /-- DMTC0 rt, rd (R205) -/
  | dmtc0 (rt rd : RegNum)
  /-- TLBR (R231) -/
  | tlbr
  /-- TLBWI (R221) -/
  | tlbwi
  /-- TLBWR (R222) -/
  | tlbwr
  /-- TLBP (R232) -/
  | tlbp
  /-- ERET (R340) -/
  | eret
  /-- SYSCALL code (R342) -/
  | syscall (code : Nat)
  /-- BREAK code (R343) -/
  | brk (code : Nat)
  /-- MFC1 rt, fs (R270) -/
  | mfc1 (rt fs : RegNum)
  /-- DMFC1 rt, fs (R272) -/
  | dmfc1 (rt fs : RegNum)
  /-- CFC1 rt, fs (R274) -/
  | cfc1 (rt fs : RegNum)
  /-- MTC1 rt, fs (R271) -/
  | mtc1 (rt fs : RegNum)
  /-- DMTC1 rt, fs (R273) -/
  | dmtc1 (rt fs : RegNum)
  /-- CTC1 rt, fs (R275) -/
  | ctc1 (rt fs : RegNum)
  /-- LWC1 ft, offset(base) (R280) -/
  | lwc1 (ft : RegNum) (offset : Int) (base : RegNum)
  /-- LDC1 ft, offset(base) (R281) -/
  | ldc1 (ft : RegNum) (offset : Int) (base : RegNum)
  /-- SWC1 ft, offset(base) (R282) -/
  | swc1 (ft : RegNum) (offset : Int) (base : RegNum)
  /-- SDC1 ft, offset(base) (R283) -/
  | sdc1 (ft : RegNum) (offset : Int) (base : RegNum)
deriving DecidableEq, Repr

/-- The instruction's name in spec/opcode_table.json. -/
def Instr.mnemonic : Instr → String
  | .mfc0 _ _ => "MFC0"
  | .dmfc0 _ _ => "DMFC0"
  | .mtc0 _ _ => "MTC0"
  | .dmtc0 _ _ => "DMTC0"
  | .tlbr => "TLBR"
  | .tlbwi => "TLBWI"
  | .tlbwr => "TLBWR"
  | .tlbp => "TLBP"
  | .eret => "ERET"
  | .syscall _ => "SYSCALL"
  | .brk _ => "BREAK"
  | .mfc1 _ _ => "MFC1"
  | .dmfc1 _ _ => "DMFC1"
  | .cfc1 _ _ => "CFC1"
  | .mtc1 _ _ => "MTC1"
  | .dmtc1 _ _ => "DMTC1"
  | .ctc1 _ _ => "CTC1"
  | .lwc1 _ _ _ => "LWC1"
  | .ldc1 _ _ _ => "LDC1"
  | .swc1 _ _ _ => "SWC1"
  | .sdc1 _ _ _ => "SDC1"

end Sys2Proof
end

