-- ==== Sys2Proof/WellFormed.lean ====
section
/-! DEFINITION. Which instruction terms have an encoding (spec/30_encoding.md R151, R152). Register numbers are 5-bit by
their type; the two checks bound the offset and the code by the fields that hold them. -/

namespace Sys2Proof

/-- The offset fits the signed 16-bit field of format I (R151, R152). -/
abbrev offsetFits (offset : Int) : Prop := -32768 ≤ offset ∧ offset < 32768

/-- The code fits the 20-bit field of format S (R151, R152). -/
abbrev codeFits (code : Nat) : Prop := code < 1048576

/-- The instruction has an encoding. -/
def Instr.wellFormed : Instr → Bool
  | .syscall code => decide (codeFits code)
  | .brk code => decide (codeFits code)
  | .lwc1 _ offset _ => decide (offsetFits offset)
  | .ldc1 _ offset _ => decide (offsetFits offset)
  | .swc1 _ offset _ => decide (offsetFits offset)
  | .sdc1 _ offset _ => decide (offsetFits offset)
  | .mfc0 _ _ => true
  | .dmfc0 _ _ => true
  | .mtc0 _ _ => true
  | .dmtc0 _ _ => true
  | .tlbr => true
  | .tlbwi => true
  | .tlbwr => true
  | .tlbp => true
  | .eret => true
  | .mfc1 _ _ => true
  | .dmfc1 _ _ => true
  | .cfc1 _ _ => true
  | .mtc1 _ _ => true
  | .dmtc1 _ _ => true
  | .ctc1 _ _ => true

end Sys2Proof
end

