-- ==== Sys2Proof/Decode.lean ====
section
/-! DEFINITION. Decoding a 32-bit word (spec/30_encoding.md R150 to R157), total on words and on bytes, and the encoder
written from the same formats (R151). What is no instruction is rejected by name. -/

namespace Sys2Proof

/-- What a word is to the block. -/
inductive Decoded where
  /-- a row of R153 -/
  | instr (i : Instr)
  /-- opcode 0x10 and no row: a logged no-op after the usability test (R154, R155) -/
  | unrecognisedCop0
  /-- opcode 0x11 and no row: no meaning (R157) -/
  | unadmittedCop1
  /-- any other opcode, or SPECIAL with another funct: the excluded engine's word (R6, R64) -/
  | notOfBlock
  /-- not four bytes (R150) -/
  | notFourBytes
deriving DecidableEq, Repr

/-- bits 31:26 -/
def opcodeField (w : Word) : BitVec 6 := w.extractLsb' 26 6
/-- bits 25:21, `rs` (the move kind) of format M and `base` of format I -/
def rsField (w : Word) : RegNum := w.extractLsb' 21 5
/-- bits 20:16, `rt` of format M and `ft` of format I -/
def rtField (w : Word) : RegNum := w.extractLsb' 16 5
/-- bits 15:11, `rd` or `fs` of format M -/
def rdField (w : Word) : RegNum := w.extractLsb' 11 5
/-- bits 10:0, zero in format M -/
def lowField (w : Word) : BitVec 11 := w.extractLsb' 0 11
/-- bits 15:0, the offset of format I -/
def offsetField (w : Word) : BitVec 16 := w.extractLsb' 0 16
/-- bits 25:6, the code of format S -/
def codeField (w : Word) : BitVec 20 := w.extractLsb' 6 20
/-- bits 5:0, the funct of format S -/
def functField (w : Word) : BitVec 6 := w.extractLsb' 0 6

/-- The offset as the signed number it stands for (R152). -/
def offsetOf (w : Word) : Int := (offsetField w).toInt

/-- A word of opcode 0x10: the exact CO rows before the move rows (R154, decision D53). -/
def decodeCop0 (w : Word) : Decoded :=
  if w = 0x42000001 then .instr .tlbr
  else if w = 0x42000002 then .instr .tlbwi
  else if w = 0x42000006 then .instr .tlbwr
  else if w = 0x42000008 then .instr .tlbp
  else if w = 0x42000018 then .instr .eret
  else if lowField w ≠ 0 then .unrecognisedCop0
  else if rsField w = 0x00 then .instr (.mfc0 (rtField w) (rdField w))
  else if rsField w = 0x01 then .instr (.dmfc0 (rtField w) (rdField w))
  else if rsField w = 0x04 then .instr (.mtc0 (rtField w) (rdField w))
  else if rsField w = 0x05 then .instr (.dmtc0 (rtField w) (rdField w))
  else .unrecognisedCop0

/-- A word of opcode 0x11 (R153, R157). -/
def decodeCop1 (w : Word) : Decoded :=
  if lowField w ≠ 0 then .unadmittedCop1
  else if rsField w = 0x00 then .instr (.mfc1 (rtField w) (rdField w))
  else if rsField w = 0x01 then .instr (.dmfc1 (rtField w) (rdField w))
  else if rsField w = 0x02 then .instr (.cfc1 (rtField w) (rdField w))
  else if rsField w = 0x04 then .instr (.mtc1 (rtField w) (rdField w))
  else if rsField w = 0x05 then .instr (.dmtc1 (rtField w) (rdField w))
  else if rsField w = 0x06 then .instr (.ctc1 (rtField w) (rdField w))
  else .unadmittedCop1

/-- A word of opcode 0x00 (R153). -/
def decodeSpecial (w : Word) : Decoded :=
  if functField w = 0x0C then .instr (.syscall (codeField w).toNat)
  else if functField w = 0x0D then .instr (.brk (codeField w).toNat)
  else .notOfBlock

/-- The decoder (R154). -/
def decode (w : Word) : Decoded :=
  if opcodeField w = 0x10 then decodeCop0 w
  else if opcodeField w = 0x11 then decodeCop1 w
  else if opcodeField w = 0x31 then .instr (.lwc1 (rtField w) (offsetOf w) (rsField w))
  else if opcodeField w = 0x35 then .instr (.ldc1 (rtField w) (offsetOf w) (rsField w))
  else if opcodeField w = 0x39 then .instr (.swc1 (rtField w) (offsetOf w) (rsField w))
  else if opcodeField w = 0x3D then .instr (.sdc1 (rtField w) (offsetOf w) (rsField w))
  else if opcodeField w = 0x00 then decodeSpecial w
  else .notOfBlock

/-- A word of four bytes, the most significant first (R115). -/
def wordOfBytes (b0 b1 b2 b3 : Byte) : Word := b0 ++ b1 ++ b2 ++ b3

/-- The bytes of a word in the order of their addresses (R115). -/
def bytesOfWord (w : Word) : List Byte :=
  [w.extractLsb' 24 8, w.extractLsb' 16 8, w.extractLsb' 8 8, w.extractLsb' 0 8]

/-- The decoder on bytes (R150). -/
def decodeBytes : List Byte → Decoded
  | [b0, b1, b2, b3] => decode (wordOfBytes b0 b1 b2 b3)
  | _ => .notFourBytes

/-- The instruction read from a word numbered as spec/opcode_table.json numbers it. -/
def decodeTableWord (nbits w : Nat) : Option Instr :=
  match decodeBytes (bytesOfWord (BitVec.ofNat 32 (w % 2 ^ nbits))) with
  | .instr i => some i
  | .unrecognisedCop0 => none
  | .unadmittedCop1 => none
  | .notOfBlock => none
  | .notFourBytes => none

/-- Format M (R151). -/
def formatM (op : BitVec 6) (rs rt rd : RegNum) : Word := op ++ rs ++ rt ++ rd ++ 0#11

/-- Format C (R151). -/
def formatC (funct : BitVec 6) : Word := 0x10#6 ++ 1#1 ++ 0#19 ++ funct

/-- Format I (R151). -/
def formatI (op : BitVec 6) (base ft : RegNum) (offset : Int) : Word := op ++ base ++ ft ++ BitVec.ofInt 16 offset

/-- Format S (R151). -/
def formatS (code : Nat) (funct : BitVec 6) : Word := 0x00#6 ++ BitVec.ofNat 20 code ++ funct

/-- The word of an instruction (R151, R153). -/
def encode : Instr → Word
  | .mfc0 rt rd => formatM 0x10 0x00 rt rd
  | .dmfc0 rt rd => formatM 0x10 0x01 rt rd
  | .mtc0 rt rd => formatM 0x10 0x04 rt rd
  | .dmtc0 rt rd => formatM 0x10 0x05 rt rd
  | .tlbr => formatC 0x01
  | .tlbwi => formatC 0x02
  | .tlbwr => formatC 0x06
  | .tlbp => formatC 0x08
  | .eret => formatC 0x18
  | .syscall code => formatS code 0x0C
  | .brk code => formatS code 0x0D
  | .mfc1 rt fs => formatM 0x11 0x00 rt fs
  | .dmfc1 rt fs => formatM 0x11 0x01 rt fs
  | .cfc1 rt fs => formatM 0x11 0x02 rt fs
  | .mtc1 rt fs => formatM 0x11 0x04 rt fs
  | .dmtc1 rt fs => formatM 0x11 0x05 rt fs
  | .ctc1 rt fs => formatM 0x11 0x06 rt fs
  | .lwc1 ft offset base => formatI 0x31 base ft offset
  | .ldc1 ft offset base => formatI 0x35 base ft offset
  | .swc1 ft offset base => formatI 0x39 base ft offset
  | .sdc1 ft offset base => formatI 0x3D base ft offset

/-- The row of R153 an instruction belongs to: (match, mask). -/
def rowOf : Instr → Word × Word
  | .mfc0 _ _ => (0x40000000, 0xFFE007FF)
  | .dmfc0 _ _ => (0x40200000, 0xFFE007FF)
  | .mtc0 _ _ => (0x40800000, 0xFFE007FF)
  | .dmtc0 _ _ => (0x40A00000, 0xFFE007FF)
  | .tlbr => (0x42000001, 0xFFFFFFFF)
  | .tlbwi => (0x42000002, 0xFFFFFFFF)
  | .tlbwr => (0x42000006, 0xFFFFFFFF)
  | .tlbp => (0x42000008, 0xFFFFFFFF)
  | .eret => (0x42000018, 0xFFFFFFFF)
  | .syscall _ => (0x0000000C, 0xFC00003F)
  | .brk _ => (0x0000000D, 0xFC00003F)
  | .mfc1 _ _ => (0x44000000, 0xFFE007FF)
  | .dmfc1 _ _ => (0x44200000, 0xFFE007FF)
  | .cfc1 _ _ => (0x44400000, 0xFFE007FF)
  | .mtc1 _ _ => (0x44800000, 0xFFE007FF)
  | .dmtc1 _ _ => (0x44A00000, 0xFFE007FF)
  | .ctc1 _ _ => (0x44C00000, 0xFFE007FF)
  | .lwc1 _ _ _ => (0xC4000000, 0xFC000000)
  | .ldc1 _ _ _ => (0xD4000000, 0xFC000000)
  | .swc1 _ _ _ => (0xE4000000, 0xFC000000)
  | .sdc1 _ _ _ => (0xF4000000, 0xFC000000)

/-- The word selects the row of the instruction: `word & mask = match` (R153). -/
abbrev selectsRowOf (w : Word) (i : Instr) : Prop := w &&& (rowOf i).2 = (rowOf i).1

end Sys2Proof
end

