-- ==== Sys2Proof/Config.lean ====
section
/-! DEFINITION. The parameters of the block (spec/00_scope.md R7) as plain data, and the free values: the constants
without a body that stand for what the spec leaves to a draw (R10), to the engine (R441) or to the cartridge (R106). -/

namespace Sys2Proof

/-- `ENGINE_MODE` (R35). No value the block computes depends on it: it decides only where the engine polls (R441). -/
inductive EngineMode where
  | pureInterpreter
  | cachedInterpreter
  | dynamicRecompiler
deriving DecidableEq, Repr

/-- `KERNEL_HOLE`, the half-open range [lo, hi) of virtual addresses (R104). An empty range is lo = hi. -/
structure KernelHole where
  lo : Nat
  hi : Nat
deriving DecidableEq, Repr

/-- The range [lo, hi) of `COMPAT_REMAP` (R106). Its function `f` is `Config.remapFn` (log 12). -/
structure RemapRange where
  lo : Nat
  hi : Nat
deriving DecidableEq, Repr

/-- A range of physical addresses whose accesses a device collaborator answers (R101, R119; log 7). -/
structure Window where
  base : Nat
  size : Nat
deriving DecidableEq, Repr

/-- The parameters of R7, fixed at power-on and written by no step (log 1). -/
structure Params where
  /-- `COUNT_PER_OP`, Count ticks per instruction. -/
  countPerOp : Nat
  /-- `BOOT_ADDR`. -/
  bootAddr : Word
  /-- `COMPAT_REMAP` (R106). -/
  compatRemap : Option RemapRange
  /-- `ENGINE_MODE` (R35). -/
  engineMode : EngineMode
  /-- `KERNEL_HOLE` (R104). -/
  kernelHole : KernelHole
  /-- `PHYS_CEILING` (R105). -/
  physCeiling : Nat
  /-- `EXC_STACK_DEPTH` (R63). -/
  excStackDepth : Nat
  /-- `PRID_REV` (R50). -/
  pridRev : Byte
  /-- `FCR0_VALUE` (R66). -/
  fcr0 : Word
  /-- How many event types `EVENT_TYPES` holds beyond COMPARE, VI and SI (R316; log 13). -/
  deviceEventTypes : Nat
  /-- Physical ranges that belong to device collaborators (log 7). -/
  deviceWindows : List Window
deriving DecidableEq, Repr

/-- R7 asks for a positive `COUNT_PER_OP` and a positive `EXC_STACK_DEPTH`. -/
abbrev Params.Legal (p : Params) : Prop := 0 < p.countPerOp ∧ 0 < p.excStackDepth

/-- The configuration of `State.reset`: the document's example rate and boot address (R7), the decided `KERNEL_HOLE`
and `PHYS_CEILING` (R104, R105). DESIGN CHOICE (logs 1, 3 and 7) for every field the document leaves open. -/
def Params.documentExample : Params where
  countPerOp := 2
  bootAddr := 0xA4000040
  compatRemap := none
  engineMode := .pureInterpreter
  kernelHole := ⟨0x80000000, 0xC0000000⟩
  physCeiling := 0x20000000
  excStackDepth := 4
  pridRev := 0
  fcr0 := 0
  deviceEventTypes := 0
  deviceWindows := []

/-- The free value behind `draw` (R10, R38): the model reduces it into the set drawn from (log 4). -/
opaque Config.freeRandom : Nat → Nat

/-- Whether the engine polls at a boundary that no change of the pc marks as a basic block's end, in the cached and recompiled
modes: a block that ends in a branch not taken, or the engine's instruction budget (R441, U27; log 5). -/
opaque Config.freePoll : Nat → Bool

/-- How many words after the fetched one the engine compiles with it, in the cached and recompiled modes (R124; log 15). -/
opaque Config.freeBlockLength : Nat → Nat

/-- Whether a collaborator has called "invalidate range" for the fetched word since it was compiled (R442; log 15). -/
opaque Config.freeInvalidated : Nat → Bool

/-- The function `f` of `COMPAT_REMAP`, a total function from 32-bit address to 32-bit address (R7, R106; log 12). -/
opaque Config.remapFn : Word → Word

end Sys2Proof
end

