-- ==== Sys2Proof/Machine/State.lean ====
section
/-! DEFINITION. The state of the block (spec/10_state.md), the reasons a step can stop, and the state after reset
(spec/70_reset_and_hazards.md R420, R422). Plain data throughout. -/

namespace Sys2Proof.Machine

/-- The stored CP0 registers, raw 32-bit storage (R36 to R58). Random, PRId and TagHi hold no state (R38, R50, R57;
logs 4 and 25) and the numbers of R59 name no register. -/
structure Cp0 where
  index : Word
  entryLo0 : Word
  entryLo1 : Word
  context : Word
  pageMask : Word
  wired : Word
  badVAddr : Word
  count : Word
  entryHi : Word
  compare : Word
  status : Word
  cause : Word
  epc : Word
  config : Word
  llAddr : Word
  watchLo : Word
  watchHi : Word
  xContext : Word
  tagLo : Word
  errorEpc : Word
deriving DecidableEq, Repr

/-- A TLB entry (R60). -/
structure TlbEntry where
  mask : BitVec 12
  vpn2 : BitVec 19
  asid : BitVec 8
  g : Bool
  pfn0 : BitVec 20
  pfn1 : BitVec 20
  c0 : BitVec 3
  c1 : BitVec 3
  d0 : Bool
  d1 : Bool
  v0 : Bool
  v1 : Bool
deriving DecidableEq, Repr

/-- Every field 0 (R60, R420). -/
def TlbEntry.zero : TlbEntry := ⟨0, 0, 0, false, 0, 0, 0, 0, false, false, false, false⟩

/-- Event types (R316): the three the document names and the further ones of `EVENT_TYPES`, by number (log 13). -/
inductive EventType where
  | compare
  | vi
  | si
  | device (id : Nat)
deriving DecidableEq, Repr

/-- A node of the event queue (R62, R310). -/
structure Node where
  type : EventType
  due : Nat
deriving DecidableEq, Repr

/-- A triple of the nested-exception stack (R63). -/
structure Snapshot where
  epc : Word
  cause : Word
  status : Word
deriving DecidableEq, Repr

/-- The sticky block fault flags (R64). -/
structure FaultFlags where
  queueFull : Bool
  boot : Bool
  refused : Bool
  undefined : Bool
deriving DecidableEq, Repr

/-- A port call a device collaborator makes (R315: `set_ip`, `schedule`, `cancel`), or its "invalidate range" for the virtual
range [lo, hi], hi inclusive, to the engine (R442). -/
inductive DeviceCall where
  | setIp (k : Nat) (level : Bool)
  | schedule (type : EventType) (delta : Nat)
  | cancel (type : EventType)
  | invalidateRange (lo hi : Word)
deriving DecidableEq, Repr

/-- What a device collaborator does in one dispatch-table access to its window (R101; log 7): the value a read returns,
the bytes of RAM its DMA writes, the port calls it makes. All of it is complete when the access returns. -/
structure DeviceReply where
  value : Dword
  dma : List (Word × Byte)
  calls : List DeviceCall
deriving DecidableEq, Repr

/-- The machine's state: everything spec/10_state.md gives it, the parameters of R7, and the inputs and the free-value
counter named in INVENTORY.md. -/
structure State where
  /-- R30; slot 0 is never read -/
  gpr : Vector Dword 32
  /-- R30 -/
  hi : Dword
  /-- R30 -/
  lo : Dword
  /-- R31 -/
  pc : Word
  /-- R32 -/
  inDelaySlot : Bool
  /-- the engine's pending branch target, read only while `inDelaySlot` holds (log 9) -/
  branchTarget : Word
  /-- R32 -/
  llBit : Bool
  /-- R32, the stop flag -/
  stop : Bool
  /-- R33, block time `T` -/
  time : Nat
  /-- R34 -/
  lastPc : Word
  /-- R36 -/
  cp0 : Cp0
  /-- R60 -/
  tlb : Vector TlbEntry 32
  /-- R61: the valid cells of `LUT_R`, (page, physical page), pages strictly rising -/
  lutR : List (Nat × BitVec 20)
  /-- R61: the valid cells of `LUT_W` -/
  lutW : List (Nat × BitVec 20)
  /-- R62 -/
  queue : List Node
  /-- R63, the newest last -/
  xs : List Snapshot
  /-- R64 -/
  faults : FaultFlags
  /-- R65 -/
  fpr : Vector Dword 32
  /-- R67 -/
  fcr31 : Word
  /-- R100: physical memory, addresses strictly rising, no byte 0 listed (log 6) -/
  mem : List Host.Cell
  /-- R124, R442: the words the cached interpreter or the recompiler holds compiled, (virtual address, word), addresses strictly
  rising; the engine's own, not looked at by the pure interpreter (log 15) -/
  heldCode : List (Nat × Word)
  /-- R7 (log 1) -/
  params : Params
  /-- inputs: the calls of the handlers of the next dispatched events (R386; log 8) -/
  handlerCalls : List (List DeviceCall)
  /-- inputs: what the next accesses to device windows answer and cause (R101; log 7) -/
  deviceReplies : List DeviceReply
  /-- how many free values have been drawn (R10, R38; logs 4, 5 and 15) -/
  draws : Nat
deriving DecidableEq, Repr

/-- Why the machine stops with a fault. -/
inductive Fault where
  /-- Raised by `step` when F_BOOT is set (R421, U18): after a failed boot check only `power_on` is defined. Safe. -/
  | bootFailed
deriving DecidableEq, Repr

/-- Why the model has no step for an input, or a port no result. -/
inductive Refusal where
  /-- Raised by a refused arm of `exec`: an instruction without a meaning yet. Safe. -/
  | notModelled (mnemonic : String)
  /-- Raised by `step` for a word of opcode 0x11 that matches no row (R157, U14, U15). Safe. -/
  | unadmittedCop1 (word : Word)
  /-- Raised by `step` for a word that belongs to the excluded engine (R6, R64). Safe. -/
  | notOfBlock (word : Word)
  /-- Raised by an access to a device window when no reply is supplied (R101; log 7). Safe. -/
  | deviceReplyMissing (pa : Word)
  /-- Raised when a device or the host schedules or cancels COMPARE (R316, U25). Safe. -/
  | compareFromOutside
  /-- Raised when a device schedules or cancels a type outside `EVENT_TYPES` (R316). Safe. -/
  | unknownEventType (type : EventType)
  /-- Raised by the port `raise_exception` for a code it does not take (U23). Safe. -/
  | reservedExcCode (code : BitVec 5)
  /-- Raised by `save_write` for an image that is no valid state (R319, U24). Safe. -/
  | invalidSaveImage
  /-- Raised by `save_read` and `save_write` away from a checkpoint (R412, R415, U26). Safe. -/
  | notAtCheckpoint
deriving DecidableEq, Repr

/-- The outcome of a step. -/
abbrev Result := Host.Outcome State Fault Refusal

/-- The inputs of power-on that R420 leaves unspecified (U6): any value, masked by the register's fields. -/
structure ResetInputs where
  index : Word
  entryLo0 : Word
  entryLo1 : Word
  context : Word
  pageMask : Word
  badVAddr : Word
  entryHi : Word
  compare : Word
  excCode : BitVec 5
  epc : Word
  llAddr : Word
  watchLo : Word
  watchHi : Word
  xContext : Word
  tagLo : Word
  errorEpc : Word
  fpr : Vector Dword 32
  fcr31 : Word
deriving DecidableEq, Repr

/-- The values R420 names for a reference run. No property may rest on them (DESIGN CHOICE, log 2). -/
def ResetInputs.reference : ResetInputs where
  index := 0
  entryLo0 := 0
  entryLo1 := 0
  context := 0x007FFFF0
  pageMask := 0
  badVAddr := 0xFFFFFFFF
  entryHi := 0
  compare := 0
  excCode := 0
  epc := 0xFFFFFFFF
  llAddr := 0
  watchLo := 0
  watchHi := 0
  xContext := 0
  tagLo := 0
  errorEpc := 0xFFFFFFFF
  fpr := Vector.replicate 32 0
  fcr31 := 0

/-- The table of R420: every state element after power-on, before the COMPARE node is scheduled (R422). -/
def State.powerOnTable (p : Params) (u : ResetInputs) : State where
  gpr := Vector.replicate 32 0
  hi := 0
  lo := 0
  pc := p.bootAddr
  inDelaySlot := false
  branchTarget := 0
  llBit := false
  stop := false
  time := 0
  lastPc := p.bootAddr
  cp0 :=
    { index := u.index &&& 0x8000003F
      entryLo0 := u.entryLo0 &&& 0x03FFFFFF
      entryLo1 := u.entryLo1 &&& 0x03FFFFFF
      context := u.context &&& 0xFFFFFFF0
      pageMask := u.pageMask &&& 0x01FFE000
      wired := 0
      badVAddr := u.badVAddr
      count := 0x00005000
      entryHi := u.entryHi &&& 0xFFFFE0FF
      compare := u.compare
      status := 0x34000000
      cause := u.excCode.setWidth 32 <<< 2
      epc := u.epc
      config := 0x0006E463
      llAddr := u.llAddr
      watchLo := u.watchLo &&& 0xFFFFFFFB
      watchHi := u.watchHi &&& 0x0000000F
      xContext := u.xContext
      tagLo := u.tagLo &&& 0x0FFFFFC0
      errorEpc := u.errorEpc }
  tlb := Vector.replicate 32 TlbEntry.zero
  lutR := []
  lutW := []
  queue := []
  xs := []
  faults := ⟨false, false, false, false⟩
  fpr := u.fpr
  fcr31 := u.fcr31 &&& 0x0183FFFF
  mem := []
  heldCode := []
  params := p
  handlerCalls := []
  deviceReplies := []
  draws := 0

/-- The machine right after reset: R420's table for the document's example configuration (log 1) and the reference
values (log 2), with the COMPARE node R422 gives for them. -/
def State.reset : State :=
  { State.powerOnTable Params.documentExample ResetInputs.reference with queue := [⟨.compare, 0xFFFFB000⟩] }

/-- Access kinds; an instruction fetch is a read (R13, R112). -/
inductive Access where
  | read
  | write
deriving DecidableEq, Repr

/-- Privilege modes (R400). -/
inductive Mode where
  | kernel
  | supervisor
  | user
deriving DecidableEq, Repr

/-- The exceptions (R370), with the info each carries (R10). The block raises the first six (R361) and the engine the
others through `raise_exception`. -/
inductive Exc where
  | interrupt
  | tlbRefill (kind : Access) (va : Word)
  | addressError (kind : Access) (va : Word)
  | copUnusable (cop : BitVec 2)
  | syscall
  | breakpoint
  | busErrorFetch
  | busErrorData
  | reservedInstruction
  | overflow
  | trap
  | floatingPoint
deriving DecidableEq, Repr

/-- The CP0 registers by name (R36). -/
inductive Cp0Reg where
  | index
  | random
  | entryLo0
  | entryLo1
  | context
  | pageMask
  | wired
  | badVAddr
  | count
  | entryHi
  | compare
  | status
  | cause
  | epc
  | prId
  | config
  | llAddr
  | watchLo
  | watchHi
  | xContext
  | tagLo
  | tagHi
  | errorEpc
deriving DecidableEq, Repr

end Sys2Proof.Machine
end

