-- ==== Sys2Proof/Machine/Flags.lean ====
section
/-! DEFINITION. The bits and fields of Status, Cause and Index (spec/10_state.md R37, R47, R48, R68) and every
computation that sets one. -/

namespace Sys2Proof.Machine

/-- Bit `i` of a word (R8). -/
def bit (v : Word) (i : Nat) : Bool := v.getLsbD i

/-- `v` with bit `i` written. -/
def putBit (v : Word) (i : Nat) (b : Bool) : Word :=
  if b then v ||| (1#32 <<< i) else v &&& ~~~(1#32 <<< i)

/-- The bits of `v` in `mask` over the bits of `old` outside it: a write under a write mask (R184). -/
def merge (mask old v : Word) : Word := (old &&& ~~~mask) ||| (v &&& mask)

/-! Status (R47) -/

def statusIe (status : Word) : Bool := bit status 0
def statusExl (status : Word) : Bool := bit status 1
def statusErl (status : Word) : Bool := bit status 2
def statusKsu (status : Word) : BitVec 2 := status.extractLsb' 3 2
def statusIm (status : Word) : BitVec 8 := status.extractLsb' 8 8
def statusBev (status : Word) : Bool := bit status 22
def statusFr (status : Word) : Bool := bit status 26
def statusCu0 (status : Word) : Bool := bit status 28
def statusCu1 (status : Word) : Bool := bit status 29

/-- The write mask of Status (R47). -/
def statusMask : Word := 0xFF57FFFF

/-- `CurrentMode()` (R400). KSU = 11 is taken as user (U1, log 17). -/
def modeOf (status : Word) : Mode :=
  if statusExl status || statusErl status then .kernel
  else if statusKsu status = 0 then .kernel
  else if statusKsu status = 1 then .supervisor
  else .user

/-- COP0 is usable: kernel mode, or CU0 (R402). -/
def cp0Usable (status : Word) : Bool := modeOf status = .kernel || statusCu0 status

/-- COP1 is usable: CU1 (R262). -/
def cp1Usable (status : Word) : Bool := statusCu1 status

/-! Cause (R48) -/

def causeBd (cause : Word) : Bool := bit cause 31
def causeCe (cause : Word) : BitVec 2 := cause.extractLsb' 28 2
def causeIp (cause : Word) : BitVec 8 := cause.extractLsb' 8 8
def causeExcCode (cause : Word) : BitVec 5 := cause.extractLsb' 2 5

def putBd (cause : Word) (bd : Bool) : Word := putBit cause 31 bd
def putCe (cause : Word) (cop : BitVec 2) : Word := merge 0x30000000 cause (cop.setWidth 32 <<< 28)
def putExcCode (cause : Word) (code : BitVec 5) : Word := merge 0x0000007C cause (code.setWidth 32 <<< 2)

/-- The level of interrupt line `k` (R48: bit 8 + k). -/
def putIp (cause : Word) (k : Nat) (level : Bool) : Word := putBit cause (8 + k) level

/-- The interrupt condition of `check_interrupt` (R385). -/
def interruptPending (cause status : Word) : Bool :=
  statusIe status && !statusExl status && !statusErl status && causeIp cause &&& statusIm status ≠ 0

/-- Cause.ExcCode of an exception (R370). -/
def Exc.code : Exc → BitVec 5
  | .interrupt => 0
  | .tlbRefill .read _ => 2
  | .tlbRefill .write _ => 3
  | .addressError .read _ => 4
  | .addressError .write _ => 5
  | .busErrorFetch => 6
  | .busErrorData => 7
  | .syscall => 8
  | .breakpoint => 9
  | .reservedInstruction => 10
  | .copUnusable _ => 11
  | .overflow => 12
  | .trap => 13
  | .floatingPoint => 15

/-- A TLB refill, the exceptions with a vector of their own (R374). -/
def Exc.isRefill : Exc → Bool
  | .tlbRefill _ _ => true
  | .interrupt => false
  | .addressError _ _ => false
  | .copUnusable _ => false
  | .syscall => false
  | .breakpoint => false
  | .busErrorFetch => false
  | .busErrorData => false
  | .reservedInstruction => false
  | .overflow => false
  | .trap => false
  | .floatingPoint => false

/-- The exception an engine's `raise_exception(code, info)` asks for (R160, R370, R371), with `va` and `cop` its info.
None for the codes that are reserved or never produced: 1, 14, 16 to 31 (U23). -/
def Exc.ofCode (code : BitVec 5) (va : Word) (cop : BitVec 2) : Option Exc :=
  if code = 0 then some .interrupt
  else if code = 2 then some (.tlbRefill .read va)
  else if code = 3 then some (.tlbRefill .write va)
  else if code = 4 then some (.addressError .read va)
  else if code = 5 then some (.addressError .write va)
  else if code = 6 then some .busErrorFetch
  else if code = 7 then some .busErrorData
  else if code = 8 then some .syscall
  else if code = 9 then some .breakpoint
  else if code = 10 then some .reservedInstruction
  else if code = 11 then some (.copUnusable cop)
  else if code = 12 then some .overflow
  else if code = 13 then some .trap
  else if code = 15 then some .floatingPoint
  else none

/-- The vector of an exception (R374): BEV chooses the base, a refill taken with EXL = 0 the offset. -/
def vectorOf (status : Word) (refill exlBefore : Bool) : Word :=
  (if statusBev status then 0xBFC00200 else 0x80000000) + (if refill && !exlBefore then 0x000 else 0x180)

/-- Index.P set, the index bits kept: a failed probe (R232). -/
def putProbeFailure (index : Word) : Word := index ||| 0x80000000

end Sys2Proof.Machine
end

