-- ==== Sys2Proof/Machine/Memory.lean ====
section
/-! DEFINITION. Sparse tables in one canonical form (keys strictly rising), and physical memory over them: bytes, and the
big-endian words and doublewords of the dispatch table (spec/20_memory.md R100, R101, R115, R116). -/

namespace Sys2Proof.Machine

/-! Sparse tables, used by memory and by the fast lookup tables -/

/-- The entry at key `k`. -/
def Table.get {α : Type} (k : Nat) : List (Nat × α) → Option α
  | [] => none
  | (j, v) :: m => if k = j then some v else Table.get k m

/-- `m` with the entry at `k` written, in its place. -/
def Table.put {α : Type} (k : Nat) (v : α) : List (Nat × α) → List (Nat × α)
  | [] => [(k, v)]
  | (j, w) :: m =>
    if k < j then (k, v) :: (j, w) :: m
    else if k = j then (k, v) :: m
    else (j, w) :: Table.put k v m

/-- `m` without an entry at `k`. -/
def Table.erase {α : Type} (k : Nat) (m : List (Nat × α)) : List (Nat × α) := m.filter fun e => e.1 ≠ k

/-- Keys strictly rising. -/
abbrev Table.Sorted {α : Type} (m : List (Nat × α)) : Prop := (m.map Prod.fst).Pairwise (· < ·)

/-! Physical memory -/

/-- What an unlisted address reads as (log 6: DESIGN CHOICE 0, as the programs of spec/95_test_vectors.md assume). -/
def Memory.unlisted : Byte := 0

/-- The canonical form of memory: addresses strictly rising, inside the 2^32 bytes of R100, no entry equal to what an
unlisted address reads as. -/
abbrev Memory.wf (m : List Host.Cell) : Prop :=
  Table.Sorted m ∧ ∀ c ∈ m, c.1 < 4294967296 ∧ c.2 ≠ Memory.unlisted

/-- The byte at a physical address. -/
def Memory.readByte (m : List Host.Cell) (a : Word) : Byte := (Table.get a.toNat m).getD Memory.unlisted

/-- Memory with the byte at a physical address written. -/
def Memory.writeByte (m : List Host.Cell) (a : Word) (b : Byte) : List Host.Cell :=
  if b = Memory.unlisted then Table.erase a.toNat m else Table.put a.toNat b m

/-- The word at `a`, the most significant byte at `a` (R115). Addresses are 32-bit and wrap (R9, log 23). -/
def Memory.readWord (m : List Host.Cell) (a : Word) : Word :=
  readByte m a ++ readByte m (a + 1) ++ readByte m (a + 2) ++ readByte m (a + 3)

/-- Memory with the word at `a` written (R115). -/
def Memory.writeWord (m : List Host.Cell) (a v : Word) : List Host.Cell :=
  writeByte (writeByte (writeByte (writeByte m a (v.extractLsb' 24 8)) (a + 1) (v.extractLsb' 16 8))
    (a + 2) (v.extractLsb' 8 8)) (a + 3) (v.extractLsb' 0 8)

/-- The doubleword at `a`: the word at `a` in bits 63:32, the word at `a + 4` in bits 31:0 (R116). -/
def Memory.readDword (m : List Host.Cell) (a : Word) : Dword := readWord m a ++ readWord m (a + 4)

/-- Memory with the doubleword at `a` written (R116). -/
def Memory.writeDword (m : List Host.Cell) (a : Word) (v : Dword) : List Host.Cell :=
  writeWord (writeWord m a (v.extractLsb' 32 32)) (a + 4) (v.extractLsb' 0 32)

/-- Memory after a device's DMA (R101). -/
def Memory.writeBytes (m : List Host.Cell) : List (Word × Byte) → List Host.Cell
  | [] => m
  | (a, b) :: rest => Memory.writeBytes (Memory.writeByte m a b) rest

end Sys2Proof.Machine
end

