-- ==== Sys2Proof/Machine/Queue.lean ====
section
/-! DEFINITION. The interrupt event queue (spec/43_event_queue.md R310 to R314). -/

namespace Sys2Proof.Machine

/-- `QUEUE_CAP` (R7, R312). -/
def queueCap : Nat := 16

/-- The queue with a node inserted after every node not later than it (R311). -/
def Queue.insert (n : Node) (q : List Node) : List Node :=
  let k := q.countP fun m => m.due ≤ n.due
  q.take k ++ n :: q.drop k

/-- The nodes `pop_due(now)` returns (R313). -/
def Queue.dueNodes (now : Nat) (q : List Node) : List Node := q.takeWhile fun n => n.due ≤ now

/-- The queue `pop_due(now)` leaves (R313). -/
def Queue.afterPop (now : Nat) (q : List Node) : List Node := q.dropWhile fun n => n.due ≤ now

/-- The queue without the nodes of a type (R314). -/
def Queue.without (type : EventType) (q : List Node) : List Node := q.filter fun n => n.type ≠ type

/-- `due` non-decreasing, at most 16 nodes (R62, R317). -/
abbrev Queue.wf (q : List Node) : Prop := q.length ≤ queueCap ∧ (q.map Node.due).Pairwise (· ≤ ·)

/-- The answer of `schedule` (R311, R312). -/
inductive ScheduleAnswer where
  | ok
  | queueFull
deriving DecidableEq, Repr

/-- `schedule(type, delta)` (R311, R312): a full pool leaves the queue, sets F_QUEUE_FULL and answers QueueFull. -/
def schedule (type : EventType) (delta : Nat) (s : State) : State × ScheduleAnswer :=
  if queueCap ≤ s.queue.length then ({ s with faults := { s.faults with queueFull := true } }, .queueFull)
  else ({ s with queue := Queue.insert ⟨type, s.time + delta⟩ s.queue }, .ok)

/-- `pop_due(now)` (R313): the due heads, and the state without them. -/
def popDue (now : Nat) (s : State) : State × List Node :=
  ({ s with queue := Queue.afterPop now s.queue }, Queue.dueNodes now s.queue)

/-- `cancel(type)` (R314). -/
def cancel (type : EventType) (s : State) : State := { s with queue := Queue.without type s.queue }

/-- The type is in `EVENT_TYPES` (R316; log 13). -/
def eventTypeKnown (p : Params) : EventType → Bool
  | .compare => true
  | .vi => true
  | .si => true
  | .device id => decide (id < p.deviceEventTypes)

end Sys2Proof.Machine
end

