-- ==== Sys2Proof/Machine/Ops.lean ====
section
/-! DEFINITION. The named operations every instruction and port uses: general registers, draws, the count sample and the
timer (spec/60_exceptions.md R390 to R393), taking an exception and returning from one (R371 to R378, spec/44_trap_instructions.md
R340), translation (spec/20_memory.md R102 to R113), the dispatch table (R101) and the advance of the pc (R31, R390). -/

namespace Sys2Proof.Machine

/-! General registers (R10, R30) -/

/-- `x[i]`; x[0] reads as 0 (R30). -/
def State.readX (s : State) (i : RegNum) : Dword := if i = 0 then 0 else s.gpr[i.toNat]

/-- `x[i] <- v`; a write to x[0] is discarded (R10, R30). -/
def State.writeX (s : State) (i : RegNum) (v : Dword) : State :=
  { s with gpr := if i = 0 then s.gpr else s.gpr.set i.toNat v }

/-- `sext_64` of a 32-bit value (R9). -/
def sext64 (v : Word) : Dword := v.signExtend 64

/-- Bits 31:0 of a 64-bit value (R8). -/
def low32 (v : Dword) : Word := v.extractLsb' 0 32

/-- The sticky fault flags (R64): `fault(F)` sets one and nothing clears it. -/
def State.faultUndefined (s : State) : State := { s with faults := { s.faults with undefined := true } }
def State.faultRefused (s : State) : State := { s with faults := { s.faults with refused := true } }
def State.faultBoot (s : State) : State := { s with faults := { s.faults with boot := true } }

/-! Draws (R10) -/

/-- The lower bound of Random: min(Wired[5:0], 31) (R38). -/
def randomLow (wired : Word) : Nat := min (wired.extractLsb' 0 6).toNat 31

theorem randomLow_le (wired : Word) : randomLow wired ≤ 31 := Nat.min_le_right _ _

/-- `draw({min(Wired, 31), ..., 31})` (R38): the value and the state with the draw used up (log 4). -/
def drawRandom (s : State) : State × Fin 32 :=
  let lo := randomLow s.cp0.wired
  ({ s with draws := s.draws + 1 },
    ⟨lo + Config.freeRandom s.draws % (32 - lo), by
      have h := randomLow_le s.cp0.wired
      have := Nat.mod_lt (Config.freeRandom s.draws) (show 0 < 32 - lo by omega)
      omega⟩)

/-! Count, Compare and the timer (R390 to R393) -/

/-- `count_sample(p)` (R390). -/
def countSample (p : Word) (s : State) : State :=
  let d := ((p - s.lastPc) >>> 2).toNat * s.params.countPerOp
  { s with
    cp0 := { s.cp0 with count := s.cp0.count + BitVec.ofNat 32 d }
    time := s.time + d
    lastPc := p }

/-- `count_rebase(p)` (R391). -/
def countRebase (p : Word) (s : State) : State := { s with lastPc := p }

/-- `compare_delta()` (R392), in 1 .. 2^32. -/
def compareDelta (compare count : Word) : Nat := (compare - count - 1).toNat + 1

/-- `resched_compare()` (R392). -/
def reschedCompare (s : State) : State := (schedule .compare (compareDelta s.cp0.compare s.cp0.count) s).1

/-- `compare_fire()` (R393). -/
def compareFire (s : State) : State :=
  reschedCompare { s with cp0 := { s.cp0 with cause := putIp s.cp0.cause 7 true } }

/-- `set_ip(k, level)` (R384); a line outside 2..6 is a logged no-op. -/
def setIp (k : Nat) (level : Bool) (s : State) : State :=
  if 2 ≤ k ∧ k ≤ 6 then { s with cp0 := { s.cp0 with cause := putIp s.cp0.cause k level } } else s

/-! Taking an exception (R371, R372) and returning from one (R340) -/

/-- `extra()`: what the cause writes besides ExcCode (R376, R377, R378). -/
def Exc.extra : Exc → Cp0 → Cp0
  | .tlbRefill _ va, c =>
    { c with
      badVAddr := va
      context := (c.context &&& 0xFF800000) ||| ((va.extractLsb' 13 19).setWidth 32 <<< 4)
      entryHi := ((va.extractLsb' 13 19).setWidth 32 <<< 13) ||| (c.entryHi &&& 0x000000FF) }
  | .addressError _ va, c => { c with badVAddr := va }
  | .copUnusable cop, c => { c with cause := putCe c.cause cop }
  | .interrupt, c => c
  | .syscall, c => c
  | .breakpoint, c => c
  | .busErrorFetch, c => c
  | .busErrorData, c => c
  | .reservedInstruction, c => c
  | .overflow, c => c
  | .trap, c => c
  | .floatingPoint, c => c

/-- The restart address and BD of an exception (R371): the branch when a synchronous exception is taken in a delay slot. -/
def Exc.restart (e : Exc) (s : State) : Word × Bool :=
  match e with
  | .interrupt => (s.pc, false)
  | _ => if s.inDelaySlot then (s.pc - 4, true) else (s.pc, false)

/-- The stack after a push: the oldest triple is dropped when it is full (R372). -/
def pushSnapshot (depth : Nat) (t : Snapshot) (xs : List Snapshot) : List Snapshot :=
  (if xs.length = depth then xs.drop 1 else xs) ++ [t]

/-- The CP0 registers after entry (R372), from those after the count sample. -/
def Exc.enterCp0 (e : Exc) (epc : Word) (bd : Bool) (c : Cp0) : Cp0 :=
  let x := e.extra c
  let cause := putExcCode x.cause e.code
  { x with
    cause := if statusExl x.status then cause else putBd cause bd
    epc := if statusExl x.status then x.epc else epc
    status := putBit x.status 1 true }

/-- Exception entry (R372): sample at the pc, push (EPC, Cause, Status), write the cause's registers, ExcCode, EPC and BD
when EXL was 0, set EXL, go to the vector, leave the delay slot, rebase. It never fails (R373). -/
def enter (e : Exc) (s : State) : State :=
  let t := countSample s.pc s
  let pc := vectorOf t.cp0.status e.isRefill (statusExl t.cp0.status)
  { t with
    xs := pushSnapshot t.params.excStackDepth ⟨t.cp0.epc, t.cp0.cause, t.cp0.status⟩ t.xs
    cp0 := e.enterCp0 (e.restart s).1 (e.restart s).2 t.cp0
    pc := pc
    inDelaySlot := false
    lastPc := pc }

/-- `raise E(info)` inside an instruction: the instruction ends in the state after entry (R371, R372). -/
def raise (e : Exc) (s : State) : Result := .next (enter e s)

/-- Return from an exception (R340): ERL first, then EXL; the popped triple restores nothing. -/
def returnFromException (s : State) : State :=
  let t := countSample (s.pc + 4) s
  let erl := statusErl t.cp0.status
  let pc := if erl then t.cp0.errorEpc else t.cp0.epc
  { t with
    pc := pc
    cp0 := { t.cp0 with status := putBit t.cp0.status (if erl then 2 else 1) false }
    llBit := false
    xs := t.xs.dropLast
    inDelaySlot := false
    lastPc := pc }

/-! The pc after an instruction that does not branch (R31, R180) -/

/-- To `pc + 4`; in a delay slot to the branch's target, with the engine's count sample at the address after the slot and
its rebase (R390; log 9). -/
def State.advance (s : State) : State :=
  if s.inDelaySlot then
    { countSample (s.pc + 4) s with pc := s.branchTarget, lastPc := s.branchTarget, inDelaySlot := false }
  else { s with pc := s.pc + 4 }

/-! Usability (R262, R402) -/

/-- `require_cp0_usable()` before the rest of an instruction (R402, R378). -/
def requireCp0 (s : State) (rest : State → Result) : Result :=
  if cp0Usable s.cp0.status then rest s else raise (.copUnusable 0) s

/-- `require_cp1_usable()` before the rest of an instruction (R262, R378). -/
def requireCp1 (s : State) (rest : State → Result) : Result :=
  if cp1Usable s.cp0.status then rest s else raise (.copUnusable 1) s

/-! Translation (R102 to R113) -/

/-- The segment rights of a mode (R102, R103). -/
def segmentAllowed (m : Mode) (va : Word) : Bool :=
  match m with
  | .kernel => true
  | .supervisor => va < 0x80000000 || (0xC0000000 ≤ va && va < 0xE0000000)
  | .user => va < 0x80000000

/-- The address lies in `KERNEL_HOLE` (R104). -/
def inHole (p : Params) (va : Word) : Bool := p.kernelHole.lo ≤ va.toNat && va.toNat < p.kernelHole.hi

/-- The address lies in the range of `COMPAT_REMAP` (R106). -/
def inRemap (p : Params) (va : Word) : Bool :=
  match p.compatRemap with
  | none => false
  | some r => r.lo ≤ va.toNat && va.toNat < r.hi

/-- The virtual page number of an address (R61). -/
def pageOf (va : Word) : Nat := (va.extractLsb' 12 20).toNat

/-- The fast lookup table of an access kind (R112). -/
def State.lut (s : State) : Access → List (Nat × BitVec 20)
  | .read => s.lutR
  | .write => s.lutW

/-- The hit of R110, or none for a miss. ASIDs are not compared (R111). -/
def tlbLookup (va : Word) (kind : Access) (s : State) : Option Word :=
  if inRemap s.params va then some (Config.remapFn va)
  else (Table.get (pageOf va) (s.lut kind)).map fun ppn => ppn ++ va.extractLsb' 0 12

/-- `SENTINEL` (R7, R113). -/
def sentinel : Word := 0

/-- The port `translate_tlb(va, kind)` (R110): a miss takes the refill and answers the sentinel. -/
def translateTlb (va : Word) (kind : Access) (s : State) : State × Bool × Word :=
  match tlbLookup va kind s with
  | some pa => (s, true, pa)
  | none => (enter (.tlbRefill kind va) s, false, sentinel)

/-- What `translate(va, kind)` gives: a physical address, or the exception that ends the instruction (R103). -/
inductive Translation where
  | hit (pa : Word)
  | miss (e : Exc)
deriving DecidableEq, Repr

/-- `translate(va, kind)` (R103): segment rights, then the direct map, then the tables (R380). -/
def translateAddress (va : Word) (kind : Access) (s : State) : Translation :=
  if segmentAllowed (modeOf s.cp0.status) va then
    if inHole s.params va then .hit (va &&& 0x1FFFFFFF)
    else
      match tlbLookup va kind s with
      | some pa => .hit pa
      | none => .miss (.tlbRefill kind va)
  else .miss (.addressError kind va)

/-! Code the engine holds compiled (R124, R234, R442) -/

/-- The word compiled from virtual address `a` has a byte in the virtual range [lo, hi]. -/
def codeInRange (a : Nat) (range : Word × Word) : Bool := range.1.toNat < a + 4 && a ≤ range.2.toNat

/-- The engine's "invalidate range" for each of some virtual ranges (R234, R442): no word compiled from them stays held. -/
def invalidateRanges (ranges : List (Word × Word)) (s : State) : State :=
  { s with heldCode := s.heldCode.filter fun c => !ranges.any (codeInRange c.1) }

/-- The engine's "invalidate range" as a collaborator calls it (R442). -/
def invalidateRange (lo hi : Word) (s : State) : State := invalidateRanges [(lo, hi)] s

/-- The held code with the word at a virtual address compiled; one that is held stays until it is invalidated (R442). -/
def holdWord (va w : Word) (held : List (Nat × Word)) : List (Nat × Word) :=
  if (Table.get va.toNat held).isSome then held else Table.put va.toNat w held

/-! Device collaborators (R101, R315, R316, R442) -/

/-- The calls of a device, in order; COMPARE is the block's and a type outside `EVENT_TYPES` is none (R316, U25). -/
def applyCalls : List DeviceCall → State → Except Refusal State
  | [], s => .ok s
  | .setIp k level :: rest, s => applyCalls rest (setIp k level s)
  | .schedule type delta :: rest, s =>
    if type = .compare then .error .compareFromOutside
    else if eventTypeKnown s.params type then applyCalls rest (schedule type delta s).1
    else .error (.unknownEventType type)
  | .cancel type :: rest, s =>
    if type = .compare then .error .compareFromOutside
    else if eventTypeKnown s.params type then applyCalls rest (cancel type s)
    else .error (.unknownEventType type)
  | .invalidateRange lo hi :: rest, s => applyCalls rest (invalidateRange lo hi s)

/-- Some byte of the access lies in a device window (log 7). DESIGN CHOICE (log 23): the bytes of an access that wraps past
0xFFFFFFFF count as plain memory. -/
def inDeviceWindow (p : Params) (pa : Word) (n : Nat) : Bool :=
  p.deviceWindows.any fun w => pa.toNat < w.base + w.size && w.base < pa.toNat + n

/-- A dispatch-table access to a device window: the next supplied reply, its DMA and its calls done (R101; log 7). DESIGN
CHOICE (log 26): no device access and no DMA clears LLbit, since R123 does not say what breaks a reservation besides ERET. -/
def deviceAccess (pa : Word) (s : State) : Except Refusal (State × Dword) :=
  match s.deviceReplies with
  | [] => .error (.deviceReplyMissing pa)
  | r :: rest =>
    match applyCalls r.calls { s with mem := Memory.writeBytes s.mem r.dma, deviceReplies := rest } with
    | .ok t => .ok (t, r.value)
    | .error e => .error e

/-- `MemRead(pa, 4)` (R10, R101). -/
def memReadWord (pa : Word) (s : State) : Except Refusal (State × Word) :=
  if inDeviceWindow s.params pa 4 then
    match deviceAccess pa s with
    | .ok (t, v) => .ok (t, low32 v)
    | .error e => .error e
  else .ok (s, Memory.readWord s.mem pa)

/-- `MemRead(pa, 8)` (R10, R101). -/
def memReadDword (pa : Word) (s : State) : Except Refusal (State × Dword) :=
  if inDeviceWindow s.params pa 8 then deviceAccess pa s else .ok (s, Memory.readDword s.mem pa)

/-- `MemWrite(pa, 4, v)` (R10, R101). A device's answer to a write is its side effects. -/
def memWriteWord (pa v : Word) (s : State) : Except Refusal State :=
  if inDeviceWindow s.params pa 4 then
    match deviceAccess pa s with
    | .ok (t, _) => .ok t
    | .error e => .error e
  else .ok { s with mem := Memory.writeWord s.mem pa v }

/-- `MemWrite(pa, 8, v)` (R10, R101). -/
def memWriteDword (pa : Word) (v : Dword) (s : State) : Except Refusal State :=
  if inDeviceWindow s.params pa 8 then
    match deviceAccess pa s with
    | .ok (t, _) => .ok t
    | .error e => .error e
  else .ok { s with mem := Memory.writeDword s.mem pa v }

end Sys2Proof.Machine
end

