-- ==== Sys2Proof/Machine/Operands.lean ====
section
/-! DEFINITION. The operand forms: the two views of the FPU bank and its reshuffles (spec/42_cp1_aliasing.md R261 to R268), the
effective address of the COP1 loads and stores (spec/20_memory.md R127) and its checks in order (R117, R380). -/

namespace Sys2Proof.Machine

/-- `half(k, h)` of a slot's value, `high` for h = 1 (R10). -/
def slotHalf (v : Dword) (high : Bool) : Word := if high then v.extractLsb' 32 32 else v.extractLsb' 0 32

/-- A slot's value with one half written. -/
def putSlotHalf (v : Dword) (high : Bool) (w : Word) : Dword :=
  if high then w ++ v.extractLsb' 0 32 else v.extractLsb' 32 32 ++ w

/-- The slot a register number addresses in a view: itself with FR = 1, `i >> 1` with FR = 0 (R264). -/
def slotOf (fr : Bool) (i : RegNum) : RegNum := if fr then i else i >>> 1

/-- The half the 32-bit view of a register addresses: the low one with FR = 1, `i & 1` with FR = 0 (R264). -/
def halfOf (fr : Bool) (i : RegNum) : Bool := !fr && i.getLsbD 0

/-- FR of the state (R261, R264). -/
def State.fr (s : State) : Bool := statusFr s.cp0.status

/-- `ReadS(i)` (R264). -/
def State.readS (s : State) (i : RegNum) : Word := slotHalf s.fpr[(slotOf s.fr i).toNat] (halfOf s.fr i)

/-- `WriteS(i, v)` (R264): the other half is unchanged. -/
def State.writeS (s : State) (i : RegNum) (v : Word) : State :=
  { s with fpr := s.fpr.set (slotOf s.fr i).toNat (putSlotHalf s.fpr[(slotOf s.fr i).toNat] (halfOf s.fr i) v) }

/-- `ReadD(i)` (R264): with FR = 0 an odd `i` addresses the slot of `i - 1`. -/
def State.readD (s : State) (i : RegNum) : Dword := s.fpr[(slotOf s.fr i).toNat]

/-- `WriteD(i, v)` (R264). -/
def State.writeD (s : State) (i : RegNum) (v : Dword) : State :=
  { s with fpr := s.fpr.set (slotOf s.fr i).toNat v }

/-- `pack()` (R266): slot j of the lower sixteen takes the low halves of registers 2j and 2j + 1, slot 16 + j their high
halves. -/
def packSlots (f : Vector Dword 32) : Vector Dword 32 :=
  Vector.ofFn fun k : Fin 32 =>
    if k.val < 16 then slotHalf (f[(2 * k.val + 1) % 32]'(Nat.mod_lt _ (by decide))) false ++
      slotHalf (f[(2 * k.val) % 32]'(Nat.mod_lt _ (by decide))) false
    else slotHalf (f[(2 * k.val + 1) % 32]'(Nat.mod_lt _ (by decide))) true ++
      slotHalf (f[(2 * k.val) % 32]'(Nat.mod_lt _ (by decide))) true

/-- `unpack()` (R267): register i takes its high half from slot 16 + (i >> 1) and its low half from slot i >> 1. -/
def unpackSlots (f : Vector Dword 32) : Vector Dword 32 :=
  Vector.ofFn fun i : Fin 32 =>
    slotHalf (f[16 + i.val / 2]'(by omega)) (decide (i.val % 2 = 1)) ++
      slotHalf (f[i.val / 2]'(by omega)) (decide (i.val % 2 = 1))

/-- The reshuffle of a Status write (R196): exactly one when FR changes, none when it does not. -/
def reshuffle (oldFr newFr : Bool) (f : Vector Dword 32) : Vector Dword 32 :=
  if oldFr = newFr then f else if newFr then unpackSlots f else packSlots f

/-- The effective address of a COP1 load or store (R127). -/
def State.effectiveAddress (s : State) (offset : Int) (base : RegNum) : Word :=
  low32 (s.readX base + BitVec.ofInt 64 offset)

/-- `va[1:0] = 0` (R117). -/
def wordAligned (va : Word) : Bool := va.extractLsb' 0 2 = 0

/-- `va[2:0] = 0` (R117). DEDUCED (log 27): the example of R283 and V-MEM-4 call 0x00001500 misaligned; by R117 and the
pseudocode of R283, which the model follows, it is aligned. -/
def dwordAligned (va : Word) : Bool := va.extractLsb' 0 3 = 0

/-- The address checks of a load or store, in the order of R380: alignment, segment rights, the tables. -/
def dataAddress (va : Word) (aligned : Bool) (kind : Access) (s : State) : Translation :=
  if aligned then translateAddress va kind s else .miss (.addressError kind va)

end Sys2Proof.Machine
end

