-- ==== Sys2Proof/Machine/Boundary.lean ====
section
/-! DEFINITION. What happens between instructions: the boundary step (spec/43_event_queue.md R315, spec/60_exceptions.md R385,
R386), where the engine polls (spec/70_reset_and_hazards.md R441), and the fetch of the next instruction (R382). -/

namespace Sys2Proof.Machine

/-- COMPARE fires once for each due COMPARE node, in order (R315, R393). -/
def fireCompares : List Node → State → State
  | [], s => s
  | n :: rest, s => fireCompares rest (if n.type = .compare then compareFire s else s)

/-- `dispatch_events()` (R315): the state after the block's own events, and the nodes for the device handlers. -/
def dispatchEvents (s : State) : State × List Node :=
  let popped := popDue s.time s
  (fireCompares popped.2 popped.1, popped.2.filter fun n => n.type ≠ .compare)

/-- The handlers of the dispatched nodes, in order (R386): each makes the calls the next entry of `handlerCalls` lists, and
none when the list is used up (log 8). -/
def runHandlers : List Node → State → Except Refusal State
  | [], s => .ok s
  | _ :: rest, s =>
    match s.handlerCalls with
    | [] => runHandlers rest s
    | calls :: later =>
      match applyCalls calls { s with handlerCalls := later } with
      | .ok t => runHandlers rest t
      | .error e => .error e

/-- An interrupt would be taken (R385). -/
def State.interruptDue (s : State) : Bool := interruptPending s.cp0.cause s.cp0.status

/-- `check_interrupt()` (R385). -/
def checkInterrupt (s : State) : State := if s.interruptDue then enter .interrupt s else s

/-- The boundary step up to the interrupt check (R386). -/
def serviceEvents (s : State) : Except Refusal State :=
  let d := dispatchEvents (countSample s.pc s)
  runHandlers d.2 d.1

/-- The stream stands where a change of the pc that is not a step of 4 put it (R390: the engine has rebased there), so a basic
block has just ended (R13). -/
def blockEnded (s : State) : Bool := s.lastPc = s.pc

/-- The engine polls at this boundary, for interrupts (R386) as for the stop flag (R411), which R441 puts at the same
boundaries: never between a branch and its delay slot; always in the pure interpreter, as it may; in the other modes at
the end of a basic block, and besides where a free value says (U27, log 5). -/
def pollsHere (s : State) : Bool :=
  !s.inDelaySlot &&
    match s.params.engineMode with
    | .pureInterpreter => true
    | .cachedInterpreter => blockEnded s || Config.freePoll s.draws
    | .dynamicRecompiler => blockEnded s || Config.freePoll s.draws

/-- The state once the free choice to poll is used up. -/
def usePollDraw (s : State) : State :=
  match s.params.engineMode with
  | .pureInterpreter => s
  | .cachedInterpreter => { s with draws := s.draws + 1 }
  | .dynamicRecompiler => { s with draws := s.draws + 1 }

/-- What comes of the boundary before an instruction. -/
inductive BoundaryResult where
  /-- go on to the fetch in this state -/
  | proceed (s : State)
  /-- an interrupt was taken, the next instruction is the handler's (R385) -/
  | interrupted (s : State)
  /-- an input the spec does not admit (R316) -/
  | refused (r : Refusal)
deriving DecidableEq, Repr

/-- The boundary before the next instruction (R386). -/
def boundary (s : State) : BoundaryResult :=
  if pollsHere s then
    match serviceEvents (usePollDraw s) with
    | .ok t => if t.interruptDue then .interrupted (checkInterrupt t) else .proceed t
    | .error r => .refused r
  else .proceed (usePollDraw s)

/-- Where the instruction at the pc is fetched, or the exception the fetch takes (R117, R382). -/
def fetchAddress (s : State) : Translation := dataAddress s.pc (wordAligned s.pc) .read s

/-- What comes of a fetch. -/
inductive FetchResult where
  /-- the word, in this state -/
  | word (s : State) (w : Word)
  /-- the fetch took an exception (R382) -/
  | excepted (s : State)
  /-- the word lies in a device window with no reply supplied (log 7) -/
  | refused (r : Refusal)
deriving DecidableEq, Repr

/-- The held code after the engine compiled up to `n` words from `va` on, as far as they translate to plain memory (R124; log 15).
A word that is held already stays. -/
def compileWords : Nat → Word → State → List (Nat × Word) → List (Nat × Word)
  | 0, _, _, held => held
  | n + 1, va, s, held =>
    match translateAddress va .read s with
    | .miss _ => held
    | .hit pa =>
      if inDeviceWindow s.params pa 4 then held
      else compileWords n (va + 4) s (holdWord va (Memory.readWord s.mem pa) held)

/-- The state once the free choice, whether a collaborator has invalidated the word at the pc by now, is used up (R442). -/
def useInvalidateDraw (s : State) : State :=
  { s with
    draws := s.draws + 1
    heldCode := if Config.freeInvalidated s.draws then Table.erase s.pc.toNat s.heldCode else s.heldCode }

/-- The fetch of the cached interpreter and the recompiler (R124, R442): the held word if there is one, which a store since
has not changed; else the word in memory, compiled with a free number of those after it. -/
def fetchCompiled (pa : Word) (s : State) : Except Refusal (State × Word) :=
  let t := useInvalidateDraw s
  match Table.get s.pc.toNat t.heldCode with
  | some w => .ok (t, w)
  | none =>
    match memReadWord pa t with
    | .ok (u, w) =>
      .ok
        ({ u with
            heldCode := compileWords (Config.freeBlockLength s.draws) (s.pc + 4) u (holdWord s.pc w u.heldCode) }, w)
    | .error r => .error r

/-- The word the engine fetches once the pc has translated to `pa` (R124): the pure interpreter reads the dispatch table every
time. -/
def fetchWord (pa : Word) (s : State) : Except Refusal (State × Word) :=
  match s.params.engineMode with
  | .pureInterpreter => memReadWord pa s
  | .cachedInterpreter => fetchCompiled pa s
  | .dynamicRecompiler => fetchCompiled pa s

/-- Instruction fetch (R382): the pc translates through the same table as a data read in every mode (R124). -/
def fetch (s : State) : FetchResult :=
  match fetchAddress s with
  | .miss e => .excepted (enter e s)
  | .hit pa =>
    match fetchWord pa s with
    | .ok (t, w) => .word t w
    | .error r => .refused r

/-- `s` with a word stored where the next instruction is fetched, and none compiled from there; `s` itself where that fetch
takes an exception. -/
def storeAtFetch (w : Word) (s : State) : State :=
  match fetchAddress s with
  | .miss _ => s
  | .hit pa =>
    { s with mem := Memory.writeWord s.mem pa w, heldCode := Table.erase s.pc.toNat s.heldCode }

end Sys2Proof.Machine
end

