-- ==== Sys2Proof/Machine/Cop1.lean ====
section
/-! DEFINITION. The COP1 register moves, loads and stores (spec/42_cp1_aliasing.md R260, R270 to R283). -/

namespace Sys2Proof.Machine

/-- The write mask of FCR31 (R67). -/
def fcr31Mask : Word := 0x0183FFFF

/-- `CFC1`'s value: FCR0 for 0, FCR31 for 31, none for the numbers that name no register (R66, R67, R274). -/
def controlRead (fs : RegNum) (s : State) : Option Word :=
  if fs = 0 then some s.params.fcr0 else if fs = 31 then some s.fcr31 else none

/-- MFC1 (R270). -/
def execMfc1 (rt fs : RegNum) (s : State) : Result :=
  requireCp1 s fun s => .next (s.writeX rt (sext64 (s.readS fs))).advance

/-- MTC1 (R271). -/
def execMtc1 (rt fs : RegNum) (s : State) : Result :=
  requireCp1 s fun s => .next (s.writeS fs (low32 (s.readX rt))).advance

/-- DMFC1 (R272). -/
def execDmfc1 (rt fs : RegNum) (s : State) : Result :=
  requireCp1 s fun s => .next (s.writeX rt (s.readD fs)).advance

/-- DMTC1 (R273). -/
def execDmtc1 (rt fs : RegNum) (s : State) : Result :=
  requireCp1 s fun s => .next (s.writeD fs (s.readX rt)).advance

/-- The effect of CFC1 (R274): another number leaves x[rt]. -/
def moveFromControl (rt fs : RegNum) (s : State) : State :=
  match controlRead fs s with
  | some v => s.writeX rt (sext64 v)
  | none => s

/-- The effect of CTC1 (R275): only FCR31 is written; no floating-point exception follows. -/
def moveToControl (rt fs : RegNum) (s : State) : State :=
  if fs = 31 then { s with fcr31 := low32 (s.readX rt) &&& fcr31Mask } else s

/-- CFC1 (R274). -/
def execCfc1 (rt fs : RegNum) (s : State) : Result :=
  requireCp1 s fun s => .next (moveFromControl rt fs s).advance

/-- CTC1 (R275). -/
def execCtc1 (rt fs : RegNum) (s : State) : Result :=
  requireCp1 s fun s => .next (moveToControl rt fs s).advance

/-- A load or store once the coprocessor is usable: the address checks, then the access at the physical address. -/
def withDataAddress (va : Word) (aligned : Bool) (kind : Access) (s : State) (access : Word → Result) : Result :=
  match dataAddress va aligned kind s with
  | .hit pa => access pa
  | .miss e => raise e s

/-- LWC1 (R280). -/
def execLwc1 (ft : RegNum) (offset : Int) (base : RegNum) (s : State) : Result :=
  requireCp1 s fun s =>
    withDataAddress (s.effectiveAddress offset base) (wordAligned (s.effectiveAddress offset base)) .read s fun pa =>
      match memReadWord pa s with
      | .ok (t, v) => .next (t.writeS ft v).advance
      | .error r => .refused r

/-- LDC1 (R281). -/
def execLdc1 (ft : RegNum) (offset : Int) (base : RegNum) (s : State) : Result :=
  requireCp1 s fun s =>
    withDataAddress (s.effectiveAddress offset base) (dwordAligned (s.effectiveAddress offset base)) .read s fun pa =>
      match memReadDword pa s with
      | .ok (t, v) => .next (t.writeD ft v).advance
      | .error r => .refused r

/-- SWC1 (R282). -/
def execSwc1 (ft : RegNum) (offset : Int) (base : RegNum) (s : State) : Result :=
  requireCp1 s fun s =>
    withDataAddress (s.effectiveAddress offset base) (wordAligned (s.effectiveAddress offset base)) .write s fun pa =>
      match memWriteWord pa (s.readS ft) s with
      | .ok t => .next t.advance
      | .error r => .refused r

/-- SDC1 (R283), by its pseudocode; its example differs (log 27). -/
def execSdc1 (ft : RegNum) (offset : Int) (base : RegNum) (s : State) : Result :=
  requireCp1 s fun s =>
    withDataAddress (s.effectiveAddress offset base) (dwordAligned (s.effectiveAddress offset base)) .write s fun pa =>
      match memWriteDword pa (s.readD ft) s with
      | .ok t => .next t.advance
      | .error r => .refused r

end Sys2Proof.Machine
end

