-- ==== Sys2Proof/Machine/Cp0Moves.lean ====
section
/-! DEFINITION. MFC0, DMFC0, MTC0, DMTC0 (spec/40_cp0_moves.md). -/

namespace Sys2Proof.Machine

/-- The register a CP0 number names, none for 7, 21 to 27 and 31 (R36, R59). -/
def Cp0Reg.ofNumber (n : RegNum) : Option Cp0Reg :=
  if n = 0 then some .index
  else if n = 1 then some .random
  else if n = 2 then some .entryLo0
  else if n = 3 then some .entryLo1
  else if n = 4 then some .context
  else if n = 5 then some .pageMask
  else if n = 6 then some .wired
  else if n = 8 then some .badVAddr
  else if n = 9 then some .count
  else if n = 10 then some .entryHi
  else if n = 11 then some .compare
  else if n = 12 then some .status
  else if n = 13 then some .cause
  else if n = 14 then some .epc
  else if n = 15 then some .prId
  else if n = 16 then some .config
  else if n = 17 then some .llAddr
  else if n = 18 then some .watchLo
  else if n = 19 then some .watchHi
  else if n = 20 then some .xContext
  else if n = 28 then some .tagLo
  else if n = 29 then some .tagHi
  else if n = 30 then some .errorEpc
  else none

/-- PRId: 0x00000B00 with the revision byte (R50, R182). -/
def prIdValue (p : Params) : Word := 0x00000B00 ||| p.pridRev.setWidth 32

/-- `CP0Read` of a named register (R182): Random is a draw, Count and Compare sample first. -/
def cp0Read (r : Cp0Reg) (s : State) : State × Word :=
  match r with
  | .index => (s, s.cp0.index)
  | .random => ((drawRandom s).1, BitVec.ofNat 32 (drawRandom s).2.val)
  | .entryLo0 => (s, s.cp0.entryLo0)
  | .entryLo1 => (s, s.cp0.entryLo1)
  | .context => (s, s.cp0.context)
  | .pageMask => (s, s.cp0.pageMask)
  | .wired => (s, s.cp0.wired)
  | .badVAddr => (s, s.cp0.badVAddr)
  | .count => (countSample s.pc s, (countSample s.pc s).cp0.count)
  | .entryHi => (s, s.cp0.entryHi)
  | .compare => (countSample s.pc s, (countSample s.pc s).cp0.compare)
  | .status => (s, s.cp0.status)
  | .cause => (s, s.cp0.cause)
  | .epc => (s, s.cp0.epc)
  | .prId => (s, prIdValue s.params)
  | .config => (s, s.cp0.config)
  | .llAddr => (s, s.cp0.llAddr)
  | .watchLo => (s, s.cp0.watchLo)
  | .watchHi => (s, s.cp0.watchHi)
  | .xContext => (s, s.cp0.xContext)
  | .tagLo => (s, s.cp0.tagLo)
  | .tagHi => (s, 0)
  | .errorEpc => (s, s.cp0.errorEpc)

/-- The Count write (R192, R193). -/
def writeCount (v : Word) (s : State) : State :=
  let t := cancel .compare (countSample s.pc s)
  reschedCompare { t with cp0 := { t.cp0 with count := v } }

/-- The Compare write (R194): it clears Cause.IP7. -/
def writeCompare (v : Word) (s : State) : State :=
  let t := cancel .compare (countSample s.pc s)
  reschedCompare { t with cp0 := { t.cp0 with compare := v, cause := putIp t.cp0.cause 7 false } }

/-- The Status write and its FR transition (R195, R196). -/
def writeStatus (v : Word) (s : State) : State :=
  let new := v &&& statusMask
  { s with
    cp0 := { s.cp0 with status := new }
    fpr := reshuffle (statusFr s.cp0.status) (statusFr new) s.fpr }

/-- `CP0Write` of a named register (R184 to R202). -/
def cp0Write (r : Cp0Reg) (v : Word) (s : State) : State :=
  match r with
  | .index => { s with cp0 := { s.cp0 with index := v &&& 0x8000003F } }
  | .random => s
  | .entryLo0 => { s with cp0 := { s.cp0 with entryLo0 := v &&& 0x03FFFFFF } }
  | .entryLo1 => { s with cp0 := { s.cp0 with entryLo1 := v &&& 0x03FFFFFF } }
  | .context =>
    { s with cp0 := { s.cp0 with context := (v &&& 0xFF800000) ||| (s.cp0.context &&& 0x007FFFF0) } }
  | .pageMask => { s with cp0 := { s.cp0 with pageMask := v &&& 0x01FFE000 } }
  | .wired => { s with cp0 := { s.cp0 with wired := v &&& 0x0000003F } }
  | .badVAddr => s
  | .count => writeCount v s
  | .entryHi => { s with cp0 := { s.cp0 with entryHi := v &&& 0xFFFFE0FF } }
  | .compare => writeCompare v s
  | .status => writeStatus v s
  | .cause => { s with cp0 := { s.cp0 with cause := merge 0x00000300 s.cp0.cause v } }
  | .epc => { s with cp0 := { s.cp0 with epc := v } }
  | .prId => s
  | .config => { s with cp0 := { s.cp0 with config := merge 0x0F00000F s.cp0.config v } }
  | .llAddr => { s with cp0 := { s.cp0 with llAddr := v } }
  | .watchLo => { s with cp0 := { s.cp0 with watchLo := v &&& 0xFFFFFFFB } }
  | .watchHi => { s with cp0 := { s.cp0 with watchHi := v &&& 0x0000000F } }
  | .xContext => s
  | .tagLo => { s with cp0 := { s.cp0 with tagLo := v &&& 0x0FFFFFC0 } }
  | .tagHi => s
  | .errorEpc => { s with cp0 := { s.cp0 with errorEpc := v } }

/-- `x[rt] <- sext_64(CP0Read(rd))`; a number that names no register leaves x[rt] (R181, R204). -/
def moveFromCp0 (rt rd : RegNum) (s : State) : State :=
  match Cp0Reg.ofNumber rd with
  | some r => (cp0Read r s).1.writeX rt (sext64 (cp0Read r s).2)
  | none => s

/-- `CP0Write(rd, x[rt][31:0])`; a number that names no register is a no-op (R183, R198, R205). -/
def moveToCp0 (rt rd : RegNum) (s : State) : State :=
  match Cp0Reg.ofNumber rd with
  | some r => cp0Write r (low32 (s.readX rt)) s
  | none => s

/-- MFC0 (R181). -/
def execMfc0 (rt rd : RegNum) (s : State) : Result :=
  requireCp0 s fun s => .next (moveFromCp0 rt rd s).advance

/-- DMFC0 (R204): exactly MFC0. -/
def execDmfc0 (rt rd : RegNum) (s : State) : Result :=
  requireCp0 s fun s => .next (moveFromCp0 rt rd s).advance

/-- MTC0 (R183). -/
def execMtc0 (rt rd : RegNum) (s : State) : Result :=
  requireCp0 s fun s => .next (moveToCp0 rt rd s).advance

/-- DMTC0 (R205): exactly MTC0. -/
def execDmtc0 (rt rd : RegNum) (s : State) : Result :=
  requireCp0 s fun s => .next (moveToCp0 rt rd s).advance

/-- A COP0 word that matches no row: the usability test, then a logged no-op (R154, R155). -/
def execUnrecognisedCop0 (s : State) : Result :=
  requireCp0 s fun s => .next s.advance

end Sys2Proof.Machine
end

