-- ==== Sys2Proof/Machine/Lut.lean ====
section
/-! DEFINITION. TLB entries and the maintenance of the fast lookup tables (spec/41_tlb.md R223 to R229, R233, R234). -/

namespace Sys2Proof.Machine

/-- The virtual range, physical base and bits of one half of an entry (R225). `stop` is inclusive. -/
structure HalfRange where
  start : Word
  stop : Word
  phys : Word
  v : Bool
  d : Bool
deriving DecidableEq, Repr

/-- The bytes in one half (R225). -/
def halfSize (e : TlbEntry) : Word := (e.mask.setWidth 32 + 1) <<< 12

/-- The first byte of the pair; the VPN2 bits under the mask are ignored (R225). -/
def pairBase (e : TlbEntry) : Word := (e.vpn2 &&& ~~~(e.mask.setWidth 19)).setWidth 32 <<< 13

/-- `Half(e, h)`, `odd` for h = 1 (R225). -/
def half (e : TlbEntry) (odd : Bool) : HalfRange :=
  let start := if odd then pairBase e + halfSize e else pairBase e
  { start := start
    stop := start + halfSize e - 1
    phys := (if odd then e.pfn1 else e.pfn0).setWidth 32 <<< 12
    v := if odd then e.v1 else e.v0
    d := if odd then e.d1 else e.d0 }

/-- `Populatable` (R226): a range, not wholly inside `KERNEL_HOLE`, its base below `PHYS_CEILING`. -/
def populatable (p : Params) (r : HalfRange) : Bool :=
  r.start < r.stop && !(p.kernelHole.lo ≤ r.start.toNat && r.stop.toNat < p.kernelHole.hi) &&
    r.phys.toNat < p.physCeiling

/-- The half enters pages in the tables: V = 1 and populatable (R226). -/
def populates (p : Params) (r : HalfRange) : Bool := r.v && populatable p r

/-- The addresses `start, start + 4096, ... <= stop` (R226). -/
def pageStarts (r : HalfRange) : List Word :=
  (List.range (((r.stop - r.start) >>> 12).toNat + 1)).map fun j => r.start + BitVec.ofNat 32 (j * 4096)

/-- The physical page a page of the half is entered as (R226). -/
def cellOf (r : HalfRange) (p : Word) : BitVec 20 := (r.phys + (p - r.start)).extractLsb' 12 20

/-- A table with every page of the half entered (R226). -/
def fillPages (r : HalfRange) (lut : List (Nat × BitVec 20)) : List (Nat × BitVec 20) :=
  (pageStarts r).foldl (fun l p => Table.put (pageOf p) (cellOf r p) l) lut

/-- A table with every page of the half cleared (R227). -/
def clearPages (r : HalfRange) (lut : List (Nat × BitVec 20)) : List (Nat × BitVec 20) :=
  (pageStarts r).foldl (fun l p => Table.erase (pageOf p) l) lut

/-- One half of `Map(e)` (R226): the read table takes a valid half, the write table a valid and dirty one. -/
def mapHalf (r : HalfRange) (s : State) : State :=
  if populates s.params r then
    { s with lutR := fillPages r s.lutR, lutW := if r.d then fillPages r s.lutW else s.lutW }
  else s

/-- One half of `Unmap(e)` (R227). -/
def unmapHalf (r : HalfRange) (s : State) : State :=
  if populates s.params r then
    { s with lutR := clearPages r s.lutR, lutW := if r.d then clearPages r s.lutW else s.lutW }
  else s

/-- `Map(e)` (R226). -/
def mapEntry (e : TlbEntry) (s : State) : State := mapHalf (half e true) (mapHalf (half e false) s)

/-- `Unmap(e)` (R227). -/
def unmapEntry (e : TlbEntry) (s : State) : State := unmapHalf (half e true) (unmapHalf (half e false) s)

/-- `EntryFromRegs()` (R224). -/
def entryFromRegs (c : Cp0) : TlbEntry where
  mask := c.pageMask.extractLsb' 13 12
  vpn2 := c.entryHi.extractLsb' 13 19
  asid := c.entryHi.extractLsb' 0 8
  g := c.entryLo0.getLsbD 0 && c.entryLo1.getLsbD 0
  pfn0 := c.entryLo0.extractLsb' 6 20
  pfn1 := c.entryLo1.extractLsb' 6 20
  c0 := c.entryLo0.extractLsb' 3 3
  c1 := c.entryLo1.extractLsb' 3 3
  d0 := c.entryLo0.getLsbD 2
  d1 := c.entryLo1.getLsbD 2
  v0 := c.entryLo0.getLsbD 1
  v1 := c.entryLo1.getLsbD 1

/-- The ranges `notify_invalidate(old, new)` hands to the engine (R234). -/
def invalidatedRanges (p : Params) (old new : TlbEntry) : List (Word × Word) :=
  ([half old false, half old true, half new false, half new true].filter (populates p)).map fun r => (r.start, r.stop)

/-- `notify_invalidate(old, new)` (R234): it changes what the engine holds compiled, and no state of the block. -/
def notifyInvalidate (old new : TlbEntry) (s : State) : State := invalidateRanges (invalidatedRanges s.params old new) s

/-- `TLBWrite(i)` (R223), one atomic transition: unmap the old entry, store the new one, map it, notify the engine. -/
def tlbWrite (i : Fin 32) (s : State) : State :=
  let e := entryFromRegs s.cp0
  let u := unmapEntry s.tlb[i] s
  notifyInvalidate s.tlb[i] e (mapEntry e { u with tlb := u.tlb.set i e })

/-- `rederive_luts()` (R228). DEDUCED (log 28): after a past overlap (R229) its tables can differ from those the writes left. -/
def rederiveLuts (s : State) : State :=
  s.tlb.toList.foldl (fun t e => mapEntry e t) { s with lutR := [], lutW := [] }

/-- The EntryLo word TLBR fills (R231). -/
def entryLoWord (pfn : BitVec 20) (c : BitVec 3) (d v g : Bool) : Word :=
  (pfn.setWidth 32 <<< 6) ||| (c.setWidth 32 <<< 3) ||| ((BitVec.ofBool d).setWidth 32 <<< 2) |||
    ((BitVec.ofBool v).setWidth 32 <<< 1) ||| (BitVec.ofBool g).setWidth 32

/-- The CP0 registers after TLBR of an entry (R231). -/
def regsFromEntry (e : TlbEntry) (c : Cp0) : Cp0 :=
  { c with
    pageMask := e.mask.setWidth 32 <<< 13
    entryHi := (e.vpn2.setWidth 32 <<< 13) ||| e.asid.setWidth 32
    entryLo0 := entryLoWord e.pfn0 e.c0 e.d0 e.v0 e.g
    entryLo1 := entryLoWord e.pfn1 e.c1 e.d1 e.v1 e.g }

/-- The match of TLBP (R232): VPN2 outside the mask, and G or the ASID. The valid bits are not tested. -/
def probeMatches (entryHi : Word) (e : TlbEntry) : Bool :=
  let m : BitVec 19 := e.mask.setWidth 19
  (e.vpn2 &&& ~~~m) = (entryHi.extractLsb' 13 19 &&& ~~~m) && (e.g || e.asid = entryHi.extractLsb' 0 8)

/-- Index after TLBP (R232): the lowest matching entry, or P set with the index bits kept. -/
def probeIndex (c : Cp0) (tlb : Vector TlbEntry 32) : Word :=
  match tlb.toList.findIdx? (probeMatches c.entryHi) with
  | some i => BitVec.ofNat 32 i
  | none => putProbeFailure c.index

end Sys2Proof.Machine
end

