-- ==== Sys2Proof/Machine/TlbOps.lean ====
section
/-! DEFINITION. TLBR, TLBWI, TLBWR, TLBP (spec/41_tlb.md). -/

namespace Sys2Proof.Machine

/-- The entry Index names, none for 32 to 63 (R221, R230, R231). Index.P is not looked at. -/
def indexedEntry (index : Word) : Option (Fin 32) :=
  if h : (index.extractLsb' 0 6).toNat < 32 then some ⟨(index.extractLsb' 0 6).toNat, h⟩ else none

/-- The effect of TLBR (R231, R230). -/
def readIndexed (s : State) : State :=
  match indexedEntry s.cp0.index with
  | some i => { s with cp0 := regsFromEntry s.tlb[i] s.cp0 }
  | none => s

/-- The effect of TLBWI (R221, R230). -/
def writeIndexed (s : State) : State :=
  match indexedEntry s.cp0.index with
  | some i => tlbWrite i s
  | none => s

/-- The effect of TLBWR (R222). -/
def writeRandom (s : State) : State := tlbWrite (drawRandom s).2 (drawRandom s).1

/-- The effect of TLBP (R232). -/
def probe (s : State) : State := { s with cp0 := { s.cp0 with index := probeIndex s.cp0 s.tlb } }

/-- TLBR (R231). -/
def execTlbr (s : State) : Result := requireCp0 s fun s => .next (readIndexed s).advance

/-- TLBWI (R221). -/
def execTlbwi (s : State) : Result := requireCp0 s fun s => .next (writeIndexed s).advance

/-- TLBWR (R222). -/
def execTlbwr (s : State) : Result := requireCp0 s fun s => .next (writeRandom s).advance

/-- TLBP (R232). -/
def execTlbp (s : State) : Result := requireCp0 s fun s => .next (probe s).advance

end Sys2Proof.Machine
end

