-- ==== Sys2Proof/Machine/Traps.lean ====
section
/-! DEFINITION. ERET, SYSCALL, BREAK (spec/44_trap_instructions.md). -/

namespace Sys2Proof.Machine

/-- ERET (R340): in a delay slot F_UNDEFINED is set, and the return is made all the same (U2). -/
def execEret (s : State) : Result :=
  requireCp0 s fun s => .next (returnFromException (if s.inDelaySlot then s.faultUndefined else s))

/-- SYSCALL (R342): the exception, always; the code is not read. -/
def execSyscall (_code : Nat) (s : State) : Result := raise .syscall s

/-- BREAK (R343): the exception, always; the code is not read. -/
def execBreak (_code : Nat) (s : State) : Result := raise .breakpoint s

end Sys2Proof.Machine
end

