-- ==== Sys2Proof/Machine/Step.lean ====
section
/-! DEFINITION. One step: the boundary (spec/60_exceptions.md R386), the fetch (R382), and the instruction (spec/30_encoding.md
R154). -/

namespace Sys2Proof.Machine

/-- A fetched word (R154): an instruction, an unrecognised COP0 word (R155), or a word without meaning here (R157, R64). -/
def runWord (w : Word) (s : State) : Result :=
  match decode w with
  | .instr i => exec i s
  | .unrecognisedCop0 => execUnrecognisedCop0 s
  | .unadmittedCop1 => .refused (.unadmittedCop1 w)
  | .notOfBlock => .refused (.notOfBlock w)
  | .notFourBytes => .refused (.notOfBlock w)

/-- The fetch and the fetched word. -/
def fetchAndRun (s : State) : Result :=
  match fetch s with
  | .word t w => runWord w t
  | .excepted t => .next t
  | .refused r => .refused r

/-- One step. A step that takes an interrupt ends with it (log 5); a machine that failed its boot check has none (R421). -/
def step (s : State) : Host.Outcome State Fault Refusal :=
  if s.faults.boot then .fault .bootFailed
  else
    match boundary s with
    | .proceed t => fetchAndRun t
    | .interrupted t => .next t
    | .refused r => .refused r

/-- `s` with the word `w` of `nbits` bits stored where `step` fetches its next instruction. -/
def State.withFetchWord (s : State) (nbits w : Nat) : State := storeAtFetch (BitVec.ofNat 32 (w % 2 ^ nbits)) s

end Sys2Proof.Machine
end

