-- ==== Sys2Proof/Machine/Ports.lean ====
section
/-! DEFINITION. The ports the engine and the host call that no instruction uses (spec/30_encoding.md R160): power-on
(spec/70_reset_and_hazards.md R420 to R422), `raise_exception` (R371), `run` and the stop flag (R411), the save-state
(R412, spec/43_event_queue.md R319). -/

namespace Sys2Proof.Machine

/-- The boot check (R421): a probe, no exception. -/
def bootCheck (s : State) : Bool :=
  s.params.bootAddr.extractLsb' 0 2 = 0 &&
    (inHole s.params s.params.bootAddr || inRemap s.params s.params.bootAddr ||
      (Table.get (pageOf s.params.bootAddr) s.lutR).isSome)

/-- The answer of `power_on` (R160, R421). -/
inductive PowerOnAnswer where
  | ok
  | bootError
deriving DecidableEq, Repr

/-- `power_on` (R420): the table, then the COMPARE node (R422), then the boot check (R421). `u` is what R420 leaves
unspecified. -/
def powerOn (p : Params) (u : ResetInputs) : State × PowerOnAnswer :=
  let s := reschedCompare (State.powerOnTable p u)
  if bootCheck s then (s, .ok) else (s.faultBoot, .bootError)

/-- The port `raise_exception(code, info)` (R371), for the exceptions of the engine's own instructions. DESIGN CHOICE (log 11):
like every port it acts after a failed boot check as in any other state. -/
def raiseException (code : BitVec 5) (va : Word) (cop : BitVec 2) (s : State) : Except Refusal State :=
  match Exc.ofCode code va cop with
  | some e => .ok (enter e s)
  | none => .error (.reservedExcCode code)

/-- The host sets or clears the stop flag; nothing else changes (R411). -/
def setStop (b : Bool) (s : State) : State := { s with stop := b }

/-- How a `run` ended. -/
inductive RunEnd where
  /-- the stop flag was observed where the engine polls it (R411) -/
  | stopped
  /-- the host's instruction budget was used up (R386) -/
  | budget
  | faulted (f : Fault)
  | refused (r : Refusal)
deriving DecidableEq, Repr

/-- The state a refusal leaves: F_REFUSED is recorded for a word without meaning and no step is taken (R157, R64). DESIGN
CHOICE (log 10): it is recorded in the state before the refused step, without the effects of that step's boundary and
fetch. -/
def recordRefusal (r : Refusal) (s : State) : State :=
  match r with
  | .unadmittedCop1 _ => s.faultRefused
  | .notOfBlock _ => s.faultRefused
  | _ => s

/-- `run` (R411): steps until the stop flag is observed, for at most `budget` steps; a later run resumes from the state it
leaves. The flag is polled where the engine polls (R441): between instructions in the pure interpreter, between basic
blocks in the cached and recompiled modes. DESIGN CHOICE (log 20): it stays set, so the host clears it (`setStop`) before a
new run resumes. -/
def run : Nat → State → State × RunEnd
  | 0, s => (s, .budget)
  | n + 1, s =>
    if s.stop && pollsHere s then (s, .stopped)
    else
      match step s with
      | .next t => run n t
      | .fault f => (s, .faulted f)
      | .refused r => (recordRefusal r s, .refused r)

/-- The content of a save-state (R412). The queue is saved as (type, cycles-until-due) (R319). -/
structure SaveImage where
  gpr : Vector Dword 32
  hi : Dword
  lo : Dword
  pc : Word
  llBit : Bool
  cp0 : Cp0
  tlb : Vector TlbEntry 32
  fpr : Vector Dword 32
  fcr31 : Word
  queue : List (EventType × Nat)
  xs : List Snapshot
  /-- the fast lookup tables, when they are persisted (R70) -/
  luts : Option (List (Nat × BitVec 20) × List (Nat × BitVec 20))
deriving DecidableEq, Repr

/-- A checkpoint: a boundary whose sample made `last_pc` = `pc`, never between a branch and its delay slot (R412). -/
def State.atCheckpoint (s : State) : Bool := s.lastPc = s.pc && !s.inDelaySlot

/-- `save_read` (R412), tables included. -/
def saveRead (s : State) : Except Refusal SaveImage :=
  if s.atCheckpoint then
    .ok
      { gpr := s.gpr, hi := s.hi, lo := s.lo, pc := s.pc, llBit := s.llBit, cp0 := s.cp0, tlb := s.tlb, fpr := s.fpr
        fcr31 := s.fcr31, queue := s.queue.map fun n => (n.type, n.due - s.time), xs := s.xs
        luts := some (s.lutR, s.lutW) }
  else .error .notAtCheckpoint

/-- A queue the host may restore: at most 16 nodes, sorted by cycles-until-due (R319, U24). DESIGN CHOICE (log 16): R319 and U24
name no other reason, so a node whose type is outside `EVENT_TYPES` is restored as it is. -/
abbrev SaveImage.queueValid (img : SaveImage) : Prop :=
  img.queue.length ≤ queueCap ∧ (img.queue.map Prod.snd).Pairwise (· ≤ ·)

/-- `save_write` (R412), at a checkpoint only: the content restored, `last_pc` at the pc, T kept, the tables taken or re-derived
(R228). DESIGN CHOICE (log 16): an exception stack longer than `EXC_STACK_DEPTH` and set reserved bits are restored as given,
since R412 and U24 name no refusal for them, and so is a slot of x[0] that is not 0, which no instruction reads; code the engine holds compiled stays. -/
def saveWrite (img : SaveImage) (s : State) : Except Refusal State :=
  if !s.atCheckpoint then .error .notAtCheckpoint
  else if img.queueValid then
    let t : State :=
      { s with
        gpr := img.gpr, hi := img.hi, lo := img.lo, pc := img.pc, llBit := img.llBit, cp0 := img.cp0, tlb := img.tlb
        fpr := img.fpr, fcr31 := img.fcr31, queue := img.queue.map fun q => ⟨q.1, s.time + q.2⟩, xs := img.xs
        lastPc := img.pc }
    match img.luts with
    | some l => .ok { t with lutR := l.1, lutW := l.2 }
    | none => .ok (rederiveLuts t)
  else .error .invalidSaveImage

/-- The port `schedule` as a device or the host calls it (R160, R316): COMPARE is refused. -/
def schedulePort (type : EventType) (delta : Nat) (s : State) : Except Refusal (State × ScheduleAnswer) :=
  if type = .compare then .error .compareFromOutside
  else if eventTypeKnown s.params type then .ok (schedule type delta s)
  else .error (.unknownEventType type)

/-- The port `cancel` as a device or the host calls it (R160, R316): COMPARE is refused. -/
def cancelPort (type : EventType) (s : State) : Except Refusal State :=
  if type = .compare then .error .compareFromOutside
  else if eventTypeKnown s.params type then .ok (cancel type s)
  else .error (.unknownEventType type)

end Sys2Proof.Machine
end

