-- ==== Sys2Proof/Safety.lean ====
section
/-! DEFINITION. What counts as a safe state and a safe run, the invariants claims are stated with, and the parts of the state a
frame says are unchanged. -/

namespace Sys2Proof.Machine

/-- No block fault flag is set: the model's safety predicate (R64, R69). -/
abbrev State.faultFree (s : State) : Prop := s.faults = ⟨false, false, false, false⟩

/-- Reached from `s` by steps. -/
inductive ReachedFrom (s : State) : State → Prop where
  | refl : ReachedFrom s s
  | step {t u : State} : ReachedFrom s t → Machine.step t = .next u → ReachedFrom s u

/-- A run of `k` steps that ends neither in a fault nor in a refusal, and sets no fault flag. -/
def safeRun : Nat → State → Bool
  | 0, s => decide s.faultFree
  | k + 1, s =>
    decide s.faultFree &&
      match step s with
      | .next t => safeRun k t
      | .fault _ => false
      | .refused _ => false

/-- The reserved CP0 fields read as the spec says (U19): 0, and Config's read-only fields their reset value (R37 to R56). -/
abbrev Cp0.ReservedFields (c : Cp0) : Prop :=
  c.index &&& 0x7FFFFFC0 = 0 ∧ c.entryLo0 &&& 0xFC000000 = 0 ∧ c.entryLo1 &&& 0xFC000000 = 0 ∧
  c.context &&& 0x0000000F = 0 ∧ c.pageMask &&& 0xFE001FFF = 0 ∧ c.wired &&& 0xFFFFFFC0 = 0 ∧
  c.entryHi &&& 0x00001F00 = 0 ∧ c.status &&& 0x00A80000 = 0 ∧ c.cause &&& 0x4FFF0083 = 0 ∧
  c.config &&& 0xF0FFFFF0 = 0x0006E460 ∧ c.watchLo &&& 0x00000004 = 0 ∧ c.watchHi &&& 0xFFFFFFF0 = 0 ∧
  c.tagLo &&& 0xF000003F = 0

/-- The canonical form of a fast lookup table (R61): pages strictly rising, below 2^20. -/
abbrev Lut.wf (lut : List (Nat × BitVec 20)) : Prop := Table.Sorted lut ∧ ∀ c ∈ lut, c.1 < 1048576

/-- The state invariant: reserved fields, canonical tables, the bounds of the queue (R62) and of the exception stack (R63), and
legal parameters (R7). -/
structure State.WellFormed (s : State) : Prop where
  legal : s.params.Legal
  cp0 : s.cp0.ReservedFields
  fcr31 : s.fcr31 &&& 0xFE7C0000 = 0
  mem : Memory.wf s.mem
  lutR : Lut.wf s.lutR
  lutW : Lut.wf s.lutW
  heldCode : Table.Sorted s.heldCode
  queue : Queue.wf s.queue
  xs : s.xs.length ≤ s.params.excStackDepth

/-- The COMPARE nodes of a queue. -/
def compareNodes (q : List Node) : List Node := q.filter fun n => n.type = .compare

/-- The timer invariant (R318, R394): exactly one COMPARE node, and Count equals Compare when block time reaches its due
time: Compare - Count and due - T agree modulo 2^32. -/
def State.TimerCoherent (s : State) : Prop :=
  ∃ due, compareNodes s.queue = [⟨.compare, due⟩] ∧
    (s.cp0.compare.toNat + s.time) % 4294967296 = (s.cp0.count.toNat + due) % 4294967296

/-! Parts of the state a frame names -/

/-- Every general register, HI and LO. -/
def sameGprs (s t : State) : Prop := (∀ r, t.readX r = s.readX r) ∧ t.hi = s.hi ∧ t.lo = s.lo

/-- Every general register but one, HI and LO. -/
def sameGprsBut (r : RegNum) (s t : State) : Prop := (∀ q, q ≠ r → t.readX q = s.readX q) ∧ t.hi = s.hi ∧ t.lo = s.lo

/-- The FPU bank and FCR31. -/
def sameFpu (s t : State) : Prop := t.fpr = s.fpr ∧ t.fcr31 = s.fcr31

/-- The TLB and both fast lookup tables. -/
def sameTlb (s t : State) : Prop := t.tlb = s.tlb ∧ t.lutR = s.lutR ∧ t.lutW = s.lutW

/-- Every byte of memory. -/
def sameMemory (s t : State) : Prop := ∀ a, Memory.readByte t.mem a = Memory.readByte s.mem a

/-- The code the engine holds compiled. -/
def sameHeldCode (s t : State) : Prop := t.heldCode = s.heldCode

/-- The event queue, the exception stack and the fault flags. -/
def sameQueueAndStack (s t : State) : Prop := t.queue = s.queue ∧ t.xs = s.xs ∧ t.faults = s.faults

/-- Every CP0 register but Count. -/
def sameCp0ButCount (s t : State) : Prop := t.cp0 = { s.cp0 with count := t.cp0.count }

/-- Count, block time and the sample reference. -/
def sameTime (s t : State) : Prop := t.cp0.count = s.cp0.count ∧ t.time = s.time ∧ t.lastPc = s.lastPc

/-- The load-linked bit, the stop flag, the branch target, the parameters and the device inputs. -/
def sameRest (s t : State) : Prop :=
  t.llBit = s.llBit ∧ t.stop = s.stop ∧ t.branchTarget = s.branchTarget ∧ t.params = s.params ∧
    t.handlerCalls = s.handlerCalls ∧ t.deviceReplies = s.deviceReplies

end Sys2Proof.Machine
end

