-- ==== Sys2Proof/Certificates/Slice0/Obligations.lean ====
section
/-! DEFINITION. The statements for the provers, file by file of spec/. Each says which rules it formalises; OBLIGATIONS.json lists
them. A result written `.next u.advance` is the instruction's own effect `u` followed by the move to the next instruction
(`AdvanceIsTheNextInstruction`). -/

open Sys2Proof Sys2Proof.Machine

/-! ## Encoding (spec/30_encoding.md) -/

/-- R159: the assembler examples decode to the instructions they are written for. -/
def Obligations.AssemblerExamplesDecode : Prop :=
  decode 0x40086000 = .instr (.mfc0 8 12) ∧ decode 0x40287000 = .instr (.dmfc0 8 14) ∧
  decode 0x40895000 = .instr (.mtc0 9 10) ∧ decode 0x40A97000 = .instr (.dmtc0 9 14) ∧
  decode 0x42000001 = .instr .tlbr ∧ decode 0x42000002 = .instr .tlbwi ∧ decode 0x42000006 = .instr .tlbwr ∧
  decode 0x42000008 = .instr .tlbp ∧ decode 0x42000018 = .instr .eret ∧ decode 0x0000000C = .instr (.syscall 0) ∧
  decode 0x0000000D = .instr (.brk 0) ∧ decode 0x44081800 = .instr (.mfc1 8 3) ∧
  decode 0x44282000 = .instr (.dmfc1 8 4) ∧ decode 0x4448F800 = .instr (.cfc1 8 31) ∧
  decode 0x44891800 = .instr (.mtc1 9 3) ∧ decode 0x44A92000 = .instr (.dmtc1 9 4) ∧
  decode 0x44C9F800 = .instr (.ctc1 9 31) ∧ decode 0xC4820010 = .instr (.lwc1 2 16 4) ∧
  decode 0xD482FFF8 = .instr (.ldc1 2 (-8) 4) ∧ decode 0xE4820010 = .instr (.swc1 2 16 4) ∧
  decode 0xF4820008 = .instr (.sdc1 2 8 4)

/-- R153: the decoder, written on fields, selects by `word & mask = match`; no two rows match the same word. -/
def Obligations.WordSelectsItsTableRow : Prop :=
  (∀ w i, decode w = .instr i → selectsRowOf w i) ∧
  (∀ w i, selectsRowOf w i → ∃ j, decode w = .instr j ∧ rowOf j = rowOf i ∧ j.mnemonic = i.mnemonic) ∧
  (∀ w i j, selectsRowOf w i → selectsRowOf w j → rowOf i = rowOf j)

/-- Decode and encode agree (R151 to R153): a word is an instruction exactly when the instruction has an encoding and that word
is it, so that every operand at every value comes back. -/
def Obligations.DecodeAndEncodeAgree : Prop :=
  ∀ (w : Word) (i : Instr), decode w = .instr i ↔ i.wellFormed = true ∧ encode i = w

/-- R155, R157: a COP0 word that matches no row only moves on to the next instruction; a COP1-opcode word that matches no row
takes no step. That `run`, and not the refused step, records F_REFUSED and ends there is the model's choice (log 10). -/
def Obligations.WordsThatMatchNoRow : Prop :=
  ∀ (w : Word), (∀ i, ¬ selectsRowOf w i) →
    (opcodeField w = 0x10 → ∀ s : State, cp0Usable s.cp0.status = true →
      runWord w s = .next s.advance ∧ (s.inDelaySlot = false → s.advance = { s with pc := s.pc + 4 })) ∧
    (opcodeField w = 0x11 →
      (∀ s, runWord w s = .refused (.unadmittedCop1 w)) ∧
      (∀ s n, s.stop = false → step s = .refused (.unadmittedCop1 w) →
        run (n + 1) s = (s.faultRefused, .refused (.unadmittedCop1 w))))

/-! ## Steps -/

/-- The move to the next instruction (R31, R390): pc + 4, or the branch target after a delay slot, with the engine's sample
at the address after the slot and its rebase. Outside R31's words for the delay slot it is the model's choice (log 9). -/
def Obligations.AdvanceIsTheNextInstruction : Prop :=
  ∀ s : State,
    (s.inDelaySlot = false → s.advance = { s with pc := s.pc + 4 }) ∧
    (s.inDelaySlot = true → s.advance.pc = s.branchTarget ∧ s.advance.inDelaySlot = false ∧
      s.advance.lastPc = s.branchTarget ∧ s.advance.time = (countSample (s.pc + 4) s).time ∧
      s.advance.cp0 = (countSample (s.pc + 4) s).cp0)

/-- A step runs the fetched word: after the boundary, step is `runWord` of the word the engine fetches, and exec of the
instruction it decodes to; a word that is no instruction goes as R154 says (`WordsThatMatchNoRow`). A fetch whose check fails
takes that exception instead, alignment first (R382). The pure interpreter reads the word at the pc's physical address
every time, which in a device window is a device's reply (log 24); the other engines run the word they hold for the virtual
address, and read memory when they hold none, as after an "invalidate range" over it, the block's own at a TLB write (R234)
among them, which drops no other word (R124, R442). That a collaborator may have invalidated the word by then, and how many
words are compiled with it, are free values; the held code is the model's way to say what the engine may run (log 15). -/
def Obligations.StepRunsTheDecodedInstruction : Prop :=
  (∀ (w : Word) (i : Instr) (u : State), decode w = .instr i → runWord w u = exec i u) ∧
  (∀ s t : State, s.faults.boot = false → boundary s = .proceed t →
    (wordAligned t.pc = false → step s = .next (enter (.addressError .read t.pc) t)) ∧
    (wordAligned t.pc = true →
      (∀ e, translateAddress t.pc .read t = .miss e → step s = .next (enter e t)) ∧
      (∀ pa, translateAddress t.pc .read t = .hit pa → t.params.engineMode = .pureInterpreter →
        (inDeviceWindow t.params pa 4 = false → step s = runWord (Memory.readWord t.mem pa) t ∧
          ∀ i, decode (Memory.readWord t.mem pa) = .instr i → step s = exec i t) ∧
        (inDeviceWindow t.params pa 4 = true →
          (∀ u v, deviceAccess pa t = .ok (u, v) → step s = runWord (v.extractLsb' 0 32) u) ∧
          (∀ e, deviceAccess pa t = .error e → step s = .refused e))) ∧
      (∀ pa, translateAddress t.pc .read t = .hit pa → t.params.engineMode ≠ .pureInterpreter →
        (inDeviceWindow t.params pa 4 = true →
          let x : State :=
            { t with
              draws := t.draws + 1
              heldCode := if Config.freeInvalidated t.draws then Table.erase t.pc.toNat t.heldCode else t.heldCode }
          match Table.get t.pc.toNat x.heldCode with
          | some w => step s = runWord w x
          | none =>
            (∀ u v, deviceAccess pa x = .ok (u, v) → ∃ held,
              step s = runWord (v.extractLsb' 0 32) { u with heldCode := held } ∧
              Table.get t.pc.toNat held = some (v.extractLsb' 0 32)) ∧
            (∀ e, deviceAccess pa x = .error e → step s = .refused e)) ∧
        (inDeviceWindow t.params pa 4 = false →
          let word := if Config.freeInvalidated t.draws then Memory.readWord t.mem pa
            else (Table.get t.pc.toNat t.heldCode).getD (Memory.readWord t.mem pa)
          ∃ held,
            step s = runWord word { t with draws := t.draws + 1, heldCode := held } ∧
            (∀ i, decode word = .instr i → step s = exec i { t with draws := t.draws + 1, heldCode := held }) ∧
            Table.get t.pc.toNat held = some word ∧
            (∀ a w, a ≠ t.pc.toNat → Table.get a t.heldCode = some w → Table.get a held = some w) ∧
            (∀ a w, a ≠ t.pc.toNat → Table.get a t.heldCode = none → Table.get a held = some w →
              ∃ (va : Word) (q : Word), va.toNat = a ∧ translateAddress va .read t = .hit q ∧
                w = Memory.readWord t.mem q))))) ∧
  (∀ (lo hi : Word) (s : State) (a : Nat), Table.get a (invalidateRange lo hi s).heldCode =
    if lo.toNat < a + 4 ∧ a ≤ hi.toNat then none else Table.get a s.heldCode) ∧
  (∀ (i : Fin 32) (s : State) (a : Nat),
    let dropped (r : HalfRange) : Prop :=
      r.v = true ∧ populatable s.params r = true ∧ r.start.toNat < a + 4 ∧ a ≤ r.stop.toNat
    let halves :=
      [half s.tlb[i] false, half s.tlb[i] true, half (entryFromRegs s.cp0) false, half (entryFromRegs s.cp0) true]
    ((∃ r ∈ halves, dropped r) → Table.get a (tlbWrite i s).heldCode = none) ∧
    ((∀ r ∈ halves, ¬dropped r) → Table.get a (tlbWrite i s).heldCode = Table.get a s.heldCode))

/-- R386: the boundary in every engine mode. Where the engine polls it takes the count sample, dispatches, runs the handlers and
checks for an interrupt, in this order, and a step that takes the interrupt ends with it; where it does not poll it goes
straight on. It never polls between a branch and its delay slot; that the pure interpreter polls at every other boundary is
the model's choice among those R441 leaves (log 5). The other modes poll where a change of the pc ended a basic block, and
elsewhere by a free value, which a boundary of theirs always uses up (log 5). R411, R441: a run observes the stop flag where
the engine polls (log 20). -/
def Obligations.BoundaryStepOrder : Prop :=
  (∀ s : State,
    let polls : Prop := s.inDelaySlot = false ∧
      (s.params.engineMode = .pureInterpreter ∨ s.lastPc = s.pc ∨ Config.freePoll s.draws = true)
    let p : State := if s.params.engineMode = .pureInterpreter then s else { s with draws := s.draws + 1 }
    let sampled := countSample p.pc p
    (¬polls → boundary s = .proceed p) ∧
    (polls → boundary s =
      match runHandlers (dispatchEvents sampled).2 (dispatchEvents sampled).1 with
      | .ok t => if t.interruptDue then .interrupted (enter .interrupt t) else .proceed t
      | .error e => .refused e)) ∧
  (∀ s : State, s.faults.boot = false →
    (∀ t, boundary s = .interrupted t → step s = .next t) ∧ (∀ e, boundary s = .refused e → step s = .refused e)) ∧
  (∀ s : State, (dispatchEvents s).1 = fireCompares (popDue s.time s).2 (popDue s.time s).1 ∧
    (dispatchEvents s).2 = ((popDue s.time s).2.filter fun n => n.type ≠ .compare)) ∧
  ∀ (s : State) (n : Nat),
    let onward : State × RunEnd :=
      match step s with
      | .next t => run n t
      | .fault f => (s, .faulted f)
      | .refused e => (recordRefusal e s, .refused e)
    (s.stop = false → run (n + 1) s = onward) ∧
    (s.inDelaySlot = true → run (n + 1) s = onward) ∧
    (s.stop = true → s.inDelaySlot = false →
      (s.params.engineMode = .pureInterpreter ∨ s.lastPc = s.pc → run (n + 1) s = (s, .stopped)) ∧
      (s.params.engineMode ≠ .pureInterpreter → s.lastPc ≠ s.pc →
        run (n + 1) s = if Config.freePoll s.draws then (s, .stopped) else onward))

/-! ## Invariants -/

/-- Every step keeps the state's invariant: reserved fields as the spec says they read, canonical memory and tables, the
bounds of the queue and of the exception stack (R37 to R63, R317, U19). -/
def Obligations.StepKeepsStateWellFormed : Prop :=
  ∀ s t : State, s.WellFormed → step s = .next t → t.WellFormed

/-- Every step keeps exactly one COMPARE node, due when Count reaches Compare (R318, R394). -/
def Obligations.StepKeepsTimerCoherent : Prop :=
  ∀ s t : State, Queue.wf s.queue → s.TimerCoherent → step s = .next t → t.TimerCoherent

/-- Power-on meets both invariants whatever the parameters and the unspecified values (R420, R422), and leaves no code held (the
model's field, log 15). -/
def Obligations.PowerOnMeetsTheInvariants : Prop :=
  (∀ p u, p.Legal → (powerOn p u).1.WellFormed ∧ (powerOn p u).1.TimerCoherent) ∧
  (∀ p u, (powerOn p u).1.heldCode = []) ∧
  State.reset.WellFormed ∧ State.reset.TimerCoherent

/-- Whole-machine rules: no step clears a fault flag (R64), touches HI, LO (R30) or the stop flag (R32), or changes a
parameter (R412). -/
def Obligations.StepNeverTouchesStopOrParameters : Prop :=
  ∀ s t : State, step s = .next t →
    t.params = s.params ∧ t.hi = s.hi ∧ t.lo = s.lo ∧ t.stop = s.stop ∧ t.faults.boot = s.faults.boot ∧
    t.faults.refused = s.faults.refused ∧ (s.faults.queueFull = true → t.faults.queueFull = true) ∧
    (s.faults.undefined = true → t.faults.undefined = true)

/-! ## Power-on (spec/70_reset_and_hazards.md) -/

/-- R420, R422: every state element after power-on, whatever value each unspecified register takes. -/
def Obligations.PowerOnSetsEveryElement : Prop :=
  ∀ (p : Params) (u : ResetInputs), let s := (powerOn p u).1
    (∀ r, s.readX r = 0) ∧ s.hi = 0 ∧ s.lo = 0 ∧ s.pc = p.bootAddr ∧ s.inDelaySlot = false ∧ s.llBit = false ∧
    s.stop = false ∧ s.time = 0 ∧ s.lastPc = p.bootAddr ∧
    s.cp0 =
      { index := u.index &&& 0x8000003F, entryLo0 := u.entryLo0 &&& 0x03FFFFFF, entryLo1 := u.entryLo1 &&& 0x03FFFFFF
        context := u.context &&& 0xFFFFFFF0, pageMask := u.pageMask &&& 0x01FFE000, wired := 0, badVAddr := u.badVAddr
        count := 0x00005000, entryHi := u.entryHi &&& 0xFFFFE0FF, compare := u.compare, status := 0x34000000
        cause := u.excCode.setWidth 32 <<< 2, epc := u.epc, config := 0x0006E463, llAddr := u.llAddr
        watchLo := u.watchLo &&& 0xFFFFFFFB, watchHi := u.watchHi &&& 0x0000000F, xContext := u.xContext
        tagLo := u.tagLo &&& 0x0FFFFFC0, errorEpc := u.errorEpc } ∧
    (∀ i : Fin 32, s.tlb[i] = TlbEntry.zero) ∧ s.lutR = [] ∧ s.lutW = [] ∧ s.fpr = u.fpr ∧
    s.fcr31 = u.fcr31 &&& 0x0183FFFF ∧ s.queue = [⟨.compare, compareDelta u.compare 0x5000⟩] ∧ s.xs = [] ∧
    s.faults.queueFull = false ∧ s.faults.refused = false ∧ s.faults.undefined = false ∧ s.params = p ∧
    prIdValue p = 0x00000B00 ||| p.pridRev.setWidth 32 ∧ compareDelta 0 0x5000 = 0xFFFFB000

/-- R421: the boot check is a probe; a boot address that is misaligned or does not translate sets F_BOOT, and only a new
power-on may follow. That a step then is the fault `bootFailed` is the model's choice (U18, log 11). -/
def Obligations.BootCheckDecidesPowerOn : Prop :=
  ∀ (p : Params) (u : ResetInputs),
    ((powerOn p u).2 = .ok ↔
      p.bootAddr.extractLsb' 0 2 = 0 ∧ (inHole p p.bootAddr = true ∨ inRemap p p.bootAddr = true)) ∧
    ((powerOn p u).1.faults.boot = true ↔ (powerOn p u).2 = .bootError) ∧
    ((powerOn p u).2 = .bootError → step (powerOn p u).1 = .fault .bootFailed) ∧
    (powerOn p u).1.cp0 = (State.powerOnTable p u).cp0

/-- R424: what software finds at the boot address under the decided kernel hole: besides a compatibility remap (R106) only
kseg0 and kseg1 translate. -/
def Obligations.BootSoftwareFindsKernelMode : Prop :=
  ∀ (p : Params) (u : ResetInputs), p.kernelHole = ⟨0x80000000, 0xC0000000⟩ →
    let s := (powerOn p u).1
    modeOf s.cp0.status = .kernel ∧ statusIe s.cp0.status = false ∧ statusBev s.cp0.status = false ∧ s.fr = true ∧
    vectorOf s.cp0.status true false = 0x80000000 ∧ vectorOf s.cp0.status false false = 0x80000180 ∧
    cp0Usable s.cp0.status = true ∧ cp1Usable s.cp0.status = true ∧
    ∀ va kind, (∃ pa, translateAddress va kind s = .hit pa) ↔
      (0x80000000 ≤ va.toNat ∧ va.toNat < 0xC0000000) ∨ inRemap p va = true

/-! ## Memory (spec/20_memory.md) -/

/-- R116: a doubleword holds the word at `a` in bits 63:32 and the word at `a + 4` in bits 31:0; words are big-endian (R115),
and a store changes no other byte (R121). R116 speaks of an 8-aligned `a`; that any other `a` goes the same way, its bytes
wrapping past 0xFFFFFFFF (R9), is the model's choice (log 23). -/
def Obligations.StoredDwordReadsBackBigEndian : Prop :=
  ∀ (m : List Host.Cell) (a : Word) (v : Dword),
    Memory.readDword (Memory.writeDword m a v) a = v ∧
    Memory.readWord (Memory.writeDword m a v) a = v.extractLsb' 32 32 ∧
    Memory.readWord (Memory.writeDword m a v) (a + 4) = v.extractLsb' 0 32 ∧
    (∀ k : Fin 8, Memory.readByte (Memory.writeDword m a v) (a + BitVec.ofNat 32 k) = v.extractLsb' (56 - 8 * k) 8) ∧
    (∀ c : Word, 8 ≤ (c - a).toNat → Memory.readByte (Memory.writeDword m a v) c = Memory.readByte m c)

/-- R110, R111: the port translate_tlb. The remap comes first, a hit keeps the low 12 bits, a miss takes the refill and
answers (false, 0) (the sentinel R113 decides, U30; log 17); neither EntryHi nor the entries of the TLB are read, so no ASID is. -/
def Obligations.TranslateTlbHitsOrRefills : Prop :=
  ∀ (va : Word) (kind : Access) (s : State),
    (inRemap s.params va = true → translateTlb va kind s = (s, true, Config.remapFn va)) ∧
    (inRemap s.params va = false → ∀ ppn : BitVec 20, Table.get (pageOf va) (s.lut kind) = some ppn →
      translateTlb va kind s = (s, true, (ppn.setWidth 32 <<< 12) ||| (va &&& 0x00000FFF))) ∧
    (inRemap s.params va = false → Table.get (pageOf va) (s.lut kind) = none →
      translateTlb va kind s = (enter (.tlbRefill kind va) s, false, 0)) ∧
    ∀ (h : Word) (tlb : Vector TlbEntry 32),
      (translateTlb va kind { s with cp0 := { s.cp0 with entryHi := h }, tlb := tlb }).2 = (translateTlb va kind s).2

/-- R103: segment rights by mode, then the direct map, then the tables. -/
def Obligations.TranslateChecksSegmentThenMap : Prop :=
  ∀ (va : Word) (kind : Access) (s : State),
    (modeOf s.cp0.status = .user → 0x80000000 ≤ va.toNat → translateAddress va kind s = .miss (.addressError kind va)) ∧
    (modeOf s.cp0.status = .supervisor →
      ¬(va.toNat < 0x80000000 ∨ (0xC0000000 ≤ va.toNat ∧ va.toNat < 0xE0000000)) →
      translateAddress va kind s = .miss (.addressError kind va)) ∧
    ((modeOf s.cp0.status = .kernel ∨ va.toNat < 0x80000000 ∨
        (modeOf s.cp0.status = .supervisor ∧ 0xC0000000 ≤ va.toNat ∧ va.toNat < 0xE0000000)) →
      (inHole s.params va = true → translateAddress va kind s = .hit (va &&& 0x1FFFFFFF)) ∧
      (inHole s.params va = false → ∀ pa, (translateTlb va kind s).2 = (true, pa) → translateAddress va kind s = .hit pa) ∧
      (inHole s.params va = false → (translateTlb va kind s).2.1 = false →
        translateAddress va kind s = .miss (.tlbRefill kind va)))

/-! ## General registers and CP0 moves (spec/10_state.md, spec/40_cp0_moves.md) -/

/-- x[0] reads as 0 and a write to it is discarded; any other register reads the last value written (R30, R10). -/
def Obligations.GprZeroDiscardsWrites : Prop :=
  ∀ (s : State) (v : Dword), s.readX 0 = 0 ∧ s.writeX 0 v = s ∧
    ∀ i j : RegNum, i ≠ 0 → (s.writeX i v).readX j = if j = i then v else s.readX j

/-- R182, with MFC0 (R181) and DMFC0 (R204): each register number, and the numbers that name none. -/
def Obligations.MoveFromCp0ReadsEachRegister : Prop :=
  ∀ (mk : RegNum → RegNum → Instr), mk = .mfc0 ∨ mk = .dmfc0 → ∀ (s : State) (rt : RegNum),
    (cp0Usable s.cp0.status = false → ∀ rd, exec (mk rt rd) s = .next (enter (.copUnusable 0) s)) ∧
    (cp0Usable s.cp0.status = true →
      let d := ((s.pc - s.lastPc) >>> 2).toNat * s.params.countPerOp
      let sampled : State :=
        { s with cp0 := { s.cp0 with count := s.cp0.count + BitVec.ofNat 32 d }, time := s.time + d, lastPc := s.pc }
      exec (mk rt 0) s = .next (s.writeX rt (s.cp0.index.signExtend 64)).advance ∧
      (∃ v : Nat, min (s.cp0.wired &&& 0x3F).toNat 31 ≤ v ∧ v ≤ 31 ∧
        exec (mk rt 1) s = .next (({ s with draws := s.draws + 1 } : State).writeX rt (BitVec.ofNat 64 v)).advance) ∧
      exec (mk rt 2) s = .next (s.writeX rt (s.cp0.entryLo0.signExtend 64)).advance ∧
      exec (mk rt 3) s = .next (s.writeX rt (s.cp0.entryLo1.signExtend 64)).advance ∧
      exec (mk rt 4) s = .next (s.writeX rt (s.cp0.context.signExtend 64)).advance ∧
      exec (mk rt 5) s = .next (s.writeX rt (s.cp0.pageMask.signExtend 64)).advance ∧
      exec (mk rt 6) s = .next (s.writeX rt (s.cp0.wired.signExtend 64)).advance ∧
      exec (mk rt 8) s = .next (s.writeX rt (s.cp0.badVAddr.signExtend 64)).advance ∧
      exec (mk rt 9) s = .next (sampled.writeX rt ((s.cp0.count + BitVec.ofNat 32 d).signExtend 64)).advance ∧
      exec (mk rt 10) s = .next (s.writeX rt (s.cp0.entryHi.signExtend 64)).advance ∧
      exec (mk rt 11) s = .next (sampled.writeX rt (s.cp0.compare.signExtend 64)).advance ∧
      exec (mk rt 12) s = .next (s.writeX rt (s.cp0.status.signExtend 64)).advance ∧
      exec (mk rt 13) s = .next (s.writeX rt (s.cp0.cause.signExtend 64)).advance ∧
      exec (mk rt 14) s = .next (s.writeX rt (s.cp0.epc.signExtend 64)).advance ∧
      exec (mk rt 15) s = .next (s.writeX rt ((0x00000B00#32 ||| s.params.pridRev.setWidth 32).signExtend 64)).advance ∧
      exec (mk rt 16) s = .next (s.writeX rt (s.cp0.config.signExtend 64)).advance ∧
      exec (mk rt 17) s = .next (s.writeX rt (s.cp0.llAddr.signExtend 64)).advance ∧
      exec (mk rt 18) s = .next (s.writeX rt (s.cp0.watchLo.signExtend 64)).advance ∧
      exec (mk rt 19) s = .next (s.writeX rt (s.cp0.watchHi.signExtend 64)).advance ∧
      exec (mk rt 20) s = .next (s.writeX rt (s.cp0.xContext.signExtend 64)).advance ∧
      exec (mk rt 28) s = .next (s.writeX rt (s.cp0.tagLo.signExtend 64)).advance ∧
      exec (mk rt 29) s = .next (s.writeX rt 0).advance ∧
      exec (mk rt 30) s = .next (s.writeX rt (s.cp0.errorEpc.signExtend 64)).advance ∧
      ∀ rd : RegNum, rd = 7 ∨ (21 ≤ rd.toNat ∧ rd.toNat ≤ 27) ∨ rd = 31 → exec (mk rt rd) s = .next s.advance)

/-- The plain stores under a write mask, the read-only registers and the numbers that name none (R185 to R191, R197 to R202),
by MTC0 (R183) and DMTC0 (R205); an enabled software interrupt bit set in Cause is taken at the next check (R197). -/
def Obligations.MoveToCp0StoresUnderMask : Prop :=
  ∀ (mk : RegNum → RegNum → Instr), mk = .mtc0 ∨ mk = .dmtc0 → ∀ (s : State) (rt : RegNum),
    cp0Usable s.cp0.status = true →
    let v : Word := (s.readX rt).extractLsb' 0 32
    exec (mk rt 0) s = .next ({ s with cp0 := { s.cp0 with index := v &&& 0x8000003F } } : State).advance ∧
    exec (mk rt 2) s = .next ({ s with cp0 := { s.cp0 with entryLo0 := v &&& 0x03FFFFFF } } : State).advance ∧
    exec (mk rt 3) s = .next ({ s with cp0 := { s.cp0 with entryLo1 := v &&& 0x03FFFFFF } } : State).advance ∧
    exec (mk rt 4) s =
      .next ({ s with cp0 := { s.cp0 with context := (v &&& 0xFF800000) ||| (s.cp0.context &&& 0x007FFFF0) } } : State).advance ∧
    exec (mk rt 5) s = .next ({ s with cp0 := { s.cp0 with pageMask := v &&& 0x01FFE000 } } : State).advance ∧
    exec (mk rt 6) s = .next ({ s with cp0 := { s.cp0 with wired := v &&& 0x0000003F } } : State).advance ∧
    exec (mk rt 10) s = .next ({ s with cp0 := { s.cp0 with entryHi := v &&& 0xFFFFE0FF } } : State).advance ∧
    exec (mk rt 13) s =
      .next ({ s with cp0 := { s.cp0 with cause := (s.cp0.cause &&& ~~~0x00000300) ||| (v &&& 0x00000300) } } : State).advance ∧
    exec (mk rt 14) s = .next ({ s with cp0 := { s.cp0 with epc := v } } : State).advance ∧
    exec (mk rt 16) s =
      .next ({ s with cp0 := { s.cp0 with config := (s.cp0.config &&& ~~~0x0F00000F) ||| (v &&& 0x0F00000F) } } : State).advance ∧
    exec (mk rt 17) s = .next ({ s with cp0 := { s.cp0 with llAddr := v } } : State).advance ∧
    exec (mk rt 18) s = .next ({ s with cp0 := { s.cp0 with watchLo := v &&& 0xFFFFFFFB } } : State).advance ∧
    exec (mk rt 19) s = .next ({ s with cp0 := { s.cp0 with watchHi := v &&& 0x0000000F } } : State).advance ∧
    exec (mk rt 28) s = .next ({ s with cp0 := { s.cp0 with tagLo := v &&& 0x0FFFFFC0 } } : State).advance ∧
    exec (mk rt 30) s = .next ({ s with cp0 := { s.cp0 with errorEpc := v } } : State).advance ∧
    (∀ rd : RegNum, rd = 1 ∨ rd = 8 ∨ rd = 15 ∨ rd = 20 ∨ rd = 29 ∨ rd = 7 ∨ (21 ≤ rd.toNat ∧ rd.toNat ≤ 27) ∨ rd = 31 →
      exec (mk rt rd) s = .next s.advance) ∧
    (∀ t, exec (mk rt 13) s = .next t → v &&& s.cp0.status &&& 0x00000300 ≠ 0 → s.cp0.status.getLsbD 0 = true →
      s.cp0.status.getLsbD 1 = false → s.cp0.status.getLsbD 2 = false → checkInterrupt t = enter .interrupt t)

/-- R192, R193: a Count write samples, replaces Count and moves the COMPARE node alone to the new distance; T is not
written. The node finds room whenever the queue held a COMPARE node or fewer than 16 nodes. -/
def Obligations.CountWriteReschedulesCompare : Prop :=
  ∀ (mk : RegNum → RegNum → Instr), mk = .mtc0 ∨ mk = .dmtc0 → ∀ (s : State) (rt : RegNum),
    cp0Usable s.cp0.status = true → (s.queue.filter fun n => n.type ≠ .compare).length < 16 →
    let v : Word := (s.readX rt).extractLsb' 0 32
    ∃ u : State, exec (mk rt 9) s = .next u.advance ∧ u.cp0 = { s.cp0 with count := v } ∧
      u.time = (countSample s.pc s).time ∧ u.lastPc = s.pc ∧
      u.queue.Perm (⟨.compare, u.time + ((s.cp0.compare - v - 1).toNat + 1)⟩ :: s.queue.filter fun n => n.type ≠ .compare) ∧
      (u.queue.filter fun n => n.type ≠ .compare) = (s.queue.filter fun n => n.type ≠ .compare) ∧
      (Queue.wf s.queue → Queue.wf u.queue) ∧
      { u with cp0 := s.cp0, time := s.time, lastPc := s.lastPc, queue := s.queue } = s

/-- R194: a Compare write samples, replaces Compare, clears Cause.IP7 alone and reschedules the COMPARE node. -/
def Obligations.CompareWriteAcknowledgesTimer : Prop :=
  ∀ (mk : RegNum → RegNum → Instr), mk = .mtc0 ∨ mk = .dmtc0 → ∀ (s : State) (rt : RegNum),
    cp0Usable s.cp0.status = true → (s.queue.filter fun n => n.type ≠ .compare).length < 16 →
    let v : Word := (s.readX rt).extractLsb' 0 32
    let count := (countSample s.pc s).cp0.count
    ∃ u : State, exec (mk rt 11) s = .next u.advance ∧
      u.cp0 = { s.cp0 with count := count, compare := v, cause := s.cp0.cause &&& 0xFFFF7FFF } ∧
      u.time = (countSample s.pc s).time ∧ u.lastPc = s.pc ∧
      u.queue.Perm (⟨.compare, u.time + ((v - count - 1).toNat + 1)⟩ :: s.queue.filter fun n => n.type ≠ .compare) ∧
      (u.queue.filter fun n => n.type ≠ .compare) = (s.queue.filter fun n => n.type ≠ .compare) ∧
      (Queue.wf s.queue → Queue.wf u.queue) ∧
      { u with cp0 := s.cp0, time := s.time, lastPc := s.lastPc, queue := s.queue } = s

/-- R195, R196: a Status write stores under the mask 0xFF57FFFF and reshuffles the FPU bank exactly when FR changes. -/
def Obligations.StatusWriteReshufflesOnFrChange : Prop :=
  ∀ (mk : RegNum → RegNum → Instr), mk = .mtc0 ∨ mk = .dmtc0 → ∀ (s : State) (rt : RegNum),
    cp0Usable s.cp0.status = true →
    let v : Word := (s.readX rt).extractLsb' 0 32
    ∃ f : Vector Dword 32,
      exec (mk rt 12) s = .next ({ s with cp0 := { s.cp0 with status := v &&& 0xFF57FFFF }, fpr := f } : State).advance ∧
      (v.getLsbD 26 = s.cp0.status.getLsbD 26 → f = s.fpr) ∧
      (s.cp0.status.getLsbD 26 = true → v.getLsbD 26 = false → f = packSlots s.fpr) ∧
      (s.cp0.status.getLsbD 26 = false → v.getLsbD 26 = true → f = unpackSlots s.fpr)

/-- R190, R38: after a Wired write of v, every read of Random lies in [min(v[5:0], 31), 31]; for 31 and above it is 31 (U22;
log 17). -/
def Obligations.WiredWriteBoundsRandom : Prop :=
  ∀ (s : State) (rt r : RegNum), cp0Usable s.cp0.status = true → r ≠ 0 →
    let v := ((s.readX rt).extractLsb' 0 6).toNat
    ∃ t u : State, exec (.mtc0 rt 6) s = .next t ∧ t.cp0.wired.toNat = v ∧ exec (.mfc0 r 1) t = .next u ∧
      min v 31 ≤ (u.readX r).toNat ∧ (u.readX r).toNat ≤ 31 ∧ u.cp0.wired = t.cp0.wired

/-- The frame of the moves to a general register: MFC0, DMFC0, MFC1, DMFC1, CFC1 (R180 to R182, R260). Only x[rt] and the pc
change; a read of Count or Compare also samples, and a read of Random uses up a draw. -/
def Obligations.FrameOfMovesToGpr : Prop :=
  ∀ (s t : State) (rt r : RegNum) (i : Instr),
    ((i = .mfc0 rt r ∨ i = .dmfc0 rt r) ∧ cp0Usable s.cp0.status = true) ∨
      ((i = .mfc1 rt r ∨ i = .dmfc1 rt r ∨ i = .cfc1 rt r) ∧ cp1Usable s.cp0.status = true) →
    exec i s = .next t →
    sameGprsBut rt s t ∧ t.readX 0 = 0 ∧ sameFpu s t ∧ sameTlb s t ∧ sameMemory s t ∧ sameHeldCode s t ∧ sameQueueAndStack s t ∧
    sameCp0ButCount s t ∧ sameRest s t ∧
    (s.inDelaySlot = false → ¬((i = .mfc0 rt r ∨ i = .dmfc0 rt r) ∧ (r = 9 ∨ r = 11)) → sameTime s t)

/-- The frame of the moves to CP0: MTC0 and DMTC0 (R183 to R203). No general register, TLB entry, table cell or byte of memory
changes; only a Status write may touch the FPU bank, and only a Count or Compare write the queue. -/
def Obligations.FrameOfMovesToCp0 : Prop :=
  ∀ (s t : State) (rt rd : RegNum) (i : Instr), i = .mtc0 rt rd ∨ i = .dmtc0 rt rd → cp0Usable s.cp0.status = true →
    exec i s = .next t →
    sameGprs s t ∧ t.fcr31 = s.fcr31 ∧ (rd ≠ 12 → t.fpr = s.fpr) ∧ sameTlb s t ∧ sameMemory s t ∧ sameHeldCode s t ∧
    t.xs = s.xs ∧
    (rd ≠ 9 → rd ≠ 11 → sameQueueAndStack s t) ∧ sameRest s t ∧ t.draws = s.draws ∧
    (s.inDelaySlot = false → rd ≠ 9 → rd ≠ 11 → sameTime s t) ∧
    t.cp0.badVAddr = s.cp0.badVAddr ∧ t.cp0.xContext = s.cp0.xContext ∧ (rd ≠ 12 → t.cp0.status = s.cp0.status) ∧
    (rd ≠ 13 → rd ≠ 11 → t.cp0.cause = s.cp0.cause) ∧ (rd ≠ 14 → t.cp0.epc = s.cp0.epc) ∧
    (rd ≠ 11 → t.cp0.compare = s.cp0.compare) ∧ (rd ≠ 10 → t.cp0.entryHi = s.cp0.entryHi) ∧
    (rd ≠ 4 → t.cp0.context = s.cp0.context) ∧ (rd ≠ 30 → t.cp0.errorEpc = s.cp0.errorEpc) ∧
    (rd ≠ 0 → t.cp0.index = s.cp0.index) ∧ (rd ≠ 6 → t.cp0.wired = s.cp0.wired) ∧
    (rd ≠ 2 → t.cp0.entryLo0 = s.cp0.entryLo0) ∧ (rd ≠ 3 → t.cp0.entryLo1 = s.cp0.entryLo1) ∧
    (rd ≠ 5 → t.cp0.pageMask = s.cp0.pageMask) ∧ (rd ≠ 16 → t.cp0.config = s.cp0.config) ∧
    (rd ≠ 17 → t.cp0.llAddr = s.cp0.llAddr) ∧ (rd ≠ 18 → t.cp0.watchLo = s.cp0.watchLo) ∧
    (rd ≠ 19 → t.cp0.watchHi = s.cp0.watchHi) ∧ (rd ≠ 28 → t.cp0.tagLo = s.cp0.tagLo)

/-! ## Privilege (spec/60_exceptions.md, spec/42_cp1_aliasing.md) -/

/-- R400, R402: the mode from EXL, ERL and KSU (the reserved KSU = 11 is user). COP0 outside kernel mode without CU0 is
unusable, and the test precedes every other effect of each COP0 instruction and of a COP0 word the block does not recognise. -/
def Obligations.UnusableCop0IsTakenFirst : Prop :=
  (∀ status : Word, modeOf status =
    if status.getLsbD 1 = true ∨ status.getLsbD 2 = true then .kernel
    else if status.extractLsb' 3 2 = 0#2 then .kernel
    else if status.extractLsb' 3 2 = 1#2 then .supervisor
    else .user) ∧
  (∀ status : Word, cp0Usable status = true ↔ modeOf status = .kernel ∨ status.getLsbD 28 = true) ∧
  (∀ (s : State) (rt rd : RegNum) (w : Word), cp0Usable s.cp0.status = false → decode w = .unrecognisedCop0 →
    ∀ o ∈ [exec (.mfc0 rt rd) s, exec (.dmfc0 rt rd) s, exec (.mtc0 rt rd) s, exec (.dmtc0 rt rd) s, exec .tlbr s,
        exec .tlbwi s, exec .tlbwr s, exec .tlbp s, exec .eret s, runWord w s],
      o = .next (enter (.copUnusable 0) s)) ∧
  ∀ (s : State) (rest : State → Result), cp0Usable s.cp0.status = true → requireCp0 s rest = rest s

/-- R262: with CU1 = 0 every COP1 instruction takes coprocessor unusable with CE = 1 before any other effect. -/
def Obligations.UnusableCop1IsTakenFirst : Prop :=
  (∀ (s : State) (rt r : RegNum) (offset : Int), s.cp0.status.getLsbD 29 = false →
    ∀ o ∈ [exec (.mfc1 rt r) s, exec (.mtc1 rt r) s, exec (.dmfc1 rt r) s, exec (.dmtc1 rt r) s, exec (.cfc1 rt r) s,
        exec (.ctc1 rt r) s, exec (.lwc1 rt offset r) s, exec (.ldc1 rt offset r) s, exec (.swc1 rt offset r) s,
        exec (.sdc1 rt offset r) s],
      o = .next (enter (.copUnusable 1) s) ∧ causeCe (enter (.copUnusable 1) s).cp0.cause = 1) ∧
  ∀ (s : State) (rest : State → Result), s.cp0.status.getLsbD 29 = true → requireCp1 s rest = rest s

/-- R401: Status, and so the mode, changes in a step only by exception entry, by ERET and by a move to Status; entry enters
kernel mode, ERET returns to the mode the remaining fields name, the move stores KSU, EXL and ERL directly. -/
def Obligations.OnlyTheseChangeTheMode : Prop :=
  (∀ s t : State, step s = .next t → t.cp0.status ≠ s.cp0.status → ∃ u : State, u.cp0.status = s.cp0.status ∧
    ((∃ e, t = enter e u) ∨ exec .eret u = .next t ∨
      ∃ rt, exec (.mtc0 rt 12) u = .next t ∨ exec (.dmtc0 rt 12) u = .next t)) ∧
  (∀ (e : Exc) (s : State), modeOf (enter e s).cp0.status = .kernel ∧
    (enter e s).cp0.status = s.cp0.status ||| 0x00000002) ∧
  (∀ s : State, cp0Usable s.cp0.status = true → ∃ t, exec .eret s = .next t ∧
    t.cp0.status = s.cp0.status &&& (if s.cp0.status.getLsbD 2 = true then 0xFFFFFFFB else 0xFFFFFFFD)) ∧
  (∀ (s : State) (rt : RegNum), cp0Usable s.cp0.status = true → ∀ i ∈ [Instr.mtc0 rt 12, .dmtc0 rt 12],
    ∃ t, exec i s = .next t ∧ t.cp0.status = (s.readX rt).extractLsb' 0 32 &&& 0xFF57FFFF)

/-! ## TLB (spec/41_tlb.md) -/

/-- R225: the virtual range of each half of an entry, whatever its mask (U21; log 17); no range wraps. -/
def Obligations.HalvesNeverWrap : Prop :=
  ∀ e : TlbEntry,
    let size := (e.mask.toNat + 1) * 4096
    let base := (e.vpn2 &&& ~~~(e.mask.setWidth 19)).toNat * 8192
    base + 2 * size ≤ 4294967296 ∧
    (half e false).start.toNat = base ∧ (half e false).stop.toNat = base + size - 1 ∧
    (half e true).start.toNat = base + size ∧ (half e true).stop.toNat = base + 2 * size - 1 ∧
    (half e false).phys.toNat = e.pfn0.toNat * 4096 ∧ (half e true).phys.toNat = e.pfn1.toNat * 4096 ∧
    (half e false).v = e.v0 ∧ (half e false).d = e.d0 ∧ (half e true).v = e.v1 ∧ (half e true).d = e.d1

/-- R226: Map enters each page of a populatable valid half in the read table, and of a dirty one in the write table, with the
physical page the offset in the half gives, and no other cell changes. -/
def Obligations.MapEntersExactlyTheValidHalves : Prop :=
  ∀ (e : TlbEntry) (s : State) (va : Word),
    let covers (h : Bool) : Prop :=
      (half e h).v = true ∧ populatable s.params (half e h) = true ∧
        (half e h).start.toNat ≤ va.toNat ∧ va.toNat ≤ (half e h).stop.toNat
    (∀ r, populatable s.params r = true ↔ r.start.toNat < r.stop.toNat ∧
      ¬(s.params.kernelHole.lo ≤ r.start.toNat ∧ r.stop.toNat < s.params.kernelHole.hi) ∧
      r.phys.toNat < s.params.physCeiling) ∧
    (∀ h, covers h →
      Table.get (pageOf va) (mapEntry e s).lutR =
        some (((half e h).phys + (va - (half e h).start)).extractLsb' 12 20) ∧
      ((half e h).d = true → Table.get (pageOf va) (mapEntry e s).lutW =
        some (((half e h).phys + (va - (half e h).start)).extractLsb' 12 20))) ∧
    ((∀ h, ¬covers h) → Table.get (pageOf va) (mapEntry e s).lutR = Table.get (pageOf va) s.lutR) ∧
    ((∀ h, ¬(covers h ∧ (half e h).d = true)) →
      Table.get (pageOf va) (mapEntry e s).lutW = Table.get (pageOf va) s.lutW) ∧
    { mapEntry e s with lutR := s.lutR, lutW := s.lutW } = s

/-- R227: Unmap clears exactly the cells the entry populated, even where another entry populated them since (R229, U4;
log 17). -/
def Obligations.UnmapClearsExactlyWhatMapEntered : Prop :=
  ∀ (e : TlbEntry) (s : State) (va : Word),
    let covers (h : Bool) : Prop :=
      (half e h).v = true ∧ populatable s.params (half e h) = true ∧
        (half e h).start.toNat ≤ va.toNat ∧ va.toNat ≤ (half e h).stop.toNat
    (∀ h, covers h → Table.get (pageOf va) (unmapEntry e s).lutR = none ∧
      ((half e h).d = true → Table.get (pageOf va) (unmapEntry e s).lutW = none)) ∧
    ((∀ h, ¬covers h) → Table.get (pageOf va) (unmapEntry e s).lutR = Table.get (pageOf va) s.lutR) ∧
    ((∀ h, ¬(covers h ∧ (half e h).d = true)) →
      Table.get (pageOf va) (unmapEntry e s).lutW = Table.get (pageOf va) s.lutW) ∧
    { unmapEntry e s with lutR := s.lutR, lutW := s.lutW } = s

/-- R233: when the cells of an entry are as Map wrote them (mapping it again changes nothing, as right after a map), unmap then
map restores the tables, as equal data. -/
def Obligations.UnmapThenMapRestoresTheTables : Prop :=
  ∀ (e : TlbEntry) (s : State), Lut.wf s.lutR → Lut.wf s.lutW →
    mapEntry e (mapEntry e s) = mapEntry e s ∧ (mapEntry e s = s → mapEntry e (unmapEntry e s) = s)

/-- R221, R223, R224, R230: TLBWI unmaps the indexed entry, stores the registers in it, maps it and notifies the engine; with an Index of 32 to 63
neither TLBWI nor TLBR changes anything, and Index.P is ignored. -/
def Obligations.TlbwiWritesTheIndexedEntry : Prop :=
  ∀ s : State, cp0Usable s.cp0.status = true →
    let i := (s.cp0.index &&& 0x3F).toNat
    (32 ≤ i → exec .tlbwi s = .next s.advance ∧ exec .tlbr s = .next s.advance) ∧
    (∀ h : i < 32, ∃ e : TlbEntry,
      exec .tlbwi s =
        .next (notifyInvalidate s.tlb[i] e (mapEntry e { unmapEntry s.tlb[i] s with tlb := s.tlb.set i e })).advance ∧
      e.mask = s.cp0.pageMask.extractLsb' 13 12 ∧ e.vpn2 = s.cp0.entryHi.extractLsb' 13 19 ∧
      e.asid = s.cp0.entryHi.extractLsb' 0 8 ∧ e.g = (s.cp0.entryLo0.getLsbD 0 && s.cp0.entryLo1.getLsbD 0) ∧
      e.pfn0 = s.cp0.entryLo0.extractLsb' 6 20 ∧ e.c0 = s.cp0.entryLo0.extractLsb' 3 3 ∧
      e.d0 = s.cp0.entryLo0.getLsbD 2 ∧ e.v0 = s.cp0.entryLo0.getLsbD 1 ∧
      e.pfn1 = s.cp0.entryLo1.extractLsb' 6 20 ∧ e.c1 = s.cp0.entryLo1.extractLsb' 3 3 ∧
      e.d1 = s.cp0.entryLo1.getLsbD 2 ∧ e.v1 = s.cp0.entryLo1.getLsbD 1)

/-- R222: TLBWR makes the same write at an entry in [min(Wired, 31), 31], whatever the draw; entries below Wired are never
written. -/
def Obligations.TlbwrWritesAnEntryAboveWired : Prop :=
  ∀ s : State, cp0Usable s.cp0.status = true →
    ∃ i : Fin 32, min (s.cp0.wired &&& 0x3F).toNat 31 ≤ i.val ∧
      exec .tlbwr s = .next (tlbWrite i { s with draws := s.draws + 1 }).advance ∧
      ∀ t, exec .tlbwr s = .next t → ∀ j : Fin 32, j ≠ i → t.tlb[j] = s.tlb[j]

/-- R231: TLBR fills PageMask, EntryHi, EntryLo0 and EntryLo1 from the indexed entry and touches no table; with an Index of 32
to 63 it changes nothing. -/
def Obligations.TlbrReadsTheIndexedEntry : Prop :=
  ∀ s : State, cp0Usable s.cp0.status = true →
    let i := (s.cp0.index &&& 0x3F).toNat
    (32 ≤ i → exec .tlbr s = .next s.advance) ∧
    (∀ h : i < 32, exec .tlbr s =
      .next ({ s with
        cp0 := { s.cp0 with
          pageMask := 0#7 ++ s.tlb[i].mask ++ 0#13
          entryHi := s.tlb[i].vpn2 ++ 0#5 ++ s.tlb[i].asid
          entryLo0 := 0#6 ++ s.tlb[i].pfn0 ++ s.tlb[i].c0 ++ BitVec.ofBool s.tlb[i].d0 ++ BitVec.ofBool s.tlb[i].v0 ++
            BitVec.ofBool s.tlb[i].g
          entryLo1 := 0#6 ++ s.tlb[i].pfn1 ++ s.tlb[i].c1 ++ BitVec.ofBool s.tlb[i].d1 ++ BitVec.ofBool s.tlb[i].v1 ++
            BitVec.ofBool s.tlb[i].g } } : State).advance)

/-- R232: TLBP sets Index to the lowest matching entry, or sets P and keeps the index bits; it touches nothing else. -/
def Obligations.TlbpFindsTheLowestMatch : Prop :=
  ∀ s : State, cp0Usable s.cp0.status = true →
    let hit (i : Fin 32) : Prop :=
      s.tlb[i].vpn2 &&& ~~~(s.tlb[i].mask.setWidth 19) = s.cp0.entryHi.extractLsb' 13 19 &&& ~~~(s.tlb[i].mask.setWidth 19) ∧
        (s.tlb[i].g = true ∨ s.tlb[i].asid = s.cp0.entryHi.extractLsb' 0 8)
    (∀ i : Fin 32, hit i → (∀ j : Fin 32, j < i → ¬hit j) →
      exec .tlbp s = .next ({ s with cp0 := { s.cp0 with index := BitVec.ofNat 32 i } } : State).advance) ∧
    ((∀ i : Fin 32, ¬hit i) →
      exec .tlbp s = .next ({ s with cp0 := { s.cp0 with index := s.cp0.index ||| 0x80000000 } } : State).advance)

/-- The frame of the TLB instructions (R220): none touches a general register, the FPU, the queue, the exception state or
memory; TLBR writes four CP0 registers, TLBP Index, the others none; TLBR and TLBP leave the TLB. -/
def Obligations.FrameOfTlbInstructions : Prop :=
  ∀ (s t : State) (i : Instr), i = .tlbr ∨ i = .tlbwi ∨ i = .tlbwr ∨ i = .tlbp → cp0Usable s.cp0.status = true →
    exec i s = .next t →
    sameGprs s t ∧ sameFpu s t ∧ sameMemory s t ∧ sameQueueAndStack s t ∧ sameRest s t ∧
    (s.inDelaySlot = false → sameTime s t) ∧ (i = .tlbr ∨ i = .tlbp → sameTlb s t ∧ sameHeldCode s t) ∧
    (i = .tlbwi ∨ i = .tlbwr → sameCp0ButCount s t) ∧
    (i = .tlbp → t.cp0 = { s.cp0 with count := t.cp0.count, index := t.cp0.index }) ∧
    (i = .tlbr → t.cp0 =
      { s.cp0 with
        count := t.cp0.count, pageMask := t.cp0.pageMask, entryHi := t.cp0.entryHi, entryLo0 := t.cp0.entryLo0
        entryLo1 := t.cp0.entryLo1 })

/-! ## Exceptions (spec/60_exceptions.md, spec/44_trap_instructions.md) -/

/-- R371, R372, R374: exception entry, for every exception and every state: the sample, the push, EPC and BD when EXL was 0,
ExcCode, EXL, the vector, the delay-slot flag, the rebase, and what entry leaves. -/
def Obligations.ExceptionEntrySavesAndRedirects : Prop :=
  ∀ (e : Exc) (s : State),
    let t := enter e s
    let d := ((s.pc - s.lastPc) >>> 2).toNat * s.params.countPerOp
    let exl := s.cp0.status.getLsbD 1
    let slot := s.inDelaySlot && decide (e ≠ .interrupt)
    t.cp0.count = s.cp0.count + BitVec.ofNat 32 d ∧ t.time = s.time + d ∧
    t.xs = (if s.xs.length = s.params.excStackDepth then s.xs.drop 1 else s.xs) ++
      [⟨s.cp0.epc, s.cp0.cause, s.cp0.status⟩] ∧
    t.cp0.epc = (if exl then s.cp0.epc else if slot then s.pc - 4 else s.pc) ∧
    t.cp0.cause.getLsbD 31 = (if exl then s.cp0.cause.getLsbD 31 else slot) ∧
    t.cp0.cause.extractLsb' 2 5 = e.code ∧ t.cp0.cause.extractLsb' 8 8 = s.cp0.cause.extractLsb' 8 8 ∧
    ((∀ cop, e ≠ .copUnusable cop) → t.cp0.cause.extractLsb' 28 2 = s.cp0.cause.extractLsb' 28 2) ∧
    t.cp0.status = s.cp0.status ||| 0x00000002 ∧
    t.pc = (if s.cp0.status.getLsbD 22 = true then 0xBFC00200#32 else 0x80000000#32) +
      (match e, exl with | .tlbRefill _ _, false => 0x000#32 | _, _ => 0x180#32) ∧
    t.inDelaySlot = false ∧ t.lastPc = t.pc ∧
    sameGprs s t ∧ sameFpu s t ∧ sameTlb s t ∧ sameMemory s t ∧ sameHeldCode s t ∧ t.queue = s.queue ∧
    t.faults = s.faults ∧ sameRest s t ∧
    t.draws = s.draws ∧
    t.cp0 =
      { s.cp0 with
        count := t.cp0.count, cause := t.cp0.cause, epc := t.cp0.epc, status := t.cp0.status
        badVAddr := t.cp0.badVAddr, context := t.cp0.context, entryHi := t.cp0.entryHi } ∧
    ((∀ kind va, e ≠ .tlbRefill kind va) → t.cp0.context = s.cp0.context ∧ t.cp0.entryHi = s.cp0.entryHi) ∧
    ((∀ kind va, e ≠ .tlbRefill kind va) → (∀ kind va, e ≠ .addressError kind va) → t.cp0.badVAddr = s.cp0.badVAddr)

/-- R376, R377, R378: what each cause writes besides ExcCode, and the registers it leaves. -/
def Obligations.EachCauseWritesItsRegisters : Prop :=
  ∀ (s : State) (kind : Access) (va : Word) (cop : BitVec 2),
    let r := (enter (.tlbRefill kind va) s).cp0
    let a := (enter (.addressError kind va) s).cp0
    let c := (enter (.copUnusable cop) s).cp0
    (r.badVAddr = va ∧ r.context = (s.cp0.context &&& 0xFF800000) ||| ((va >>> 13) <<< 4) ∧
      r.entryHi = (va &&& 0xFFFFE000) ||| (s.cp0.entryHi &&& 0x000000FF) ∧
      r.cause.extractLsb' 2 5 = (if kind = .write then 3#5 else 2#5)) ∧
    (a.badVAddr = va ∧ a.context = s.cp0.context ∧ a.entryHi = s.cp0.entryHi ∧
      a.cause.extractLsb' 2 5 = (if kind = .write then 5#5 else 4#5)) ∧
    (c.cause.extractLsb' 28 2 = cop ∧ c.cause.extractLsb' 2 5 = 11#5 ∧ c.badVAddr = s.cp0.badVAddr ∧
      c.context = s.cp0.context ∧ c.entryHi = s.cp0.entryHi)

/-- R385: an interrupt is taken exactly when IE = 1, EXL = 0, ERL = 0 and an enabled line is pending; the lines are not
changed by taking it. -/
def Obligations.InterruptIsTakenWhenEnabled : Prop :=
  ∀ s : State,
    ((s.cp0.status.getLsbD 0 = true ∧ s.cp0.status.getLsbD 1 = false ∧ s.cp0.status.getLsbD 2 = false ∧
        ∃ k, k < 8 ∧ s.cp0.cause.getLsbD (8 + k) = true ∧ s.cp0.status.getLsbD (8 + k) = true) →
      checkInterrupt s = enter .interrupt s ∧ (checkInterrupt s).cp0.epc = s.pc ∧
      causeBd (checkInterrupt s).cp0.cause = false ∧ causeExcCode (checkInterrupt s).cp0.cause = 0 ∧
      causeIp (checkInterrupt s).cp0.cause = causeIp s.cp0.cause) ∧
    (¬(s.cp0.status.getLsbD 0 = true ∧ s.cp0.status.getLsbD 1 = false ∧ s.cp0.status.getLsbD 2 = false ∧
        ∃ k, k < 8 ∧ s.cp0.cause.getLsbD (8 + k) = true ∧ s.cp0.status.getLsbD (8 + k) = true) →
      checkInterrupt s = s)

/-- R340: ERET, its whole next state: ERL first, then EXL; the popped triple restores nothing; in a delay slot F_UNDEFINED. -/
def Obligations.EretReturnsFromException : Prop :=
  ∀ s : State, cp0Usable s.cp0.status = true → ∃ t, exec .eret s = .next t ∧
    let d := ((s.pc + 4 - s.lastPc) >>> 2).toNat * s.params.countPerOp
    t.pc = (if s.cp0.status.getLsbD 2 = true then s.cp0.errorEpc else s.cp0.epc) ∧
    t.cp0 =
      { s.cp0 with
        count := s.cp0.count + BitVec.ofNat 32 d
        status := s.cp0.status &&& (if s.cp0.status.getLsbD 2 = true then 0xFFFFFFFB else 0xFFFFFFFD) } ∧
    t.time = s.time + d ∧ t.lastPc = t.pc ∧ t.llBit = false ∧ t.xs = s.xs.dropLast ∧ t.inDelaySlot = false ∧
    t.faults = { s.faults with undefined := s.faults.undefined || s.inDelaySlot } ∧
    sameGprs s t ∧ sameFpu s t ∧ sameTlb s t ∧ sameMemory s t ∧ sameHeldCode s t ∧ t.queue = s.queue ∧
    t.params = s.params ∧
    t.stop = s.stop ∧ t.draws = s.draws

/-- R342, R343: SYSCALL and BREAK take their exception always, in every mode, whatever the code; EPC is the instruction, or the
branch before its delay slot. -/
def Obligations.SyscallAndBreakTrap : Prop :=
  ∀ (s : State) (code : Nat), ∃ t u : State,
    exec (.syscall code) s = .next t ∧ exec (.brk code) s = .next u ∧ t = enter .syscall s ∧ u = enter .breakpoint s ∧
    t.cp0.cause.extractLsb' 2 5 = 8#5 ∧ u.cp0.cause.extractLsb' 2 5 = 9#5 ∧
    ∀ x ∈ [t, u],
      (s.cp0.status.getLsbD 1 = false →
        x.cp0.epc = (if s.inDelaySlot then s.pc - 4 else s.pc) ∧ x.cp0.cause.getLsbD 31 = s.inDelaySlot) ∧
      (s.cp0.status.getLsbD 1 = true →
        x.cp0.epc = s.cp0.epc ∧ x.cp0.cause.getLsbD 31 = s.cp0.cause.getLsbD 31) ∧
      x.cp0.status = s.cp0.status ||| 0x00000002 ∧
      x.pc = (if s.cp0.status.getLsbD 22 = true then 0xBFC00380#32 else 0x80000180#32)

/-- The port raise_exception (R160, R370, R371, U23): the codes it takes, each entered as its exception with the address or the
coprocessor number it is given (R376 to R378); the reserved ones are refused. That code 0 is taken, as an interrupt and
with no test of its condition, is the model's inference (log 21). -/
def Obligations.RaiseExceptionTakesArchitectedCodes : Prop :=
  ∀ (s : State) (code : BitVec 5) (va : Word) (cop : BitVec 2),
    (code = 1 ∨ code = 14 ∨ 16 ≤ code.toNat → raiseException code va cop s = .error (.reservedExcCode code)) ∧
    (¬(code = 1 ∨ code = 14 ∨ 16 ≤ code.toNat) → ∃ e : Exc,
      raiseException code va cop s = .ok (enter e s) ∧ causeExcCode (enter e s).cp0.cause = code ∧
      (code = 0 ↔ e = .interrupt) ∧ (code = 2 ↔ e = .tlbRefill .read va) ∧ (code = 3 ↔ e = .tlbRefill .write va) ∧
      (code = 4 ↔ e = .addressError .read va) ∧ (code = 5 ↔ e = .addressError .write va) ∧
      (code = 11 ↔ e = .copUnusable cop) ∧
      (code = 2 ∨ code = 3 ∨ code = 4 ∨ code = 5 → (enter e s).cp0.badVAddr = va) ∧
      (code = 11 → causeCe (enter e s).cp0.cause = cop))

/-! ## Event queue and timer (spec/43_event_queue.md, spec/60_exceptions.md) -/

/-- R311, R312: schedule puts the node after every node not later than it, and a full pool is a reported error that leaves
the queue. -/
def Obligations.ScheduleInsertsInDueOrder : Prop :=
  ∀ (s : State) (type : EventType) (delta : Nat), Queue.wf s.queue →
    (s.queue.length < 16 →
      (schedule type delta s).2 = .ok ∧ Queue.wf (schedule type delta s).1.queue ∧
      (schedule type delta s).1.queue = (s.queue.filter fun n => n.due ≤ s.time + delta) ++
        ⟨type, s.time + delta⟩ :: (s.queue.filter fun n => s.time + delta < n.due) ∧
      (schedule type delta s).1.faults = s.faults) ∧
    (s.queue.length = 16 →
      (schedule type delta s).2 = .queueFull ∧ (schedule type delta s).1.queue = s.queue ∧
      (schedule type delta s).1.faults = { s.faults with queueFull := true })

/-- R313, R314: pop_due takes exactly the due nodes, in queue order; cancel takes exactly the nodes of its type and keeps the
order of the rest. Both keep the queue's invariant (R317). -/
def Obligations.PopAndCancelRemoveExactly : Prop :=
  ∀ (s : State) (now : Nat) (type : EventType), Queue.wf s.queue →
    (popDue now s).2 = (s.queue.filter fun n => n.due ≤ now) ∧
    (popDue now s).1.queue = (s.queue.filter fun n => now < n.due) ∧ Queue.wf (popDue now s).1.queue ∧
    (cancel type s).queue = (s.queue.filter fun n => n.type ≠ type) ∧ Queue.wf (cancel type s).queue

/-- R392: the delta is the least positive number of ticks after which Count equals Compare, in 1 .. 2^32, and rescheduling
schedules COMPARE by it. -/
def Obligations.CompareDeltaIsTheNextMatch : Prop :=
  (∀ s : State, reschedCompare s = (schedule .compare (compareDelta s.cp0.compare s.cp0.count) s).1) ∧
  ∀ compare count : Word,
    compareDelta compare count = (compare.toNat + 2 * 4294967296 - count.toNat - 1) % 4294967296 + 1 ∧
    1 ≤ compareDelta compare count ∧ compareDelta compare count ≤ 4294967296 ∧
    count + BitVec.ofNat 32 (compareDelta compare count) = compare ∧
    (∀ k, 1 ≤ k → k < compareDelta compare count → count + BitVec.ofNat 32 k ≠ compare) ∧
    (compare = count → compareDelta compare count = 4294967296)

/-- R393: a due COMPARE node sets IP7 and comes back exactly 2^32 ticks after its due time; the other due nodes go to their
handlers in order (R315). IP7 then stays 1 until a Compare write. -/
def Obligations.TimerFiresEveryFullWrap : Prop :=
  (∀ s t : State, s.cp0.cause.getLsbD 15 = true → step s = .next t → t.cp0.cause.getLsbD 15 = true ∨
    ∃ (u : State) (rt : RegNum), exec (.mtc0 rt 11) u = .next t ∨ exec (.dmtc0 rt 11) u = .next t) ∧
  ∀ (s : State) (due : Nat), Queue.wf s.queue → compareNodes s.queue = [⟨.compare, due⟩] → due ≤ s.time →
    s.time < due + 4294967296 →
    (s.cp0.compare.toNat + s.time) % 4294967296 = (s.cp0.count.toNat + due) % 4294967296 →
    (dispatchEvents s).1.cp0 = { s.cp0 with cause := s.cp0.cause ||| 0x00008000 } ∧
    compareNodes (dispatchEvents s).1.queue = [⟨.compare, due + 4294967296⟩] ∧
    (dispatchEvents s).2 = (s.queue.filter fun n => n.due ≤ s.time ∧ n.type ≠ .compare) ∧
    (dispatchEvents s).1.faults = s.faults

/-- R394: samples are additive: straight-line code from the last sample to `b`, sampled at any `c` between, gives the same
Count and T. -/
def Obligations.CountSamplesAreAdditive : Prop :=
  ∀ (s : State) (b c : Word), s.lastPc.toNat % 4 = 0 → b.toNat % 4 = 0 → c.toNat % 4 = 0 →
    s.lastPc.toNat ≤ c.toNat → c.toNat ≤ b.toNat → countSample b (countSample c s) = countSample b s

/-- R315, R316, R384, R386: what a device may do. Each call it makes is the port's operation, one after the other, the engine's
"invalidate range" (R442, log 15) among them; one that names COMPARE (U25) or a type outside `EVENT_TYPES` is refused, by the
model's names (log 13). Its calls never touch the COMPARE node, and of Cause they change only the external
lines IP6..IP2. set_ip writes one line, and is a no-op for a line outside 2..6.
The handlers of the dispatched nodes run in order (R315, R386), one entry of `handlerCalls` for each node as long as there
are any: that input is the model's (log 8). -/
def Obligations.DeviceCallsLeaveTheTimer : Prop :=
  ∀ (calls : List DeviceCall) (s : State),
    (∀ t, applyCalls calls s = .ok t →
      compareNodes t.queue = compareNodes s.queue ∧ t.cp0 = { s.cp0 with cause := t.cp0.cause } ∧
      t.cp0.cause &&& 0xFFFF83FF = s.cp0.cause &&& 0xFFFF83FF ∧ t.time = s.time ∧
      (∀ d, DeviceCall.schedule .compare d ∉ calls) ∧ DeviceCall.cancel .compare ∉ calls) ∧
    (∀ (k : Nat) (b : Bool),
      (2 ≤ k ∧ k ≤ 6 → ∃ cause : Word, setIp k b s = { s with cp0 := { s.cp0 with cause := cause } } ∧
        ∀ j, cause.getLsbD j = if j = 8 + k then b else s.cp0.cause.getLsbD j) ∧
      (¬(2 ≤ k ∧ k ≤ 6) → setIp k b s = s)) ∧
    applyCalls [] s = .ok s ∧
    (∀ (k : Nat) (b : Bool), applyCalls (.setIp k b :: calls) s = applyCalls calls (setIp k b s)) ∧
    (∀ lo hi : Word, applyCalls (.invalidateRange lo hi :: calls) s = applyCalls calls (invalidateRange lo hi s)) ∧
    (∀ (type : EventType) (delta : Nat),
      (type = .compare → applyCalls (.schedule type delta :: calls) s = .error .compareFromOutside ∧
        applyCalls (.cancel type :: calls) s = .error .compareFromOutside) ∧
      (type ≠ .compare → eventTypeKnown s.params type = true →
        applyCalls (.schedule type delta :: calls) s = applyCalls calls (schedule type delta s).1 ∧
        applyCalls (.cancel type :: calls) s = applyCalls calls (cancel type s)) ∧
      (eventTypeKnown s.params type = false →
        applyCalls (.schedule type delta :: calls) s = .error (.unknownEventType type) ∧
        applyCalls (.cancel type :: calls) s = .error (.unknownEventType type)) ∧
      (eventTypeKnown s.params type = true ↔
        type = .compare ∨ type = .vi ∨ type = .si ∨ ∃ n, type = .device n ∧ n < s.params.deviceEventTypes)) ∧
    (∀ nodes : List Node, runHandlers nodes s =
      applyCalls (s.handlerCalls.take nodes.length).flatten
        { s with handlerCalls := s.handlerCalls.drop nodes.length })

/-! ## FPU (spec/42_cp1_aliasing.md) -/

/-- R264: the two views of the bank; a 32-bit write keeps the other half, and no other slot changes. For an odd register of the
64-bit view with FR = 0 the result is the one R264 states (U3; log 17). -/
def Obligations.ViewsOfTheFpuBank : Prop :=
  ∀ (s : State) (i : RegNum) (v : Word) (w : Dword),
    (s.cp0.status.getLsbD 26 = true →
      s.readS i = s.fpr[i.toNat].extractLsb' 0 32 ∧ s.readD i = s.fpr[i.toNat] ∧
      (s.writeS i v).fpr = s.fpr.set i.toNat (s.fpr[i.toNat].extractLsb' 32 32 ++ v) ∧
      (s.writeD i w).fpr = s.fpr.set i.toNat w) ∧
    (s.cp0.status.getLsbD 26 = false →
      s.readS i = s.fpr[i.toNat / 2].extractLsb' (32 * (i.toNat % 2)) 32 ∧ s.readD i = s.fpr[i.toNat / 2] ∧
      (s.writeS i v).fpr = s.fpr.set (i.toNat / 2)
        (if i.toNat % 2 = 1 then v ++ s.fpr[i.toNat / 2].extractLsb' 0 32
          else s.fpr[i.toNat / 2].extractLsb' 32 32 ++ v) ∧
      (s.writeD i w).fpr = s.fpr.set (i.toNat / 2) w)

/-- R266, R267: where pack and unpack put each half, and that every logical 32-bit value survives. -/
def Obligations.ReshuffleMovesEachHalf : Prop :=
  ∀ (f : Vector Dword 32) (i : Fin 32),
    ((packSlots f)[i.val / 2]).extractLsb' (32 * (i.val % 2)) 32 = f[i].extractLsb' 0 32 ∧
    ((packSlots f)[16 + i.val / 2]).extractLsb' (32 * (i.val % 2)) 32 = f[i].extractLsb' 32 32 ∧
    (unpackSlots f)[i] =
      f[16 + i.val / 2].extractLsb' (32 * (i.val % 2)) 32 ++ f[i.val / 2].extractLsb' (32 * (i.val % 2)) 32 ∧
    ∀ s : State, s.fpr = f → ∀ r : RegNum,
      (s.fr = true → ∀ t : State, t.fr = false → t.fpr = packSlots f → t.readS r = s.readS r) ∧
      (s.fr = false → ∀ t : State, t.fr = true → t.fpr = unpackSlots f → t.readS r = s.readS r)

/-- R268: the two reshuffles are inverse, bit for bit. -/
def Obligations.ReshufflesAreInverse : Prop :=
  ∀ f : Vector Dword 32, unpackSlots (packSlots f) = f ∧ packSlots (unpackSlots f) = f

/-- The COP1 register moves (R270 to R275): coprocessor unusable when CU1 = 0, and their whole next states when CU1 = 1. -/
def Obligations.Cop1MovesComplete : Prop :=
  (∀ (s : State) (rt fs : RegNum), s.cp0.status.getLsbD 29 = false →
    ∀ i ∈ [Instr.mfc1 rt fs, .mtc1 rt fs, .dmfc1 rt fs, .dmtc1 rt fs, .cfc1 rt fs, .ctc1 rt fs],
      exec i s = .next (enter (.copUnusable 1) s)) ∧
  ∀ (s : State) (rt fs : RegNum), s.cp0.status.getLsbD 29 = true →
    exec (.mfc1 rt fs) s = .next (s.writeX rt ((s.readS fs).signExtend 64)).advance ∧
    exec (.mtc1 rt fs) s = .next (s.writeS fs ((s.readX rt).extractLsb' 0 32)).advance ∧
    exec (.dmfc1 rt fs) s = .next (s.writeX rt (s.readD fs)).advance ∧
    exec (.dmtc1 rt fs) s = .next (s.writeD fs (s.readX rt)).advance ∧
    exec (.cfc1 rt 0) s = .next (s.writeX rt (s.params.fcr0.signExtend 64)).advance ∧
    exec (.cfc1 rt 31) s = .next (s.writeX rt (s.fcr31.signExtend 64)).advance ∧
    (fs ≠ 0 → fs ≠ 31 → exec (.cfc1 rt fs) s = .next s.advance) ∧
    exec (.ctc1 rt 31) s = .next ({ s with fcr31 := (s.readX rt).extractLsb' 0 32 &&& 0x0183FFFF } : State).advance ∧
    (fs ≠ 31 → exec (.ctc1 rt fs) s = .next s.advance)

/-- The frame of what writes the FPU: MTC1, DMTC1, CTC1, LWC1, LDC1 outside device windows (R260, R271, R273, R275, R280, R281).
Only the addressed slot or FCR31 and the pc change. -/
def Obligations.FrameOfFpuWrites : Prop :=
  ∀ (s t : State) (rt r : RegNum) (offset : Int) (i : Instr), s.cp0.status.getLsbD 29 = true →
    i = .mtc1 r rt ∨ i = .dmtc1 r rt ∨ i = .ctc1 r rt ∨
      (∃ pa, translateAddress (s.effectiveAddress offset r) .read s = .hit pa ∧
        ((i = .lwc1 rt offset r ∧ wordAligned (s.effectiveAddress offset r) = true ∧ inDeviceWindow s.params pa 4 = false) ∨
          (i = .ldc1 rt offset r ∧ dwordAligned (s.effectiveAddress offset r) = true ∧
            inDeviceWindow s.params pa 8 = false))) →
    exec i s = .next t →
    sameGprs s t ∧ sameTlb s t ∧ sameMemory s t ∧ sameHeldCode s t ∧ sameQueueAndStack s t ∧ sameCp0ButCount s t ∧
    sameRest s t ∧ (s.inDelaySlot = false → sameTime s t) ∧ (i = .ctc1 r rt → t.fpr = s.fpr) ∧ (i ≠ .ctc1 r rt → t.fcr31 = s.fcr31) ∧
    ∀ k : Fin 32, k.val ≠ (if s.fr then rt.toNat else rt.toNat / 2) → t.fpr[k] = s.fpr[k]

/-- R280, R281, R127: LWC1 and LDC1 complete at an aligned address that translates to plain memory. -/
def Obligations.LoadsComplete : Prop :=
  ∀ (s : State) (ft base : RegNum) (offset : Int) (pa : Word), s.cp0.status.getLsbD 29 = true →
    let va : Word := (s.readX base + BitVec.ofInt 64 offset).extractLsb' 0 32
    translateAddress va .read s = .hit pa →
    (va.toNat % 4 = 0 → inDeviceWindow s.params pa 4 = false →
      exec (.lwc1 ft offset base) s = .next (s.writeS ft (Memory.readWord s.mem pa)).advance) ∧
    (va.toNat % 8 = 0 → inDeviceWindow s.params pa 8 = false →
      exec (.ldc1 ft offset base) s = .next (s.writeD ft (Memory.readDword s.mem pa)).advance)

/-- R282, R283, R127: SWC1 and SDC1 complete at an aligned address that translates to plain memory: exactly the stored bytes
at the translated address change, and besides memory only the pc. Aligned is as R117 and the pseudocode say; that the
example of R283, which calls 0x00001500 misaligned, is not followed is the model's choice (log 27). -/
def Obligations.StoresCompleteAndKeepOtherBytes : Prop :=
  ∀ (s : State) (ft base : RegNum) (offset : Int) (pa : Word), s.cp0.status.getLsbD 29 = true →
    let va : Word := (s.readX base + BitVec.ofInt 64 offset).extractLsb' 0 32
    translateAddress va .write s = .hit pa →
    (va.toNat % 4 = 0 → inDeviceWindow s.params pa 4 = false → ∃ t, exec (.swc1 ft offset base) s = .next t ∧
      Memory.readWord t.mem pa = s.readS ft ∧
      (∀ c : Word, 4 ≤ (c - pa).toNat → Memory.readByte t.mem c = Memory.readByte s.mem c) ∧
      t = { s.advance with mem := t.mem }) ∧
    (va.toNat % 8 = 0 → inDeviceWindow s.params pa 8 = false → ∃ t, exec (.sdc1 ft offset base) s = .next t ∧
      Memory.readDword t.mem pa = s.readD ft ∧
      (∀ c : Word, 8 ≤ (c - pa).toNat → Memory.readByte t.mem c = Memory.readByte s.mem c) ∧
      t = { s.advance with mem := t.mem })

/-- R380, R117: the checks of a load or store in order, each with its exception: usability (R262), alignment, then what translate
raises (segment rights, then the tables). No memory access takes place. -/
def Obligations.LoadStoreChecksInOrder : Prop :=
  ∀ (s : State) (ft base : RegNum) (offset : Int),
    let va : Word := (s.readX base + BitVec.ofInt 64 offset).extractLsb' 0 32
    (s.cp0.status.getLsbD 29 = false → ∀ i ∈ [Instr.lwc1 ft offset base, .ldc1 ft offset base, .swc1 ft offset base,
        .sdc1 ft offset base], exec i s = .next (enter (.copUnusable 1) s)) ∧
    (s.cp0.status.getLsbD 29 = true →
      (va.toNat % 4 ≠ 0 →
        exec (.lwc1 ft offset base) s = .next (enter (.addressError .read va) s) ∧
        exec (.swc1 ft offset base) s = .next (enter (.addressError .write va) s)) ∧
      (va.toNat % 8 ≠ 0 →
        exec (.ldc1 ft offset base) s = .next (enter (.addressError .read va) s) ∧
        exec (.sdc1 ft offset base) s = .next (enter (.addressError .write va) s)) ∧
      (∀ e, translateAddress va .read s = .miss e →
        (va.toNat % 4 = 0 → exec (.lwc1 ft offset base) s = .next (enter e s)) ∧
        (va.toNat % 8 = 0 → exec (.ldc1 ft offset base) s = .next (enter e s))) ∧
      (∀ e, translateAddress va .write s = .miss e →
        (va.toNat % 4 = 0 → exec (.swc1 ft offset base) s = .next (enter e s)) ∧
        (va.toNat % 8 = 0 → exec (.sdc1 ft offset base) s = .next (enter e s))))

/-- A load from or a store to a device window (R101): it takes the next supplied reply and its side effects, and stops by name
where none is supplied. The windows and replies are the model's inputs (log 7). -/
def Obligations.DeviceWindowAccessUsesReply : Prop :=
  ∀ (s : State) (ft base : RegNum) (offset : Int) (pa : Word), s.cp0.status.getLsbD 29 = true →
    let va : Word := (s.readX base + BitVec.ofInt 64 offset).extractLsb' 0 32
    let wordAccess : Prop := va.toNat % 4 = 0 ∧ inDeviceWindow s.params pa 4 = true
    let dwordAccess : Prop := va.toNat % 8 = 0 ∧ inDeviceWindow s.params pa 8 = true
    (s.deviceReplies = [] →
      (translateAddress va .read s = .hit pa →
        (wordAccess → exec (.lwc1 ft offset base) s = .refused (.deviceReplyMissing pa)) ∧
        (dwordAccess → exec (.ldc1 ft offset base) s = .refused (.deviceReplyMissing pa))) ∧
      (translateAddress va .write s = .hit pa →
        (wordAccess → exec (.swc1 ft offset base) s = .refused (.deviceReplyMissing pa)) ∧
        (dwordAccess → exec (.sdc1 ft offset base) s = .refused (.deviceReplyMissing pa)))) ∧
    (∀ r rest t, s.deviceReplies = r :: rest →
      applyCalls r.calls { s with mem := Memory.writeBytes s.mem r.dma, deviceReplies := rest } = .ok t →
      (translateAddress va .read s = .hit pa →
        (wordAccess → exec (.lwc1 ft offset base) s = .next (t.writeS ft (r.value.extractLsb' 0 32)).advance) ∧
        (dwordAccess → exec (.ldc1 ft offset base) s = .next (t.writeD ft r.value).advance)) ∧
      (translateAddress va .write s = .hit pa →
        (wordAccess → exec (.swc1 ft offset base) s = .next t.advance) ∧
        (dwordAccess → exec (.sdc1 ft offset base) s = .next t.advance)))

/-! ## Host interface (spec/60_exceptions.md, spec/41_tlb.md) -/

/-- R412, R319: an image read from `s` and restored into any state `u` at a checkpoint: what R412 lists is that of `s`, each
queue node as far from `u`'s T as it was from that of `s` (an overdue one now), last_pc at the pc, T kept, the tables taken
from the image or re-derived by Map of entries 0 to 31 over empty ones (R228). That what R412 does not list stays as `u` has
it is the model's choice (log 16). Restored into the state it was read from, with no node overdue, it changes nothing. A
read or a write away from a checkpoint (U26) and an invalid queue (U24) are refused. -/
def Obligations.SaveThenRestoreIsIdentity : Prop :=
  (∀ (s u : State) (img : SaveImage), Queue.wf s.queue → saveRead s = .ok img → u.atCheckpoint = true →
    let t : State :=
      { u with
        gpr := s.gpr, hi := s.hi, lo := s.lo, pc := s.pc, llBit := s.llBit, cp0 := s.cp0, tlb := s.tlb, fpr := s.fpr
        fcr31 := s.fcr31, queue := s.queue.map fun n => ⟨n.type, u.time + (n.due - s.time)⟩, xs := s.xs, lastPc := s.pc }
    saveWrite img u = .ok { t with lutR := s.lutR, lutW := s.lutW } ∧
    saveWrite { img with luts := none } u = .ok (rederiveLuts t)) ∧
  (∀ (s : State) (img : SaveImage), Queue.wf s.queue → (∀ n ∈ s.queue, s.time ≤ n.due) → saveRead s = .ok img →
    saveWrite img s = .ok s) ∧
  (∀ s : State, rederiveLuts s =
    (List.finRange 32).foldl (fun t i => mapEntry s.tlb[i] t) { s with lutR := [], lutW := [] }) ∧
  ∀ (s : State) (img : SaveImage),
    (s.atCheckpoint = true ↔ s.lastPc = s.pc ∧ s.inDelaySlot = false) ∧
    (s.atCheckpoint = true → ∃ i, saveRead s = .ok i) ∧
    (s.atCheckpoint = false → saveRead s = .error .notAtCheckpoint ∧ saveWrite img s = .error .notAtCheckpoint) ∧
    (s.atCheckpoint = true →
      (16 < img.queue.length ∨ ¬(img.queue.map Prod.snd).Pairwise (· ≤ ·)) → saveWrite img s = .error .invalidSaveImage)
end

