-- ==== Sys2Proof/Laws/Memory.lean ====
section
/-! SUPPORT. Sparse tables and memory: read after write, the canonical form is kept, and equal readings are equal data. -/

namespace Sys2Proof.Machine

variable {α : Type}

/-! Tables -/

@[simp] theorem Table.get_nil (k : Nat) : Table.get k ([] : List (Nat × α)) = none := rfl

theorem Table.get_cons (k j : Nat) (v : α) (m : List (Nat × α)) :
    Table.get k ((j, v) :: m) = if k = j then some v else Table.get k m := rfl

theorem Table.get_put (k c : Nat) (v : α) (m : List (Nat × α)) :
    Table.get c (Table.put k v m) = if c = k then some v else Table.get c m := by
  induction m with
  | nil => rfl
  | cons e m ih =>
    obtain ⟨j, w⟩ := e
    simp only [Table.put]
    split
    · simp only [Table.get_cons]
    · split
      · subst_vars
        simp only [Table.get_cons]
        split <;> rfl
      · simp only [Table.get_cons, ih]
        split
        · subst_vars
          rw [if_neg (by omega)]
        · rfl

theorem Table.get_erase (k c : Nat) (m : List (Nat × α)) :
    Table.get c (Table.erase k m) = if c = k then none else Table.get c m := by
  induction m with
  | nil => simp [Table.erase]
  | cons e m ih =>
    obtain ⟨j, w⟩ := e
    simp only [Table.erase, List.filter_cons] at ih ⊢
    by_cases hj : j = k
    · subst hj
      simp only [ne_eq, not_true_eq_false, decide_false, Bool.false_eq_true, if_false, ih, Table.get_cons]
      split <;> rfl
    · simp only [ne_eq, hj, not_false_eq_true, decide_true, if_true, Table.get_cons, ih]
      split
      · subst_vars
        rw [if_neg hj]
      · rfl

theorem Table.mem_put {k : Nat} {v : α} {m : List (Nat × α)} {e : Nat × α} (h : e ∈ Table.put k v m) :
    e = (k, v) ∨ e ∈ m := by
  induction m with
  | nil => simpa [Table.put] using h
  | cons d m ih =>
    obtain ⟨j, w⟩ := d
    simp only [Table.put] at h
    split at h
    · simpa using h
    · split at h
      · rcases List.mem_cons.1 h with h | h
        · exact .inl h
        · exact .inr (List.mem_cons_of_mem _ h)
      · rcases List.mem_cons.1 h with h | h
        · exact .inr (h ▸ List.mem_cons_self)
        · exact (ih h).imp_right (List.mem_cons_of_mem _)

theorem Table.mem_erase {k : Nat} {m : List (Nat × α)} {e : Nat × α} :
    e ∈ Table.erase k m ↔ e ∈ m ∧ e.1 ≠ k := by simp [Table.erase]

theorem Table.sorted_cons {e : Nat × α} {m : List (Nat × α)} :
    Table.Sorted (e :: m) ↔ (∀ d ∈ m, e.1 < d.1) ∧ Table.Sorted m := by
  simp [Table.Sorted, List.pairwise_cons]

theorem Table.sorted_put (k : Nat) (v : α) {m : List (Nat × α)} (h : Table.Sorted m) :
    Table.Sorted (Table.put k v m) := by
  induction m with
  | nil => simp [Table.put, Table.Sorted]
  | cons e m ih =>
    obtain ⟨j, w⟩ := e
    have hm := Table.sorted_cons.1 h
    simp only [Table.put]
    split
    · refine Table.sorted_cons.2 ⟨fun d hd => ?_, h⟩
      rcases List.mem_cons.1 hd with rfl | hd
      · assumption
      · exact Nat.lt_trans ‹k < j› (hm.1 d hd)
    · split
      · subst_vars
        exact Table.sorted_cons.2 ⟨hm.1, hm.2⟩
      · refine Table.sorted_cons.2 ⟨fun d hd => ?_, ih hm.2⟩
        rcases Table.mem_put hd with rfl | hd
        · show j < k
          omega
        · exact hm.1 d hd

theorem Table.sorted_erase (k : Nat) {m : List (Nat × α)} (h : Table.Sorted m) : Table.Sorted (Table.erase k m) :=
  List.Pairwise.sublist (List.filter_sublist.map _) h

theorem Table.get_eq_none_of_lt {k : Nat} {m : List (Nat × α)} (h : ∀ d ∈ m, k < d.1) : Table.get k m = none := by
  induction m with
  | nil => rfl
  | cons e m ih =>
    obtain ⟨j, w⟩ := e
    have hj : k < j := h (j, w) List.mem_cons_self
    rw [Table.get_cons, if_neg (by omega)]
    exact ih fun d hd => h d (List.mem_cons_of_mem _ hd)

/-- Two tables in canonical form that read the same are the same data. -/
theorem Table.ext_of_sorted {m n : List (Nat × α)} (hm : Table.Sorted m) (hn : Table.Sorted n)
    (h : ∀ k, Table.get k m = Table.get k n) : m = n := by
  induction m generalizing n with
  | nil =>
    cases n with
    | nil => rfl
    | cons e n =>
      obtain ⟨i, w⟩ := e
      simpa [Table.get_cons] using h i
  | cons e m ih =>
    obtain ⟨j, v⟩ := e
    have hm' := Table.sorted_cons.1 hm
    cases n with
    | nil => simpa [Table.get_cons] using h j
    | cons d n =>
      obtain ⟨i, w⟩ := d
      have hn' := Table.sorted_cons.1 hn
      have hij : j = i := by
        rcases Nat.lt_trichotomy j i with hlt | heq | hgt
        · have := h j
          rw [Table.get_cons, if_pos rfl, Table.get_cons, if_neg (by omega),
            Table.get_eq_none_of_lt fun d hd => Nat.lt_trans hlt (hn'.1 d hd)] at this
          cases this
        · exact heq
        · have := h i
          rw [Table.get_cons, if_neg (by omega), Table.get_cons, if_pos rfl,
            Table.get_eq_none_of_lt fun d hd => Nat.lt_trans hgt (hm'.1 d hd)] at this
          cases this
      subst hij
      have hv : v = w := by simpa [Table.get_cons] using h j
      subst hv
      congr 1
      refine ih hm'.2 hn'.2 fun k => ?_
      by_cases hk : k = j
      · subst hk
        rw [Table.get_eq_none_of_lt hm'.1, Table.get_eq_none_of_lt hn'.1]
      · simpa [Table.get_cons, hk] using h k

theorem Table.get_of_mem {m : List (Nat × α)} (h : Table.Sorted m) {e : Nat × α} (he : e ∈ m) :
    Table.get e.1 m = some e.2 := by
  induction m with
  | nil => cases he
  | cons d m ih =>
    obtain ⟨j, w⟩ := d
    have hm := Table.sorted_cons.1 h
    rcases List.mem_cons.1 he with rfl | he
    · exact if_pos rfl
    · have hlt : j < e.1 := hm.1 e he
      rw [Table.get_cons, if_neg (by omega)]
      exact ih hm.2 he

theorem Table.mem_of_get {m : List (Nat × α)} {k : Nat} {v : α} (h : Table.get k m = some v) : (k, v) ∈ m := by
  induction m with
  | nil => cases h
  | cons d m ih =>
    obtain ⟨j, w⟩ := d
    rw [Table.get_cons] at h
    split at h
    · cases h
      subst_vars
      exact List.mem_cons_self
    · exact List.mem_cons_of_mem _ (ih h)

/-! Memory -/

/-- A read after a write to the same place gives the value written, and a write leaves every other place alone. -/
theorem Memory.readByte_writeByte (m : List Host.Cell) (a c : Word) (b : Byte) :
    Memory.readByte (Memory.writeByte m a b) c = if c = a then b else Memory.readByte m c := by
  unfold Memory.writeByte Memory.readByte
  split
  · rw [Table.get_erase]
    by_cases h : c = a
    · subst_vars
      simp
    · have : c.toNat ≠ a.toNat := fun e => h (BitVec.eq_of_toNat_eq e)
      simp [h, this]
  · rw [Table.get_put]
    by_cases h : c = a
    · simp [h]
    · have : c.toNat ≠ a.toNat := fun e => h (BitVec.eq_of_toNat_eq e)
      simp [h, this]

theorem Memory.wf_nil : Memory.wf [] := by decide

theorem Memory.wf_writeByte {m : List Host.Cell} (h : Memory.wf m) (a : Word) (b : Byte) :
    Memory.wf (Memory.writeByte m a b) := by
  unfold Memory.writeByte
  split
  · exact ⟨Table.sorted_erase _ h.1, fun c hc => h.2 c (Table.mem_erase.1 hc).1⟩
  · refine ⟨Table.sorted_put _ _ h.1, fun c hc => ?_⟩
    rcases Table.mem_put hc with rfl | hc
    · exact ⟨a.isLt, ‹_›⟩
    · exact h.2 c hc

theorem Memory.wf_writeWord {m : List Host.Cell} (h : Memory.wf m) (a v : Word) :
    Memory.wf (Memory.writeWord m a v) :=
  wf_writeByte (wf_writeByte (wf_writeByte (wf_writeByte h _ _) _ _) _ _) _ _

theorem Memory.wf_writeDword {m : List Host.Cell} (h : Memory.wf m) (a : Word) (v : Dword) :
    Memory.wf (Memory.writeDword m a v) := wf_writeWord (wf_writeWord h _ _) _ _

theorem Memory.wf_writeBytes {m : List Host.Cell} (h : Memory.wf m) (l : List (Word × Byte)) :
    Memory.wf (Memory.writeBytes m l) := by
  induction l generalizing m with
  | nil => exact h
  | cons e l ih => exact ih (wf_writeByte h _ _)

/-- A byte away from a stored word reads as before. -/
theorem Memory.readByte_writeWord_of_ne (m : List Host.Cell) (a v c : Word)
    (h : c ≠ a ∧ c ≠ a + 1 ∧ c ≠ a + 2 ∧ c ≠ a + 3) :
    Memory.readByte (Memory.writeWord m a v) c = Memory.readByte m c := by
  obtain ⟨h0, h1, h2, h3⟩ := h
  simp only [Memory.writeWord, Memory.readByte_writeByte, if_neg h0, if_neg h1, if_neg h2, if_neg h3]

/-- A listed byte reads as listed. -/
theorem Memory.get_eq_of_readByte_eq {m n : List Host.Cell} (hm : Memory.wf m) (hn : Memory.wf n)
    (h : ∀ a, Memory.readByte m a = Memory.readByte n a) (k : Nat) : Table.get k m = Table.get k n := by
  have key : ∀ {m n : List Host.Cell}, Memory.wf m → Memory.wf n →
      (∀ a, Memory.readByte m a = Memory.readByte n a) → ∀ v, Table.get k m = some v → Table.get k n = some v := by
    intro m n hm hn h v hv
    have hmem := hm.2 _ (Table.mem_of_get hv)
    have hk : (BitVec.ofNat 32 k).toNat = k := Nat.mod_eq_of_lt hmem.1
    have := h (BitVec.ofNat 32 k)
    unfold Memory.readByte at this
    rw [hk, hv] at this
    cases hn' : Table.get k n with
    | none => rw [hn'] at this; exact absurd this hmem.2
    | some w => rw [hn'] at this; exact congrArg some this.symm
  cases hv : Table.get k m with
  | some v => exact (key hm hn h v hv).symm
  | none =>
    cases hw : Table.get k n with
    | none => rfl
    | some w => rw [key hn hm (fun a => (h a).symm) w hw] at hv; cases hv

/-- Equal memories are equal data. -/
theorem Memory.ext_of_wf {m n : List Host.Cell} (hm : Memory.wf m) (hn : Memory.wf n)
    (h : ∀ a, Memory.readByte m a = Memory.readByte n a) : m = n :=
  Table.ext_of_sorted hm.1 hn.1 (Memory.get_eq_of_readByte_eq hm hn h)

end Sys2Proof.Machine
end

