-- ==== Sys2Proof/Laws/State.lean ====
section
/-! SUPPORT. One lemma per field per update of the state: what each named operation leaves as it was, and what it writes. -/

namespace Sys2Proof.Machine

/-! `writeX` -/

@[simp] theorem writeX_hi (s : State) (i : RegNum) (v : Dword) : (s.writeX i v).hi = s.hi := rfl
@[simp] theorem writeX_lo (s : State) (i : RegNum) (v : Dword) : (s.writeX i v).lo = s.lo := rfl
@[simp] theorem writeX_pc (s : State) (i : RegNum) (v : Dword) : (s.writeX i v).pc = s.pc := rfl
@[simp] theorem writeX_inDelaySlot (s : State) (i : RegNum) (v : Dword) : (s.writeX i v).inDelaySlot = s.inDelaySlot := rfl
@[simp] theorem writeX_branchTarget (s : State) (i : RegNum) (v : Dword) : (s.writeX i v).branchTarget = s.branchTarget := rfl
@[simp] theorem writeX_llBit (s : State) (i : RegNum) (v : Dword) : (s.writeX i v).llBit = s.llBit := rfl
@[simp] theorem writeX_stop (s : State) (i : RegNum) (v : Dword) : (s.writeX i v).stop = s.stop := rfl
@[simp] theorem writeX_time (s : State) (i : RegNum) (v : Dword) : (s.writeX i v).time = s.time := rfl
@[simp] theorem writeX_lastPc (s : State) (i : RegNum) (v : Dword) : (s.writeX i v).lastPc = s.lastPc := rfl
@[simp] theorem writeX_cp0 (s : State) (i : RegNum) (v : Dword) : (s.writeX i v).cp0 = s.cp0 := rfl
@[simp] theorem writeX_tlb (s : State) (i : RegNum) (v : Dword) : (s.writeX i v).tlb = s.tlb := rfl
@[simp] theorem writeX_lutR (s : State) (i : RegNum) (v : Dword) : (s.writeX i v).lutR = s.lutR := rfl
@[simp] theorem writeX_lutW (s : State) (i : RegNum) (v : Dword) : (s.writeX i v).lutW = s.lutW := rfl
@[simp] theorem writeX_queue (s : State) (i : RegNum) (v : Dword) : (s.writeX i v).queue = s.queue := rfl
@[simp] theorem writeX_xs (s : State) (i : RegNum) (v : Dword) : (s.writeX i v).xs = s.xs := rfl
@[simp] theorem writeX_faults (s : State) (i : RegNum) (v : Dword) : (s.writeX i v).faults = s.faults := rfl
@[simp] theorem writeX_fpr (s : State) (i : RegNum) (v : Dword) : (s.writeX i v).fpr = s.fpr := rfl
@[simp] theorem writeX_fcr31 (s : State) (i : RegNum) (v : Dword) : (s.writeX i v).fcr31 = s.fcr31 := rfl
@[simp] theorem writeX_mem (s : State) (i : RegNum) (v : Dword) : (s.writeX i v).mem = s.mem := rfl
@[simp] theorem writeX_params (s : State) (i : RegNum) (v : Dword) : (s.writeX i v).params = s.params := rfl
@[simp] theorem writeX_handlerCalls (s : State) (i : RegNum) (v : Dword) : (s.writeX i v).handlerCalls = s.handlerCalls := rfl
@[simp] theorem writeX_deviceReplies (s : State) (i : RegNum) (v : Dword) : (s.writeX i v).deviceReplies = s.deviceReplies := rfl
@[simp] theorem writeX_heldCode (s : State) (i : RegNum) (v : Dword) : (s.writeX i v).heldCode = s.heldCode := rfl
@[simp] theorem writeX_draws (s : State) (i : RegNum) (v : Dword) : (s.writeX i v).draws = s.draws := rfl

/-! `writeS` -/

@[simp] theorem writeS_gpr (s : State) (i : RegNum) (v : Word) : (s.writeS i v).gpr = s.gpr := rfl
@[simp] theorem writeS_hi (s : State) (i : RegNum) (v : Word) : (s.writeS i v).hi = s.hi := rfl
@[simp] theorem writeS_lo (s : State) (i : RegNum) (v : Word) : (s.writeS i v).lo = s.lo := rfl
@[simp] theorem writeS_pc (s : State) (i : RegNum) (v : Word) : (s.writeS i v).pc = s.pc := rfl
@[simp] theorem writeS_inDelaySlot (s : State) (i : RegNum) (v : Word) : (s.writeS i v).inDelaySlot = s.inDelaySlot := rfl
@[simp] theorem writeS_branchTarget (s : State) (i : RegNum) (v : Word) : (s.writeS i v).branchTarget = s.branchTarget := rfl
@[simp] theorem writeS_llBit (s : State) (i : RegNum) (v : Word) : (s.writeS i v).llBit = s.llBit := rfl
@[simp] theorem writeS_stop (s : State) (i : RegNum) (v : Word) : (s.writeS i v).stop = s.stop := rfl
@[simp] theorem writeS_time (s : State) (i : RegNum) (v : Word) : (s.writeS i v).time = s.time := rfl
@[simp] theorem writeS_lastPc (s : State) (i : RegNum) (v : Word) : (s.writeS i v).lastPc = s.lastPc := rfl
@[simp] theorem writeS_cp0 (s : State) (i : RegNum) (v : Word) : (s.writeS i v).cp0 = s.cp0 := rfl
@[simp] theorem writeS_tlb (s : State) (i : RegNum) (v : Word) : (s.writeS i v).tlb = s.tlb := rfl
@[simp] theorem writeS_lutR (s : State) (i : RegNum) (v : Word) : (s.writeS i v).lutR = s.lutR := rfl
@[simp] theorem writeS_lutW (s : State) (i : RegNum) (v : Word) : (s.writeS i v).lutW = s.lutW := rfl
@[simp] theorem writeS_queue (s : State) (i : RegNum) (v : Word) : (s.writeS i v).queue = s.queue := rfl
@[simp] theorem writeS_xs (s : State) (i : RegNum) (v : Word) : (s.writeS i v).xs = s.xs := rfl
@[simp] theorem writeS_faults (s : State) (i : RegNum) (v : Word) : (s.writeS i v).faults = s.faults := rfl
@[simp] theorem writeS_fcr31 (s : State) (i : RegNum) (v : Word) : (s.writeS i v).fcr31 = s.fcr31 := rfl
@[simp] theorem writeS_mem (s : State) (i : RegNum) (v : Word) : (s.writeS i v).mem = s.mem := rfl
@[simp] theorem writeS_params (s : State) (i : RegNum) (v : Word) : (s.writeS i v).params = s.params := rfl
@[simp] theorem writeS_handlerCalls (s : State) (i : RegNum) (v : Word) : (s.writeS i v).handlerCalls = s.handlerCalls := rfl
@[simp] theorem writeS_deviceReplies (s : State) (i : RegNum) (v : Word) : (s.writeS i v).deviceReplies = s.deviceReplies := rfl
@[simp] theorem writeS_heldCode (s : State) (i : RegNum) (v : Word) : (s.writeS i v).heldCode = s.heldCode := rfl
@[simp] theorem writeS_draws (s : State) (i : RegNum) (v : Word) : (s.writeS i v).draws = s.draws := rfl

/-! `writeD` -/

@[simp] theorem writeD_gpr (s : State) (i : RegNum) (v : Dword) : (s.writeD i v).gpr = s.gpr := rfl
@[simp] theorem writeD_hi (s : State) (i : RegNum) (v : Dword) : (s.writeD i v).hi = s.hi := rfl
@[simp] theorem writeD_lo (s : State) (i : RegNum) (v : Dword) : (s.writeD i v).lo = s.lo := rfl
@[simp] theorem writeD_pc (s : State) (i : RegNum) (v : Dword) : (s.writeD i v).pc = s.pc := rfl
@[simp] theorem writeD_inDelaySlot (s : State) (i : RegNum) (v : Dword) : (s.writeD i v).inDelaySlot = s.inDelaySlot := rfl
@[simp] theorem writeD_branchTarget (s : State) (i : RegNum) (v : Dword) : (s.writeD i v).branchTarget = s.branchTarget := rfl
@[simp] theorem writeD_llBit (s : State) (i : RegNum) (v : Dword) : (s.writeD i v).llBit = s.llBit := rfl
@[simp] theorem writeD_stop (s : State) (i : RegNum) (v : Dword) : (s.writeD i v).stop = s.stop := rfl
@[simp] theorem writeD_time (s : State) (i : RegNum) (v : Dword) : (s.writeD i v).time = s.time := rfl
@[simp] theorem writeD_lastPc (s : State) (i : RegNum) (v : Dword) : (s.writeD i v).lastPc = s.lastPc := rfl
@[simp] theorem writeD_cp0 (s : State) (i : RegNum) (v : Dword) : (s.writeD i v).cp0 = s.cp0 := rfl
@[simp] theorem writeD_tlb (s : State) (i : RegNum) (v : Dword) : (s.writeD i v).tlb = s.tlb := rfl
@[simp] theorem writeD_lutR (s : State) (i : RegNum) (v : Dword) : (s.writeD i v).lutR = s.lutR := rfl
@[simp] theorem writeD_lutW (s : State) (i : RegNum) (v : Dword) : (s.writeD i v).lutW = s.lutW := rfl
@[simp] theorem writeD_queue (s : State) (i : RegNum) (v : Dword) : (s.writeD i v).queue = s.queue := rfl
@[simp] theorem writeD_xs (s : State) (i : RegNum) (v : Dword) : (s.writeD i v).xs = s.xs := rfl
@[simp] theorem writeD_faults (s : State) (i : RegNum) (v : Dword) : (s.writeD i v).faults = s.faults := rfl
@[simp] theorem writeD_fcr31 (s : State) (i : RegNum) (v : Dword) : (s.writeD i v).fcr31 = s.fcr31 := rfl
@[simp] theorem writeD_mem (s : State) (i : RegNum) (v : Dword) : (s.writeD i v).mem = s.mem := rfl
@[simp] theorem writeD_params (s : State) (i : RegNum) (v : Dword) : (s.writeD i v).params = s.params := rfl
@[simp] theorem writeD_handlerCalls (s : State) (i : RegNum) (v : Dword) : (s.writeD i v).handlerCalls = s.handlerCalls := rfl
@[simp] theorem writeD_deviceReplies (s : State) (i : RegNum) (v : Dword) : (s.writeD i v).deviceReplies = s.deviceReplies := rfl
@[simp] theorem writeD_heldCode (s : State) (i : RegNum) (v : Dword) : (s.writeD i v).heldCode = s.heldCode := rfl
@[simp] theorem writeD_draws (s : State) (i : RegNum) (v : Dword) : (s.writeD i v).draws = s.draws := rfl

/-! `faultUndefined` -/

@[simp] theorem faultUndefined_gpr (s : State) : s.faultUndefined.gpr = s.gpr := rfl
@[simp] theorem faultUndefined_hi (s : State) : s.faultUndefined.hi = s.hi := rfl
@[simp] theorem faultUndefined_lo (s : State) : s.faultUndefined.lo = s.lo := rfl
@[simp] theorem faultUndefined_pc (s : State) : s.faultUndefined.pc = s.pc := rfl
@[simp] theorem faultUndefined_inDelaySlot (s : State) : s.faultUndefined.inDelaySlot = s.inDelaySlot := rfl
@[simp] theorem faultUndefined_branchTarget (s : State) : s.faultUndefined.branchTarget = s.branchTarget := rfl
@[simp] theorem faultUndefined_llBit (s : State) : s.faultUndefined.llBit = s.llBit := rfl
@[simp] theorem faultUndefined_stop (s : State) : s.faultUndefined.stop = s.stop := rfl
@[simp] theorem faultUndefined_time (s : State) : s.faultUndefined.time = s.time := rfl
@[simp] theorem faultUndefined_lastPc (s : State) : s.faultUndefined.lastPc = s.lastPc := rfl
@[simp] theorem faultUndefined_cp0 (s : State) : s.faultUndefined.cp0 = s.cp0 := rfl
@[simp] theorem faultUndefined_tlb (s : State) : s.faultUndefined.tlb = s.tlb := rfl
@[simp] theorem faultUndefined_lutR (s : State) : s.faultUndefined.lutR = s.lutR := rfl
@[simp] theorem faultUndefined_lutW (s : State) : s.faultUndefined.lutW = s.lutW := rfl
@[simp] theorem faultUndefined_queue (s : State) : s.faultUndefined.queue = s.queue := rfl
@[simp] theorem faultUndefined_xs (s : State) : s.faultUndefined.xs = s.xs := rfl
@[simp] theorem faultUndefined_fpr (s : State) : s.faultUndefined.fpr = s.fpr := rfl
@[simp] theorem faultUndefined_fcr31 (s : State) : s.faultUndefined.fcr31 = s.fcr31 := rfl
@[simp] theorem faultUndefined_mem (s : State) : s.faultUndefined.mem = s.mem := rfl
@[simp] theorem faultUndefined_params (s : State) : s.faultUndefined.params = s.params := rfl
@[simp] theorem faultUndefined_handlerCalls (s : State) : s.faultUndefined.handlerCalls = s.handlerCalls := rfl
@[simp] theorem faultUndefined_deviceReplies (s : State) : s.faultUndefined.deviceReplies = s.deviceReplies := rfl
@[simp] theorem faultUndefined_heldCode (s : State) : s.faultUndefined.heldCode = s.heldCode := rfl
@[simp] theorem faultUndefined_draws (s : State) : s.faultUndefined.draws = s.draws := rfl

/-! `faultRefused` -/

@[simp] theorem faultRefused_gpr (s : State) : s.faultRefused.gpr = s.gpr := rfl
@[simp] theorem faultRefused_hi (s : State) : s.faultRefused.hi = s.hi := rfl
@[simp] theorem faultRefused_lo (s : State) : s.faultRefused.lo = s.lo := rfl
@[simp] theorem faultRefused_pc (s : State) : s.faultRefused.pc = s.pc := rfl
@[simp] theorem faultRefused_inDelaySlot (s : State) : s.faultRefused.inDelaySlot = s.inDelaySlot := rfl
@[simp] theorem faultRefused_branchTarget (s : State) : s.faultRefused.branchTarget = s.branchTarget := rfl
@[simp] theorem faultRefused_llBit (s : State) : s.faultRefused.llBit = s.llBit := rfl
@[simp] theorem faultRefused_stop (s : State) : s.faultRefused.stop = s.stop := rfl
@[simp] theorem faultRefused_time (s : State) : s.faultRefused.time = s.time := rfl
@[simp] theorem faultRefused_lastPc (s : State) : s.faultRefused.lastPc = s.lastPc := rfl
@[simp] theorem faultRefused_cp0 (s : State) : s.faultRefused.cp0 = s.cp0 := rfl
@[simp] theorem faultRefused_tlb (s : State) : s.faultRefused.tlb = s.tlb := rfl
@[simp] theorem faultRefused_lutR (s : State) : s.faultRefused.lutR = s.lutR := rfl
@[simp] theorem faultRefused_lutW (s : State) : s.faultRefused.lutW = s.lutW := rfl
@[simp] theorem faultRefused_queue (s : State) : s.faultRefused.queue = s.queue := rfl
@[simp] theorem faultRefused_xs (s : State) : s.faultRefused.xs = s.xs := rfl
@[simp] theorem faultRefused_fpr (s : State) : s.faultRefused.fpr = s.fpr := rfl
@[simp] theorem faultRefused_fcr31 (s : State) : s.faultRefused.fcr31 = s.fcr31 := rfl
@[simp] theorem faultRefused_mem (s : State) : s.faultRefused.mem = s.mem := rfl
@[simp] theorem faultRefused_params (s : State) : s.faultRefused.params = s.params := rfl
@[simp] theorem faultRefused_handlerCalls (s : State) : s.faultRefused.handlerCalls = s.handlerCalls := rfl
@[simp] theorem faultRefused_deviceReplies (s : State) : s.faultRefused.deviceReplies = s.deviceReplies := rfl
@[simp] theorem faultRefused_heldCode (s : State) : s.faultRefused.heldCode = s.heldCode := rfl
@[simp] theorem faultRefused_draws (s : State) : s.faultRefused.draws = s.draws := rfl

/-! `faultBoot` -/

@[simp] theorem faultBoot_gpr (s : State) : s.faultBoot.gpr = s.gpr := rfl
@[simp] theorem faultBoot_hi (s : State) : s.faultBoot.hi = s.hi := rfl
@[simp] theorem faultBoot_lo (s : State) : s.faultBoot.lo = s.lo := rfl
@[simp] theorem faultBoot_pc (s : State) : s.faultBoot.pc = s.pc := rfl
@[simp] theorem faultBoot_inDelaySlot (s : State) : s.faultBoot.inDelaySlot = s.inDelaySlot := rfl
@[simp] theorem faultBoot_branchTarget (s : State) : s.faultBoot.branchTarget = s.branchTarget := rfl
@[simp] theorem faultBoot_llBit (s : State) : s.faultBoot.llBit = s.llBit := rfl
@[simp] theorem faultBoot_stop (s : State) : s.faultBoot.stop = s.stop := rfl
@[simp] theorem faultBoot_time (s : State) : s.faultBoot.time = s.time := rfl
@[simp] theorem faultBoot_lastPc (s : State) : s.faultBoot.lastPc = s.lastPc := rfl
@[simp] theorem faultBoot_cp0 (s : State) : s.faultBoot.cp0 = s.cp0 := rfl
@[simp] theorem faultBoot_tlb (s : State) : s.faultBoot.tlb = s.tlb := rfl
@[simp] theorem faultBoot_lutR (s : State) : s.faultBoot.lutR = s.lutR := rfl
@[simp] theorem faultBoot_lutW (s : State) : s.faultBoot.lutW = s.lutW := rfl
@[simp] theorem faultBoot_queue (s : State) : s.faultBoot.queue = s.queue := rfl
@[simp] theorem faultBoot_xs (s : State) : s.faultBoot.xs = s.xs := rfl
@[simp] theorem faultBoot_fpr (s : State) : s.faultBoot.fpr = s.fpr := rfl
@[simp] theorem faultBoot_fcr31 (s : State) : s.faultBoot.fcr31 = s.fcr31 := rfl
@[simp] theorem faultBoot_mem (s : State) : s.faultBoot.mem = s.mem := rfl
@[simp] theorem faultBoot_params (s : State) : s.faultBoot.params = s.params := rfl
@[simp] theorem faultBoot_handlerCalls (s : State) : s.faultBoot.handlerCalls = s.handlerCalls := rfl
@[simp] theorem faultBoot_deviceReplies (s : State) : s.faultBoot.deviceReplies = s.deviceReplies := rfl
@[simp] theorem faultBoot_heldCode (s : State) : s.faultBoot.heldCode = s.heldCode := rfl
@[simp] theorem faultBoot_draws (s : State) : s.faultBoot.draws = s.draws := rfl

/-! `drawRandom` -/

@[simp] theorem drawRandom_gpr (s : State) : (drawRandom s).1.gpr = s.gpr := rfl
@[simp] theorem drawRandom_hi (s : State) : (drawRandom s).1.hi = s.hi := rfl
@[simp] theorem drawRandom_lo (s : State) : (drawRandom s).1.lo = s.lo := rfl
@[simp] theorem drawRandom_pc (s : State) : (drawRandom s).1.pc = s.pc := rfl
@[simp] theorem drawRandom_inDelaySlot (s : State) : (drawRandom s).1.inDelaySlot = s.inDelaySlot := rfl
@[simp] theorem drawRandom_branchTarget (s : State) : (drawRandom s).1.branchTarget = s.branchTarget := rfl
@[simp] theorem drawRandom_llBit (s : State) : (drawRandom s).1.llBit = s.llBit := rfl
@[simp] theorem drawRandom_stop (s : State) : (drawRandom s).1.stop = s.stop := rfl
@[simp] theorem drawRandom_time (s : State) : (drawRandom s).1.time = s.time := rfl
@[simp] theorem drawRandom_lastPc (s : State) : (drawRandom s).1.lastPc = s.lastPc := rfl
@[simp] theorem drawRandom_cp0 (s : State) : (drawRandom s).1.cp0 = s.cp0 := rfl
@[simp] theorem drawRandom_tlb (s : State) : (drawRandom s).1.tlb = s.tlb := rfl
@[simp] theorem drawRandom_lutR (s : State) : (drawRandom s).1.lutR = s.lutR := rfl
@[simp] theorem drawRandom_lutW (s : State) : (drawRandom s).1.lutW = s.lutW := rfl
@[simp] theorem drawRandom_queue (s : State) : (drawRandom s).1.queue = s.queue := rfl
@[simp] theorem drawRandom_xs (s : State) : (drawRandom s).1.xs = s.xs := rfl
@[simp] theorem drawRandom_faults (s : State) : (drawRandom s).1.faults = s.faults := rfl
@[simp] theorem drawRandom_fpr (s : State) : (drawRandom s).1.fpr = s.fpr := rfl
@[simp] theorem drawRandom_fcr31 (s : State) : (drawRandom s).1.fcr31 = s.fcr31 := rfl
@[simp] theorem drawRandom_mem (s : State) : (drawRandom s).1.mem = s.mem := rfl
@[simp] theorem drawRandom_params (s : State) : (drawRandom s).1.params = s.params := rfl
@[simp] theorem drawRandom_handlerCalls (s : State) : (drawRandom s).1.handlerCalls = s.handlerCalls := rfl
@[simp] theorem drawRandom_deviceReplies (s : State) : (drawRandom s).1.deviceReplies = s.deviceReplies := rfl
@[simp] theorem drawRandom_heldCode (s : State) : (drawRandom s).1.heldCode = s.heldCode := rfl

/-! `countSample` -/

@[simp] theorem countSample_gpr (p : Word) (s : State) : (countSample p s).gpr = s.gpr := rfl
@[simp] theorem countSample_hi (p : Word) (s : State) : (countSample p s).hi = s.hi := rfl
@[simp] theorem countSample_lo (p : Word) (s : State) : (countSample p s).lo = s.lo := rfl
@[simp] theorem countSample_pc (p : Word) (s : State) : (countSample p s).pc = s.pc := rfl
@[simp] theorem countSample_inDelaySlot (p : Word) (s : State) : (countSample p s).inDelaySlot = s.inDelaySlot := rfl
@[simp] theorem countSample_branchTarget (p : Word) (s : State) : (countSample p s).branchTarget = s.branchTarget := rfl
@[simp] theorem countSample_llBit (p : Word) (s : State) : (countSample p s).llBit = s.llBit := rfl
@[simp] theorem countSample_stop (p : Word) (s : State) : (countSample p s).stop = s.stop := rfl
@[simp] theorem countSample_tlb (p : Word) (s : State) : (countSample p s).tlb = s.tlb := rfl
@[simp] theorem countSample_lutR (p : Word) (s : State) : (countSample p s).lutR = s.lutR := rfl
@[simp] theorem countSample_lutW (p : Word) (s : State) : (countSample p s).lutW = s.lutW := rfl
@[simp] theorem countSample_queue (p : Word) (s : State) : (countSample p s).queue = s.queue := rfl
@[simp] theorem countSample_xs (p : Word) (s : State) : (countSample p s).xs = s.xs := rfl
@[simp] theorem countSample_faults (p : Word) (s : State) : (countSample p s).faults = s.faults := rfl
@[simp] theorem countSample_fpr (p : Word) (s : State) : (countSample p s).fpr = s.fpr := rfl
@[simp] theorem countSample_fcr31 (p : Word) (s : State) : (countSample p s).fcr31 = s.fcr31 := rfl
@[simp] theorem countSample_mem (p : Word) (s : State) : (countSample p s).mem = s.mem := rfl
@[simp] theorem countSample_params (p : Word) (s : State) : (countSample p s).params = s.params := rfl
@[simp] theorem countSample_handlerCalls (p : Word) (s : State) : (countSample p s).handlerCalls = s.handlerCalls := rfl
@[simp] theorem countSample_deviceReplies (p : Word) (s : State) : (countSample p s).deviceReplies = s.deviceReplies := rfl
@[simp] theorem countSample_heldCode (p : Word) (s : State) : (countSample p s).heldCode = s.heldCode := rfl
@[simp] theorem countSample_draws (p : Word) (s : State) : (countSample p s).draws = s.draws := rfl

/-! `countRebase` -/

@[simp] theorem countRebase_gpr (p : Word) (s : State) : (countRebase p s).gpr = s.gpr := rfl
@[simp] theorem countRebase_hi (p : Word) (s : State) : (countRebase p s).hi = s.hi := rfl
@[simp] theorem countRebase_lo (p : Word) (s : State) : (countRebase p s).lo = s.lo := rfl
@[simp] theorem countRebase_pc (p : Word) (s : State) : (countRebase p s).pc = s.pc := rfl
@[simp] theorem countRebase_inDelaySlot (p : Word) (s : State) : (countRebase p s).inDelaySlot = s.inDelaySlot := rfl
@[simp] theorem countRebase_branchTarget (p : Word) (s : State) : (countRebase p s).branchTarget = s.branchTarget := rfl
@[simp] theorem countRebase_llBit (p : Word) (s : State) : (countRebase p s).llBit = s.llBit := rfl
@[simp] theorem countRebase_stop (p : Word) (s : State) : (countRebase p s).stop = s.stop := rfl
@[simp] theorem countRebase_time (p : Word) (s : State) : (countRebase p s).time = s.time := rfl
@[simp] theorem countRebase_cp0 (p : Word) (s : State) : (countRebase p s).cp0 = s.cp0 := rfl
@[simp] theorem countRebase_tlb (p : Word) (s : State) : (countRebase p s).tlb = s.tlb := rfl
@[simp] theorem countRebase_lutR (p : Word) (s : State) : (countRebase p s).lutR = s.lutR := rfl
@[simp] theorem countRebase_lutW (p : Word) (s : State) : (countRebase p s).lutW = s.lutW := rfl
@[simp] theorem countRebase_queue (p : Word) (s : State) : (countRebase p s).queue = s.queue := rfl
@[simp] theorem countRebase_xs (p : Word) (s : State) : (countRebase p s).xs = s.xs := rfl
@[simp] theorem countRebase_faults (p : Word) (s : State) : (countRebase p s).faults = s.faults := rfl
@[simp] theorem countRebase_fpr (p : Word) (s : State) : (countRebase p s).fpr = s.fpr := rfl
@[simp] theorem countRebase_fcr31 (p : Word) (s : State) : (countRebase p s).fcr31 = s.fcr31 := rfl
@[simp] theorem countRebase_mem (p : Word) (s : State) : (countRebase p s).mem = s.mem := rfl
@[simp] theorem countRebase_params (p : Word) (s : State) : (countRebase p s).params = s.params := rfl
@[simp] theorem countRebase_handlerCalls (p : Word) (s : State) : (countRebase p s).handlerCalls = s.handlerCalls := rfl
@[simp] theorem countRebase_deviceReplies (p : Word) (s : State) : (countRebase p s).deviceReplies = s.deviceReplies := rfl
@[simp] theorem countRebase_heldCode (p : Word) (s : State) : (countRebase p s).heldCode = s.heldCode := rfl
@[simp] theorem countRebase_draws (p : Word) (s : State) : (countRebase p s).draws = s.draws := rfl

/-! `schedule` -/

@[simp] theorem schedule_gpr (y : EventType) (d : Nat) (s : State) : (schedule y d s).1.gpr = s.gpr := by unfold schedule; split <;> rfl
@[simp] theorem schedule_hi (y : EventType) (d : Nat) (s : State) : (schedule y d s).1.hi = s.hi := by unfold schedule; split <;> rfl
@[simp] theorem schedule_lo (y : EventType) (d : Nat) (s : State) : (schedule y d s).1.lo = s.lo := by unfold schedule; split <;> rfl
@[simp] theorem schedule_pc (y : EventType) (d : Nat) (s : State) : (schedule y d s).1.pc = s.pc := by unfold schedule; split <;> rfl
@[simp] theorem schedule_inDelaySlot (y : EventType) (d : Nat) (s : State) : (schedule y d s).1.inDelaySlot = s.inDelaySlot := by unfold schedule; split <;> rfl
@[simp] theorem schedule_branchTarget (y : EventType) (d : Nat) (s : State) : (schedule y d s).1.branchTarget = s.branchTarget := by unfold schedule; split <;> rfl
@[simp] theorem schedule_llBit (y : EventType) (d : Nat) (s : State) : (schedule y d s).1.llBit = s.llBit := by unfold schedule; split <;> rfl
@[simp] theorem schedule_stop (y : EventType) (d : Nat) (s : State) : (schedule y d s).1.stop = s.stop := by unfold schedule; split <;> rfl
@[simp] theorem schedule_time (y : EventType) (d : Nat) (s : State) : (schedule y d s).1.time = s.time := by unfold schedule; split <;> rfl
@[simp] theorem schedule_lastPc (y : EventType) (d : Nat) (s : State) : (schedule y d s).1.lastPc = s.lastPc := by unfold schedule; split <;> rfl
@[simp] theorem schedule_cp0 (y : EventType) (d : Nat) (s : State) : (schedule y d s).1.cp0 = s.cp0 := by unfold schedule; split <;> rfl
@[simp] theorem schedule_tlb (y : EventType) (d : Nat) (s : State) : (schedule y d s).1.tlb = s.tlb := by unfold schedule; split <;> rfl
@[simp] theorem schedule_lutR (y : EventType) (d : Nat) (s : State) : (schedule y d s).1.lutR = s.lutR := by unfold schedule; split <;> rfl
@[simp] theorem schedule_lutW (y : EventType) (d : Nat) (s : State) : (schedule y d s).1.lutW = s.lutW := by unfold schedule; split <;> rfl
@[simp] theorem schedule_xs (y : EventType) (d : Nat) (s : State) : (schedule y d s).1.xs = s.xs := by unfold schedule; split <;> rfl
@[simp] theorem schedule_fpr (y : EventType) (d : Nat) (s : State) : (schedule y d s).1.fpr = s.fpr := by unfold schedule; split <;> rfl
@[simp] theorem schedule_fcr31 (y : EventType) (d : Nat) (s : State) : (schedule y d s).1.fcr31 = s.fcr31 := by unfold schedule; split <;> rfl
@[simp] theorem schedule_mem (y : EventType) (d : Nat) (s : State) : (schedule y d s).1.mem = s.mem := by unfold schedule; split <;> rfl
@[simp] theorem schedule_params (y : EventType) (d : Nat) (s : State) : (schedule y d s).1.params = s.params := by unfold schedule; split <;> rfl
@[simp] theorem schedule_handlerCalls (y : EventType) (d : Nat) (s : State) : (schedule y d s).1.handlerCalls = s.handlerCalls := by unfold schedule; split <;> rfl
@[simp] theorem schedule_deviceReplies (y : EventType) (d : Nat) (s : State) : (schedule y d s).1.deviceReplies = s.deviceReplies := by unfold schedule; split <;> rfl
@[simp] theorem schedule_heldCode (y : EventType) (d : Nat) (s : State) : (schedule y d s).1.heldCode = s.heldCode := by unfold schedule; split <;> rfl
@[simp] theorem schedule_draws (y : EventType) (d : Nat) (s : State) : (schedule y d s).1.draws = s.draws := by unfold schedule; split <;> rfl

/-! `cancel` -/

@[simp] theorem cancel_gpr (y : EventType) (s : State) : (cancel y s).gpr = s.gpr := rfl
@[simp] theorem cancel_hi (y : EventType) (s : State) : (cancel y s).hi = s.hi := rfl
@[simp] theorem cancel_lo (y : EventType) (s : State) : (cancel y s).lo = s.lo := rfl
@[simp] theorem cancel_pc (y : EventType) (s : State) : (cancel y s).pc = s.pc := rfl
@[simp] theorem cancel_inDelaySlot (y : EventType) (s : State) : (cancel y s).inDelaySlot = s.inDelaySlot := rfl
@[simp] theorem cancel_branchTarget (y : EventType) (s : State) : (cancel y s).branchTarget = s.branchTarget := rfl
@[simp] theorem cancel_llBit (y : EventType) (s : State) : (cancel y s).llBit = s.llBit := rfl
@[simp] theorem cancel_stop (y : EventType) (s : State) : (cancel y s).stop = s.stop := rfl
@[simp] theorem cancel_time (y : EventType) (s : State) : (cancel y s).time = s.time := rfl
@[simp] theorem cancel_lastPc (y : EventType) (s : State) : (cancel y s).lastPc = s.lastPc := rfl
@[simp] theorem cancel_cp0 (y : EventType) (s : State) : (cancel y s).cp0 = s.cp0 := rfl
@[simp] theorem cancel_tlb (y : EventType) (s : State) : (cancel y s).tlb = s.tlb := rfl
@[simp] theorem cancel_lutR (y : EventType) (s : State) : (cancel y s).lutR = s.lutR := rfl
@[simp] theorem cancel_lutW (y : EventType) (s : State) : (cancel y s).lutW = s.lutW := rfl
@[simp] theorem cancel_xs (y : EventType) (s : State) : (cancel y s).xs = s.xs := rfl
@[simp] theorem cancel_faults (y : EventType) (s : State) : (cancel y s).faults = s.faults := rfl
@[simp] theorem cancel_fpr (y : EventType) (s : State) : (cancel y s).fpr = s.fpr := rfl
@[simp] theorem cancel_fcr31 (y : EventType) (s : State) : (cancel y s).fcr31 = s.fcr31 := rfl
@[simp] theorem cancel_mem (y : EventType) (s : State) : (cancel y s).mem = s.mem := rfl
@[simp] theorem cancel_params (y : EventType) (s : State) : (cancel y s).params = s.params := rfl
@[simp] theorem cancel_handlerCalls (y : EventType) (s : State) : (cancel y s).handlerCalls = s.handlerCalls := rfl
@[simp] theorem cancel_deviceReplies (y : EventType) (s : State) : (cancel y s).deviceReplies = s.deviceReplies := rfl
@[simp] theorem cancel_heldCode (y : EventType) (s : State) : (cancel y s).heldCode = s.heldCode := rfl
@[simp] theorem cancel_draws (y : EventType) (s : State) : (cancel y s).draws = s.draws := rfl

/-! `popDue` -/

@[simp] theorem popDue_gpr (n : Nat) (s : State) : (popDue n s).1.gpr = s.gpr := rfl
@[simp] theorem popDue_hi (n : Nat) (s : State) : (popDue n s).1.hi = s.hi := rfl
@[simp] theorem popDue_lo (n : Nat) (s : State) : (popDue n s).1.lo = s.lo := rfl
@[simp] theorem popDue_pc (n : Nat) (s : State) : (popDue n s).1.pc = s.pc := rfl
@[simp] theorem popDue_inDelaySlot (n : Nat) (s : State) : (popDue n s).1.inDelaySlot = s.inDelaySlot := rfl
@[simp] theorem popDue_branchTarget (n : Nat) (s : State) : (popDue n s).1.branchTarget = s.branchTarget := rfl
@[simp] theorem popDue_llBit (n : Nat) (s : State) : (popDue n s).1.llBit = s.llBit := rfl
@[simp] theorem popDue_stop (n : Nat) (s : State) : (popDue n s).1.stop = s.stop := rfl
@[simp] theorem popDue_time (n : Nat) (s : State) : (popDue n s).1.time = s.time := rfl
@[simp] theorem popDue_lastPc (n : Nat) (s : State) : (popDue n s).1.lastPc = s.lastPc := rfl
@[simp] theorem popDue_cp0 (n : Nat) (s : State) : (popDue n s).1.cp0 = s.cp0 := rfl
@[simp] theorem popDue_tlb (n : Nat) (s : State) : (popDue n s).1.tlb = s.tlb := rfl
@[simp] theorem popDue_lutR (n : Nat) (s : State) : (popDue n s).1.lutR = s.lutR := rfl
@[simp] theorem popDue_lutW (n : Nat) (s : State) : (popDue n s).1.lutW = s.lutW := rfl
@[simp] theorem popDue_xs (n : Nat) (s : State) : (popDue n s).1.xs = s.xs := rfl
@[simp] theorem popDue_faults (n : Nat) (s : State) : (popDue n s).1.faults = s.faults := rfl
@[simp] theorem popDue_fpr (n : Nat) (s : State) : (popDue n s).1.fpr = s.fpr := rfl
@[simp] theorem popDue_fcr31 (n : Nat) (s : State) : (popDue n s).1.fcr31 = s.fcr31 := rfl
@[simp] theorem popDue_mem (n : Nat) (s : State) : (popDue n s).1.mem = s.mem := rfl
@[simp] theorem popDue_params (n : Nat) (s : State) : (popDue n s).1.params = s.params := rfl
@[simp] theorem popDue_handlerCalls (n : Nat) (s : State) : (popDue n s).1.handlerCalls = s.handlerCalls := rfl
@[simp] theorem popDue_deviceReplies (n : Nat) (s : State) : (popDue n s).1.deviceReplies = s.deviceReplies := rfl
@[simp] theorem popDue_heldCode (n : Nat) (s : State) : (popDue n s).1.heldCode = s.heldCode := rfl
@[simp] theorem popDue_draws (n : Nat) (s : State) : (popDue n s).1.draws = s.draws := rfl

/-! `reschedCompare` -/

@[simp] theorem reschedCompare_gpr (s : State) : (reschedCompare s).gpr = s.gpr := by simp [reschedCompare]
@[simp] theorem reschedCompare_hi (s : State) : (reschedCompare s).hi = s.hi := by simp [reschedCompare]
@[simp] theorem reschedCompare_lo (s : State) : (reschedCompare s).lo = s.lo := by simp [reschedCompare]
@[simp] theorem reschedCompare_pc (s : State) : (reschedCompare s).pc = s.pc := by simp [reschedCompare]
@[simp] theorem reschedCompare_inDelaySlot (s : State) : (reschedCompare s).inDelaySlot = s.inDelaySlot := by simp [reschedCompare]
@[simp] theorem reschedCompare_branchTarget (s : State) : (reschedCompare s).branchTarget = s.branchTarget := by simp [reschedCompare]
@[simp] theorem reschedCompare_llBit (s : State) : (reschedCompare s).llBit = s.llBit := by simp [reschedCompare]
@[simp] theorem reschedCompare_stop (s : State) : (reschedCompare s).stop = s.stop := by simp [reschedCompare]
@[simp] theorem reschedCompare_time (s : State) : (reschedCompare s).time = s.time := by simp [reschedCompare]
@[simp] theorem reschedCompare_lastPc (s : State) : (reschedCompare s).lastPc = s.lastPc := by simp [reschedCompare]
@[simp] theorem reschedCompare_cp0 (s : State) : (reschedCompare s).cp0 = s.cp0 := by simp [reschedCompare]
@[simp] theorem reschedCompare_tlb (s : State) : (reschedCompare s).tlb = s.tlb := by simp [reschedCompare]
@[simp] theorem reschedCompare_lutR (s : State) : (reschedCompare s).lutR = s.lutR := by simp [reschedCompare]
@[simp] theorem reschedCompare_lutW (s : State) : (reschedCompare s).lutW = s.lutW := by simp [reschedCompare]
@[simp] theorem reschedCompare_xs (s : State) : (reschedCompare s).xs = s.xs := by simp [reschedCompare]
@[simp] theorem reschedCompare_fpr (s : State) : (reschedCompare s).fpr = s.fpr := by simp [reschedCompare]
@[simp] theorem reschedCompare_fcr31 (s : State) : (reschedCompare s).fcr31 = s.fcr31 := by simp [reschedCompare]
@[simp] theorem reschedCompare_mem (s : State) : (reschedCompare s).mem = s.mem := by simp [reschedCompare]
@[simp] theorem reschedCompare_params (s : State) : (reschedCompare s).params = s.params := by simp [reschedCompare]
@[simp] theorem reschedCompare_handlerCalls (s : State) : (reschedCompare s).handlerCalls = s.handlerCalls := by simp [reschedCompare]
@[simp] theorem reschedCompare_deviceReplies (s : State) : (reschedCompare s).deviceReplies = s.deviceReplies := by simp [reschedCompare]
@[simp] theorem reschedCompare_heldCode (s : State) : (reschedCompare s).heldCode = s.heldCode := by simp [reschedCompare]
@[simp] theorem reschedCompare_draws (s : State) : (reschedCompare s).draws = s.draws := by simp [reschedCompare]

/-! `compareFire` -/

@[simp] theorem compareFire_gpr (s : State) : (compareFire s).gpr = s.gpr := by simp [compareFire]
@[simp] theorem compareFire_hi (s : State) : (compareFire s).hi = s.hi := by simp [compareFire]
@[simp] theorem compareFire_lo (s : State) : (compareFire s).lo = s.lo := by simp [compareFire]
@[simp] theorem compareFire_pc (s : State) : (compareFire s).pc = s.pc := by simp [compareFire]
@[simp] theorem compareFire_inDelaySlot (s : State) : (compareFire s).inDelaySlot = s.inDelaySlot := by simp [compareFire]
@[simp] theorem compareFire_branchTarget (s : State) : (compareFire s).branchTarget = s.branchTarget := by simp [compareFire]
@[simp] theorem compareFire_llBit (s : State) : (compareFire s).llBit = s.llBit := by simp [compareFire]
@[simp] theorem compareFire_stop (s : State) : (compareFire s).stop = s.stop := by simp [compareFire]
@[simp] theorem compareFire_time (s : State) : (compareFire s).time = s.time := by simp [compareFire]
@[simp] theorem compareFire_lastPc (s : State) : (compareFire s).lastPc = s.lastPc := by simp [compareFire]
@[simp] theorem compareFire_tlb (s : State) : (compareFire s).tlb = s.tlb := by simp [compareFire]
@[simp] theorem compareFire_lutR (s : State) : (compareFire s).lutR = s.lutR := by simp [compareFire]
@[simp] theorem compareFire_lutW (s : State) : (compareFire s).lutW = s.lutW := by simp [compareFire]
@[simp] theorem compareFire_xs (s : State) : (compareFire s).xs = s.xs := by simp [compareFire]
@[simp] theorem compareFire_fpr (s : State) : (compareFire s).fpr = s.fpr := by simp [compareFire]
@[simp] theorem compareFire_fcr31 (s : State) : (compareFire s).fcr31 = s.fcr31 := by simp [compareFire]
@[simp] theorem compareFire_mem (s : State) : (compareFire s).mem = s.mem := by simp [compareFire]
@[simp] theorem compareFire_params (s : State) : (compareFire s).params = s.params := by simp [compareFire]
@[simp] theorem compareFire_handlerCalls (s : State) : (compareFire s).handlerCalls = s.handlerCalls := by simp [compareFire]
@[simp] theorem compareFire_deviceReplies (s : State) : (compareFire s).deviceReplies = s.deviceReplies := by simp [compareFire]
@[simp] theorem compareFire_heldCode (s : State) : (compareFire s).heldCode = s.heldCode := by simp [compareFire]
@[simp] theorem compareFire_draws (s : State) : (compareFire s).draws = s.draws := by simp [compareFire]

/-! `setIp` -/

@[simp] theorem setIp_gpr (k : Nat) (b : Bool) (s : State) : (setIp k b s).gpr = s.gpr := by unfold setIp; split <;> rfl
@[simp] theorem setIp_hi (k : Nat) (b : Bool) (s : State) : (setIp k b s).hi = s.hi := by unfold setIp; split <;> rfl
@[simp] theorem setIp_lo (k : Nat) (b : Bool) (s : State) : (setIp k b s).lo = s.lo := by unfold setIp; split <;> rfl
@[simp] theorem setIp_pc (k : Nat) (b : Bool) (s : State) : (setIp k b s).pc = s.pc := by unfold setIp; split <;> rfl
@[simp] theorem setIp_inDelaySlot (k : Nat) (b : Bool) (s : State) : (setIp k b s).inDelaySlot = s.inDelaySlot := by unfold setIp; split <;> rfl
@[simp] theorem setIp_branchTarget (k : Nat) (b : Bool) (s : State) : (setIp k b s).branchTarget = s.branchTarget := by unfold setIp; split <;> rfl
@[simp] theorem setIp_llBit (k : Nat) (b : Bool) (s : State) : (setIp k b s).llBit = s.llBit := by unfold setIp; split <;> rfl
@[simp] theorem setIp_stop (k : Nat) (b : Bool) (s : State) : (setIp k b s).stop = s.stop := by unfold setIp; split <;> rfl
@[simp] theorem setIp_time (k : Nat) (b : Bool) (s : State) : (setIp k b s).time = s.time := by unfold setIp; split <;> rfl
@[simp] theorem setIp_lastPc (k : Nat) (b : Bool) (s : State) : (setIp k b s).lastPc = s.lastPc := by unfold setIp; split <;> rfl
@[simp] theorem setIp_tlb (k : Nat) (b : Bool) (s : State) : (setIp k b s).tlb = s.tlb := by unfold setIp; split <;> rfl
@[simp] theorem setIp_lutR (k : Nat) (b : Bool) (s : State) : (setIp k b s).lutR = s.lutR := by unfold setIp; split <;> rfl
@[simp] theorem setIp_lutW (k : Nat) (b : Bool) (s : State) : (setIp k b s).lutW = s.lutW := by unfold setIp; split <;> rfl
@[simp] theorem setIp_queue (k : Nat) (b : Bool) (s : State) : (setIp k b s).queue = s.queue := by unfold setIp; split <;> rfl
@[simp] theorem setIp_xs (k : Nat) (b : Bool) (s : State) : (setIp k b s).xs = s.xs := by unfold setIp; split <;> rfl
@[simp] theorem setIp_faults (k : Nat) (b : Bool) (s : State) : (setIp k b s).faults = s.faults := by unfold setIp; split <;> rfl
@[simp] theorem setIp_fpr (k : Nat) (b : Bool) (s : State) : (setIp k b s).fpr = s.fpr := by unfold setIp; split <;> rfl
@[simp] theorem setIp_fcr31 (k : Nat) (b : Bool) (s : State) : (setIp k b s).fcr31 = s.fcr31 := by unfold setIp; split <;> rfl
@[simp] theorem setIp_mem (k : Nat) (b : Bool) (s : State) : (setIp k b s).mem = s.mem := by unfold setIp; split <;> rfl
@[simp] theorem setIp_params (k : Nat) (b : Bool) (s : State) : (setIp k b s).params = s.params := by unfold setIp; split <;> rfl
@[simp] theorem setIp_handlerCalls (k : Nat) (b : Bool) (s : State) : (setIp k b s).handlerCalls = s.handlerCalls := by unfold setIp; split <;> rfl
@[simp] theorem setIp_deviceReplies (k : Nat) (b : Bool) (s : State) : (setIp k b s).deviceReplies = s.deviceReplies := by unfold setIp; split <;> rfl
@[simp] theorem setIp_heldCode (k : Nat) (b : Bool) (s : State) : (setIp k b s).heldCode = s.heldCode := by unfold setIp; split <;> rfl
@[simp] theorem setIp_draws (k : Nat) (b : Bool) (s : State) : (setIp k b s).draws = s.draws := by unfold setIp; split <;> rfl

/-! `enter` -/

@[simp] theorem enter_gpr (e : Exc) (s : State) : (enter e s).gpr = s.gpr := rfl
@[simp] theorem enter_hi (e : Exc) (s : State) : (enter e s).hi = s.hi := rfl
@[simp] theorem enter_lo (e : Exc) (s : State) : (enter e s).lo = s.lo := rfl
@[simp] theorem enter_branchTarget (e : Exc) (s : State) : (enter e s).branchTarget = s.branchTarget := rfl
@[simp] theorem enter_llBit (e : Exc) (s : State) : (enter e s).llBit = s.llBit := rfl
@[simp] theorem enter_stop (e : Exc) (s : State) : (enter e s).stop = s.stop := rfl
@[simp] theorem enter_tlb (e : Exc) (s : State) : (enter e s).tlb = s.tlb := rfl
@[simp] theorem enter_lutR (e : Exc) (s : State) : (enter e s).lutR = s.lutR := rfl
@[simp] theorem enter_lutW (e : Exc) (s : State) : (enter e s).lutW = s.lutW := rfl
@[simp] theorem enter_queue (e : Exc) (s : State) : (enter e s).queue = s.queue := rfl
@[simp] theorem enter_faults (e : Exc) (s : State) : (enter e s).faults = s.faults := rfl
@[simp] theorem enter_fpr (e : Exc) (s : State) : (enter e s).fpr = s.fpr := rfl
@[simp] theorem enter_fcr31 (e : Exc) (s : State) : (enter e s).fcr31 = s.fcr31 := rfl
@[simp] theorem enter_mem (e : Exc) (s : State) : (enter e s).mem = s.mem := rfl
@[simp] theorem enter_params (e : Exc) (s : State) : (enter e s).params = s.params := rfl
@[simp] theorem enter_handlerCalls (e : Exc) (s : State) : (enter e s).handlerCalls = s.handlerCalls := rfl
@[simp] theorem enter_deviceReplies (e : Exc) (s : State) : (enter e s).deviceReplies = s.deviceReplies := rfl
@[simp] theorem enter_heldCode (e : Exc) (s : State) : (enter e s).heldCode = s.heldCode := rfl
@[simp] theorem enter_draws (e : Exc) (s : State) : (enter e s).draws = s.draws := rfl

/-! `returnFromException` -/

@[simp] theorem returnFromException_gpr (s : State) : (returnFromException s).gpr = s.gpr := rfl
@[simp] theorem returnFromException_hi (s : State) : (returnFromException s).hi = s.hi := rfl
@[simp] theorem returnFromException_lo (s : State) : (returnFromException s).lo = s.lo := rfl
@[simp] theorem returnFromException_branchTarget (s : State) : (returnFromException s).branchTarget = s.branchTarget := rfl
@[simp] theorem returnFromException_stop (s : State) : (returnFromException s).stop = s.stop := rfl
@[simp] theorem returnFromException_tlb (s : State) : (returnFromException s).tlb = s.tlb := rfl
@[simp] theorem returnFromException_lutR (s : State) : (returnFromException s).lutR = s.lutR := rfl
@[simp] theorem returnFromException_lutW (s : State) : (returnFromException s).lutW = s.lutW := rfl
@[simp] theorem returnFromException_queue (s : State) : (returnFromException s).queue = s.queue := rfl
@[simp] theorem returnFromException_faults (s : State) : (returnFromException s).faults = s.faults := rfl
@[simp] theorem returnFromException_fpr (s : State) : (returnFromException s).fpr = s.fpr := rfl
@[simp] theorem returnFromException_fcr31 (s : State) : (returnFromException s).fcr31 = s.fcr31 := rfl
@[simp] theorem returnFromException_mem (s : State) : (returnFromException s).mem = s.mem := rfl
@[simp] theorem returnFromException_params (s : State) : (returnFromException s).params = s.params := rfl
@[simp] theorem returnFromException_handlerCalls (s : State) : (returnFromException s).handlerCalls = s.handlerCalls := rfl
@[simp] theorem returnFromException_deviceReplies (s : State) : (returnFromException s).deviceReplies = s.deviceReplies := rfl
@[simp] theorem returnFromException_heldCode (s : State) : (returnFromException s).heldCode = s.heldCode := rfl
@[simp] theorem returnFromException_draws (s : State) : (returnFromException s).draws = s.draws := rfl

/-! `advance` -/

@[simp] theorem advance_gpr (s : State) : s.advance.gpr = s.gpr := by unfold State.advance; split <;> rfl
@[simp] theorem advance_hi (s : State) : s.advance.hi = s.hi := by unfold State.advance; split <;> rfl
@[simp] theorem advance_lo (s : State) : s.advance.lo = s.lo := by unfold State.advance; split <;> rfl
@[simp] theorem advance_branchTarget (s : State) : s.advance.branchTarget = s.branchTarget := by unfold State.advance; split <;> rfl
@[simp] theorem advance_llBit (s : State) : s.advance.llBit = s.llBit := by unfold State.advance; split <;> rfl
@[simp] theorem advance_stop (s : State) : s.advance.stop = s.stop := by unfold State.advance; split <;> rfl
@[simp] theorem advance_tlb (s : State) : s.advance.tlb = s.tlb := by unfold State.advance; split <;> rfl
@[simp] theorem advance_lutR (s : State) : s.advance.lutR = s.lutR := by unfold State.advance; split <;> rfl
@[simp] theorem advance_lutW (s : State) : s.advance.lutW = s.lutW := by unfold State.advance; split <;> rfl
@[simp] theorem advance_queue (s : State) : s.advance.queue = s.queue := by unfold State.advance; split <;> rfl
@[simp] theorem advance_xs (s : State) : s.advance.xs = s.xs := by unfold State.advance; split <;> rfl
@[simp] theorem advance_faults (s : State) : s.advance.faults = s.faults := by unfold State.advance; split <;> rfl
@[simp] theorem advance_fpr (s : State) : s.advance.fpr = s.fpr := by unfold State.advance; split <;> rfl
@[simp] theorem advance_fcr31 (s : State) : s.advance.fcr31 = s.fcr31 := by unfold State.advance; split <;> rfl
@[simp] theorem advance_mem (s : State) : s.advance.mem = s.mem := by unfold State.advance; split <;> rfl
@[simp] theorem advance_params (s : State) : s.advance.params = s.params := by unfold State.advance; split <;> rfl
@[simp] theorem advance_handlerCalls (s : State) : s.advance.handlerCalls = s.handlerCalls := by unfold State.advance; split <;> rfl
@[simp] theorem advance_deviceReplies (s : State) : s.advance.deviceReplies = s.deviceReplies := by unfold State.advance; split <;> rfl
@[simp] theorem advance_heldCode (s : State) : s.advance.heldCode = s.heldCode := by unfold State.advance; split <;> rfl
@[simp] theorem advance_draws (s : State) : s.advance.draws = s.draws := by unfold State.advance; split <;> rfl

/-! `mapHalf` -/

@[simp] theorem mapHalf_gpr (r : HalfRange) (s : State) : (mapHalf r s).gpr = s.gpr := by unfold mapHalf; split <;> rfl
@[simp] theorem mapHalf_hi (r : HalfRange) (s : State) : (mapHalf r s).hi = s.hi := by unfold mapHalf; split <;> rfl
@[simp] theorem mapHalf_lo (r : HalfRange) (s : State) : (mapHalf r s).lo = s.lo := by unfold mapHalf; split <;> rfl
@[simp] theorem mapHalf_pc (r : HalfRange) (s : State) : (mapHalf r s).pc = s.pc := by unfold mapHalf; split <;> rfl
@[simp] theorem mapHalf_inDelaySlot (r : HalfRange) (s : State) : (mapHalf r s).inDelaySlot = s.inDelaySlot := by unfold mapHalf; split <;> rfl
@[simp] theorem mapHalf_branchTarget (r : HalfRange) (s : State) : (mapHalf r s).branchTarget = s.branchTarget := by unfold mapHalf; split <;> rfl
@[simp] theorem mapHalf_llBit (r : HalfRange) (s : State) : (mapHalf r s).llBit = s.llBit := by unfold mapHalf; split <;> rfl
@[simp] theorem mapHalf_stop (r : HalfRange) (s : State) : (mapHalf r s).stop = s.stop := by unfold mapHalf; split <;> rfl
@[simp] theorem mapHalf_time (r : HalfRange) (s : State) : (mapHalf r s).time = s.time := by unfold mapHalf; split <;> rfl
@[simp] theorem mapHalf_lastPc (r : HalfRange) (s : State) : (mapHalf r s).lastPc = s.lastPc := by unfold mapHalf; split <;> rfl
@[simp] theorem mapHalf_cp0 (r : HalfRange) (s : State) : (mapHalf r s).cp0 = s.cp0 := by unfold mapHalf; split <;> rfl
@[simp] theorem mapHalf_tlb (r : HalfRange) (s : State) : (mapHalf r s).tlb = s.tlb := by unfold mapHalf; split <;> rfl
@[simp] theorem mapHalf_queue (r : HalfRange) (s : State) : (mapHalf r s).queue = s.queue := by unfold mapHalf; split <;> rfl
@[simp] theorem mapHalf_xs (r : HalfRange) (s : State) : (mapHalf r s).xs = s.xs := by unfold mapHalf; split <;> rfl
@[simp] theorem mapHalf_faults (r : HalfRange) (s : State) : (mapHalf r s).faults = s.faults := by unfold mapHalf; split <;> rfl
@[simp] theorem mapHalf_fpr (r : HalfRange) (s : State) : (mapHalf r s).fpr = s.fpr := by unfold mapHalf; split <;> rfl
@[simp] theorem mapHalf_fcr31 (r : HalfRange) (s : State) : (mapHalf r s).fcr31 = s.fcr31 := by unfold mapHalf; split <;> rfl
@[simp] theorem mapHalf_mem (r : HalfRange) (s : State) : (mapHalf r s).mem = s.mem := by unfold mapHalf; split <;> rfl
@[simp] theorem mapHalf_params (r : HalfRange) (s : State) : (mapHalf r s).params = s.params := by unfold mapHalf; split <;> rfl
@[simp] theorem mapHalf_handlerCalls (r : HalfRange) (s : State) : (mapHalf r s).handlerCalls = s.handlerCalls := by unfold mapHalf; split <;> rfl
@[simp] theorem mapHalf_deviceReplies (r : HalfRange) (s : State) : (mapHalf r s).deviceReplies = s.deviceReplies := by unfold mapHalf; split <;> rfl
@[simp] theorem mapHalf_heldCode (r : HalfRange) (s : State) : (mapHalf r s).heldCode = s.heldCode := by unfold mapHalf; split <;> rfl
@[simp] theorem mapHalf_draws (r : HalfRange) (s : State) : (mapHalf r s).draws = s.draws := by unfold mapHalf; split <;> rfl

/-! `unmapHalf` -/

@[simp] theorem unmapHalf_gpr (r : HalfRange) (s : State) : (unmapHalf r s).gpr = s.gpr := by unfold unmapHalf; split <;> rfl
@[simp] theorem unmapHalf_hi (r : HalfRange) (s : State) : (unmapHalf r s).hi = s.hi := by unfold unmapHalf; split <;> rfl
@[simp] theorem unmapHalf_lo (r : HalfRange) (s : State) : (unmapHalf r s).lo = s.lo := by unfold unmapHalf; split <;> rfl
@[simp] theorem unmapHalf_pc (r : HalfRange) (s : State) : (unmapHalf r s).pc = s.pc := by unfold unmapHalf; split <;> rfl
@[simp] theorem unmapHalf_inDelaySlot (r : HalfRange) (s : State) : (unmapHalf r s).inDelaySlot = s.inDelaySlot := by unfold unmapHalf; split <;> rfl
@[simp] theorem unmapHalf_branchTarget (r : HalfRange) (s : State) : (unmapHalf r s).branchTarget = s.branchTarget := by unfold unmapHalf; split <;> rfl
@[simp] theorem unmapHalf_llBit (r : HalfRange) (s : State) : (unmapHalf r s).llBit = s.llBit := by unfold unmapHalf; split <;> rfl
@[simp] theorem unmapHalf_stop (r : HalfRange) (s : State) : (unmapHalf r s).stop = s.stop := by unfold unmapHalf; split <;> rfl
@[simp] theorem unmapHalf_time (r : HalfRange) (s : State) : (unmapHalf r s).time = s.time := by unfold unmapHalf; split <;> rfl
@[simp] theorem unmapHalf_lastPc (r : HalfRange) (s : State) : (unmapHalf r s).lastPc = s.lastPc := by unfold unmapHalf; split <;> rfl
@[simp] theorem unmapHalf_cp0 (r : HalfRange) (s : State) : (unmapHalf r s).cp0 = s.cp0 := by unfold unmapHalf; split <;> rfl
@[simp] theorem unmapHalf_tlb (r : HalfRange) (s : State) : (unmapHalf r s).tlb = s.tlb := by unfold unmapHalf; split <;> rfl
@[simp] theorem unmapHalf_queue (r : HalfRange) (s : State) : (unmapHalf r s).queue = s.queue := by unfold unmapHalf; split <;> rfl
@[simp] theorem unmapHalf_xs (r : HalfRange) (s : State) : (unmapHalf r s).xs = s.xs := by unfold unmapHalf; split <;> rfl
@[simp] theorem unmapHalf_faults (r : HalfRange) (s : State) : (unmapHalf r s).faults = s.faults := by unfold unmapHalf; split <;> rfl
@[simp] theorem unmapHalf_fpr (r : HalfRange) (s : State) : (unmapHalf r s).fpr = s.fpr := by unfold unmapHalf; split <;> rfl
@[simp] theorem unmapHalf_fcr31 (r : HalfRange) (s : State) : (unmapHalf r s).fcr31 = s.fcr31 := by unfold unmapHalf; split <;> rfl
@[simp] theorem unmapHalf_mem (r : HalfRange) (s : State) : (unmapHalf r s).mem = s.mem := by unfold unmapHalf; split <;> rfl
@[simp] theorem unmapHalf_params (r : HalfRange) (s : State) : (unmapHalf r s).params = s.params := by unfold unmapHalf; split <;> rfl
@[simp] theorem unmapHalf_handlerCalls (r : HalfRange) (s : State) : (unmapHalf r s).handlerCalls = s.handlerCalls := by unfold unmapHalf; split <;> rfl
@[simp] theorem unmapHalf_deviceReplies (r : HalfRange) (s : State) : (unmapHalf r s).deviceReplies = s.deviceReplies := by unfold unmapHalf; split <;> rfl
@[simp] theorem unmapHalf_heldCode (r : HalfRange) (s : State) : (unmapHalf r s).heldCode = s.heldCode := by unfold unmapHalf; split <;> rfl
@[simp] theorem unmapHalf_draws (r : HalfRange) (s : State) : (unmapHalf r s).draws = s.draws := by unfold unmapHalf; split <;> rfl

/-! `mapEntry` -/

@[simp] theorem mapEntry_gpr (e : TlbEntry) (s : State) : (mapEntry e s).gpr = s.gpr := by simp [mapEntry]
@[simp] theorem mapEntry_hi (e : TlbEntry) (s : State) : (mapEntry e s).hi = s.hi := by simp [mapEntry]
@[simp] theorem mapEntry_lo (e : TlbEntry) (s : State) : (mapEntry e s).lo = s.lo := by simp [mapEntry]
@[simp] theorem mapEntry_pc (e : TlbEntry) (s : State) : (mapEntry e s).pc = s.pc := by simp [mapEntry]
@[simp] theorem mapEntry_inDelaySlot (e : TlbEntry) (s : State) : (mapEntry e s).inDelaySlot = s.inDelaySlot := by simp [mapEntry]
@[simp] theorem mapEntry_branchTarget (e : TlbEntry) (s : State) : (mapEntry e s).branchTarget = s.branchTarget := by simp [mapEntry]
@[simp] theorem mapEntry_llBit (e : TlbEntry) (s : State) : (mapEntry e s).llBit = s.llBit := by simp [mapEntry]
@[simp] theorem mapEntry_stop (e : TlbEntry) (s : State) : (mapEntry e s).stop = s.stop := by simp [mapEntry]
@[simp] theorem mapEntry_time (e : TlbEntry) (s : State) : (mapEntry e s).time = s.time := by simp [mapEntry]
@[simp] theorem mapEntry_lastPc (e : TlbEntry) (s : State) : (mapEntry e s).lastPc = s.lastPc := by simp [mapEntry]
@[simp] theorem mapEntry_cp0 (e : TlbEntry) (s : State) : (mapEntry e s).cp0 = s.cp0 := by simp [mapEntry]
@[simp] theorem mapEntry_tlb (e : TlbEntry) (s : State) : (mapEntry e s).tlb = s.tlb := by simp [mapEntry]
@[simp] theorem mapEntry_queue (e : TlbEntry) (s : State) : (mapEntry e s).queue = s.queue := by simp [mapEntry]
@[simp] theorem mapEntry_xs (e : TlbEntry) (s : State) : (mapEntry e s).xs = s.xs := by simp [mapEntry]
@[simp] theorem mapEntry_faults (e : TlbEntry) (s : State) : (mapEntry e s).faults = s.faults := by simp [mapEntry]
@[simp] theorem mapEntry_fpr (e : TlbEntry) (s : State) : (mapEntry e s).fpr = s.fpr := by simp [mapEntry]
@[simp] theorem mapEntry_fcr31 (e : TlbEntry) (s : State) : (mapEntry e s).fcr31 = s.fcr31 := by simp [mapEntry]
@[simp] theorem mapEntry_mem (e : TlbEntry) (s : State) : (mapEntry e s).mem = s.mem := by simp [mapEntry]
@[simp] theorem mapEntry_params (e : TlbEntry) (s : State) : (mapEntry e s).params = s.params := by simp [mapEntry]
@[simp] theorem mapEntry_handlerCalls (e : TlbEntry) (s : State) : (mapEntry e s).handlerCalls = s.handlerCalls := by simp [mapEntry]
@[simp] theorem mapEntry_deviceReplies (e : TlbEntry) (s : State) : (mapEntry e s).deviceReplies = s.deviceReplies := by simp [mapEntry]
@[simp] theorem mapEntry_heldCode (e : TlbEntry) (s : State) : (mapEntry e s).heldCode = s.heldCode := by simp [mapEntry]
@[simp] theorem mapEntry_draws (e : TlbEntry) (s : State) : (mapEntry e s).draws = s.draws := by simp [mapEntry]

/-! `unmapEntry` -/

@[simp] theorem unmapEntry_gpr (e : TlbEntry) (s : State) : (unmapEntry e s).gpr = s.gpr := by simp [unmapEntry]
@[simp] theorem unmapEntry_hi (e : TlbEntry) (s : State) : (unmapEntry e s).hi = s.hi := by simp [unmapEntry]
@[simp] theorem unmapEntry_lo (e : TlbEntry) (s : State) : (unmapEntry e s).lo = s.lo := by simp [unmapEntry]
@[simp] theorem unmapEntry_pc (e : TlbEntry) (s : State) : (unmapEntry e s).pc = s.pc := by simp [unmapEntry]
@[simp] theorem unmapEntry_inDelaySlot (e : TlbEntry) (s : State) : (unmapEntry e s).inDelaySlot = s.inDelaySlot := by simp [unmapEntry]
@[simp] theorem unmapEntry_branchTarget (e : TlbEntry) (s : State) : (unmapEntry e s).branchTarget = s.branchTarget := by simp [unmapEntry]
@[simp] theorem unmapEntry_llBit (e : TlbEntry) (s : State) : (unmapEntry e s).llBit = s.llBit := by simp [unmapEntry]
@[simp] theorem unmapEntry_stop (e : TlbEntry) (s : State) : (unmapEntry e s).stop = s.stop := by simp [unmapEntry]
@[simp] theorem unmapEntry_time (e : TlbEntry) (s : State) : (unmapEntry e s).time = s.time := by simp [unmapEntry]
@[simp] theorem unmapEntry_lastPc (e : TlbEntry) (s : State) : (unmapEntry e s).lastPc = s.lastPc := by simp [unmapEntry]
@[simp] theorem unmapEntry_cp0 (e : TlbEntry) (s : State) : (unmapEntry e s).cp0 = s.cp0 := by simp [unmapEntry]
@[simp] theorem unmapEntry_tlb (e : TlbEntry) (s : State) : (unmapEntry e s).tlb = s.tlb := by simp [unmapEntry]
@[simp] theorem unmapEntry_queue (e : TlbEntry) (s : State) : (unmapEntry e s).queue = s.queue := by simp [unmapEntry]
@[simp] theorem unmapEntry_xs (e : TlbEntry) (s : State) : (unmapEntry e s).xs = s.xs := by simp [unmapEntry]
@[simp] theorem unmapEntry_faults (e : TlbEntry) (s : State) : (unmapEntry e s).faults = s.faults := by simp [unmapEntry]
@[simp] theorem unmapEntry_fpr (e : TlbEntry) (s : State) : (unmapEntry e s).fpr = s.fpr := by simp [unmapEntry]
@[simp] theorem unmapEntry_fcr31 (e : TlbEntry) (s : State) : (unmapEntry e s).fcr31 = s.fcr31 := by simp [unmapEntry]
@[simp] theorem unmapEntry_mem (e : TlbEntry) (s : State) : (unmapEntry e s).mem = s.mem := by simp [unmapEntry]
@[simp] theorem unmapEntry_params (e : TlbEntry) (s : State) : (unmapEntry e s).params = s.params := by simp [unmapEntry]
@[simp] theorem unmapEntry_handlerCalls (e : TlbEntry) (s : State) : (unmapEntry e s).handlerCalls = s.handlerCalls := by simp [unmapEntry]
@[simp] theorem unmapEntry_deviceReplies (e : TlbEntry) (s : State) : (unmapEntry e s).deviceReplies = s.deviceReplies := by simp [unmapEntry]
@[simp] theorem unmapEntry_heldCode (e : TlbEntry) (s : State) : (unmapEntry e s).heldCode = s.heldCode := by simp [unmapEntry]
@[simp] theorem unmapEntry_draws (e : TlbEntry) (s : State) : (unmapEntry e s).draws = s.draws := by simp [unmapEntry]

/-! `invalidateRanges` and `notifyInvalidate` -/

@[simp] theorem invalidateRanges_gpr (r : List (Word × Word)) (s : State) : (invalidateRanges r s).gpr = s.gpr := rfl
@[simp] theorem invalidateRanges_hi (r : List (Word × Word)) (s : State) : (invalidateRanges r s).hi = s.hi := rfl
@[simp] theorem invalidateRanges_lo (r : List (Word × Word)) (s : State) : (invalidateRanges r s).lo = s.lo := rfl
@[simp] theorem invalidateRanges_pc (r : List (Word × Word)) (s : State) : (invalidateRanges r s).pc = s.pc := rfl
@[simp] theorem invalidateRanges_inDelaySlot (r : List (Word × Word)) (s : State) : (invalidateRanges r s).inDelaySlot = s.inDelaySlot := rfl
@[simp] theorem invalidateRanges_branchTarget (r : List (Word × Word)) (s : State) : (invalidateRanges r s).branchTarget = s.branchTarget := rfl
@[simp] theorem invalidateRanges_llBit (r : List (Word × Word)) (s : State) : (invalidateRanges r s).llBit = s.llBit := rfl
@[simp] theorem invalidateRanges_stop (r : List (Word × Word)) (s : State) : (invalidateRanges r s).stop = s.stop := rfl
@[simp] theorem invalidateRanges_time (r : List (Word × Word)) (s : State) : (invalidateRanges r s).time = s.time := rfl
@[simp] theorem invalidateRanges_lastPc (r : List (Word × Word)) (s : State) : (invalidateRanges r s).lastPc = s.lastPc := rfl
@[simp] theorem invalidateRanges_cp0 (r : List (Word × Word)) (s : State) : (invalidateRanges r s).cp0 = s.cp0 := rfl
@[simp] theorem invalidateRanges_tlb (r : List (Word × Word)) (s : State) : (invalidateRanges r s).tlb = s.tlb := rfl
@[simp] theorem invalidateRanges_lutR (r : List (Word × Word)) (s : State) : (invalidateRanges r s).lutR = s.lutR := rfl
@[simp] theorem invalidateRanges_lutW (r : List (Word × Word)) (s : State) : (invalidateRanges r s).lutW = s.lutW := rfl
@[simp] theorem invalidateRanges_queue (r : List (Word × Word)) (s : State) : (invalidateRanges r s).queue = s.queue := rfl
@[simp] theorem invalidateRanges_xs (r : List (Word × Word)) (s : State) : (invalidateRanges r s).xs = s.xs := rfl
@[simp] theorem invalidateRanges_faults (r : List (Word × Word)) (s : State) : (invalidateRanges r s).faults = s.faults := rfl
@[simp] theorem invalidateRanges_fpr (r : List (Word × Word)) (s : State) : (invalidateRanges r s).fpr = s.fpr := rfl
@[simp] theorem invalidateRanges_fcr31 (r : List (Word × Word)) (s : State) : (invalidateRanges r s).fcr31 = s.fcr31 := rfl
@[simp] theorem invalidateRanges_mem (r : List (Word × Word)) (s : State) : (invalidateRanges r s).mem = s.mem := rfl
@[simp] theorem invalidateRanges_params (r : List (Word × Word)) (s : State) : (invalidateRanges r s).params = s.params := rfl
@[simp] theorem invalidateRanges_handlerCalls (r : List (Word × Word)) (s : State) : (invalidateRanges r s).handlerCalls = s.handlerCalls := rfl
@[simp] theorem invalidateRanges_deviceReplies (r : List (Word × Word)) (s : State) : (invalidateRanges r s).deviceReplies = s.deviceReplies := rfl
@[simp] theorem invalidateRanges_draws (r : List (Word × Word)) (s : State) : (invalidateRanges r s).draws = s.draws := rfl

@[simp] theorem invalidateRange_gpr (a b : Word) (s : State) : (invalidateRange a b s).gpr = s.gpr := rfl
@[simp] theorem invalidateRange_hi (a b : Word) (s : State) : (invalidateRange a b s).hi = s.hi := rfl
@[simp] theorem invalidateRange_lo (a b : Word) (s : State) : (invalidateRange a b s).lo = s.lo := rfl
@[simp] theorem invalidateRange_pc (a b : Word) (s : State) : (invalidateRange a b s).pc = s.pc := rfl
@[simp] theorem invalidateRange_inDelaySlot (a b : Word) (s : State) : (invalidateRange a b s).inDelaySlot = s.inDelaySlot := rfl
@[simp] theorem invalidateRange_branchTarget (a b : Word) (s : State) : (invalidateRange a b s).branchTarget = s.branchTarget := rfl
@[simp] theorem invalidateRange_llBit (a b : Word) (s : State) : (invalidateRange a b s).llBit = s.llBit := rfl
@[simp] theorem invalidateRange_stop (a b : Word) (s : State) : (invalidateRange a b s).stop = s.stop := rfl
@[simp] theorem invalidateRange_time (a b : Word) (s : State) : (invalidateRange a b s).time = s.time := rfl
@[simp] theorem invalidateRange_lastPc (a b : Word) (s : State) : (invalidateRange a b s).lastPc = s.lastPc := rfl
@[simp] theorem invalidateRange_cp0 (a b : Word) (s : State) : (invalidateRange a b s).cp0 = s.cp0 := rfl
@[simp] theorem invalidateRange_tlb (a b : Word) (s : State) : (invalidateRange a b s).tlb = s.tlb := rfl
@[simp] theorem invalidateRange_lutR (a b : Word) (s : State) : (invalidateRange a b s).lutR = s.lutR := rfl
@[simp] theorem invalidateRange_lutW (a b : Word) (s : State) : (invalidateRange a b s).lutW = s.lutW := rfl
@[simp] theorem invalidateRange_queue (a b : Word) (s : State) : (invalidateRange a b s).queue = s.queue := rfl
@[simp] theorem invalidateRange_xs (a b : Word) (s : State) : (invalidateRange a b s).xs = s.xs := rfl
@[simp] theorem invalidateRange_faults (a b : Word) (s : State) : (invalidateRange a b s).faults = s.faults := rfl
@[simp] theorem invalidateRange_fpr (a b : Word) (s : State) : (invalidateRange a b s).fpr = s.fpr := rfl
@[simp] theorem invalidateRange_fcr31 (a b : Word) (s : State) : (invalidateRange a b s).fcr31 = s.fcr31 := rfl
@[simp] theorem invalidateRange_mem (a b : Word) (s : State) : (invalidateRange a b s).mem = s.mem := rfl
@[simp] theorem invalidateRange_params (a b : Word) (s : State) : (invalidateRange a b s).params = s.params := rfl
@[simp] theorem invalidateRange_handlerCalls (a b : Word) (s : State) : (invalidateRange a b s).handlerCalls = s.handlerCalls := rfl
@[simp] theorem invalidateRange_deviceReplies (a b : Word) (s : State) : (invalidateRange a b s).deviceReplies = s.deviceReplies := rfl
@[simp] theorem invalidateRange_draws (a b : Word) (s : State) : (invalidateRange a b s).draws = s.draws := rfl

@[simp] theorem notifyInvalidate_gpr (old new : TlbEntry) (s : State) : (notifyInvalidate old new s).gpr = s.gpr := rfl
@[simp] theorem notifyInvalidate_hi (old new : TlbEntry) (s : State) : (notifyInvalidate old new s).hi = s.hi := rfl
@[simp] theorem notifyInvalidate_lo (old new : TlbEntry) (s : State) : (notifyInvalidate old new s).lo = s.lo := rfl
@[simp] theorem notifyInvalidate_pc (old new : TlbEntry) (s : State) : (notifyInvalidate old new s).pc = s.pc := rfl
@[simp] theorem notifyInvalidate_inDelaySlot (old new : TlbEntry) (s : State) : (notifyInvalidate old new s).inDelaySlot = s.inDelaySlot := rfl
@[simp] theorem notifyInvalidate_branchTarget (old new : TlbEntry) (s : State) : (notifyInvalidate old new s).branchTarget = s.branchTarget := rfl
@[simp] theorem notifyInvalidate_llBit (old new : TlbEntry) (s : State) : (notifyInvalidate old new s).llBit = s.llBit := rfl
@[simp] theorem notifyInvalidate_stop (old new : TlbEntry) (s : State) : (notifyInvalidate old new s).stop = s.stop := rfl
@[simp] theorem notifyInvalidate_time (old new : TlbEntry) (s : State) : (notifyInvalidate old new s).time = s.time := rfl
@[simp] theorem notifyInvalidate_lastPc (old new : TlbEntry) (s : State) : (notifyInvalidate old new s).lastPc = s.lastPc := rfl
@[simp] theorem notifyInvalidate_cp0 (old new : TlbEntry) (s : State) : (notifyInvalidate old new s).cp0 = s.cp0 := rfl
@[simp] theorem notifyInvalidate_tlb (old new : TlbEntry) (s : State) : (notifyInvalidate old new s).tlb = s.tlb := rfl
@[simp] theorem notifyInvalidate_lutR (old new : TlbEntry) (s : State) : (notifyInvalidate old new s).lutR = s.lutR := rfl
@[simp] theorem notifyInvalidate_lutW (old new : TlbEntry) (s : State) : (notifyInvalidate old new s).lutW = s.lutW := rfl
@[simp] theorem notifyInvalidate_queue (old new : TlbEntry) (s : State) : (notifyInvalidate old new s).queue = s.queue := rfl
@[simp] theorem notifyInvalidate_xs (old new : TlbEntry) (s : State) : (notifyInvalidate old new s).xs = s.xs := rfl
@[simp] theorem notifyInvalidate_faults (old new : TlbEntry) (s : State) : (notifyInvalidate old new s).faults = s.faults := rfl
@[simp] theorem notifyInvalidate_fpr (old new : TlbEntry) (s : State) : (notifyInvalidate old new s).fpr = s.fpr := rfl
@[simp] theorem notifyInvalidate_fcr31 (old new : TlbEntry) (s : State) : (notifyInvalidate old new s).fcr31 = s.fcr31 := rfl
@[simp] theorem notifyInvalidate_mem (old new : TlbEntry) (s : State) : (notifyInvalidate old new s).mem = s.mem := rfl
@[simp] theorem notifyInvalidate_params (old new : TlbEntry) (s : State) : (notifyInvalidate old new s).params = s.params := rfl
@[simp] theorem notifyInvalidate_handlerCalls (old new : TlbEntry) (s : State) : (notifyInvalidate old new s).handlerCalls = s.handlerCalls := rfl
@[simp] theorem notifyInvalidate_deviceReplies (old new : TlbEntry) (s : State) : (notifyInvalidate old new s).deviceReplies = s.deviceReplies := rfl
@[simp] theorem notifyInvalidate_draws (old new : TlbEntry) (s : State) : (notifyInvalidate old new s).draws = s.draws := rfl
@[simp] theorem notifyInvalidate_heldCode (old new : TlbEntry) (s : State) :
    (notifyInvalidate old new s).heldCode =
      s.heldCode.filter fun c => !(invalidatedRanges s.params old new).any (codeInRange c.1) := rfl

/-! `tlbWrite` -/

@[simp] theorem tlbWrite_gpr (i : Fin 32) (s : State) : (tlbWrite i s).gpr = s.gpr := by simp [tlbWrite]
@[simp] theorem tlbWrite_hi (i : Fin 32) (s : State) : (tlbWrite i s).hi = s.hi := by simp [tlbWrite]
@[simp] theorem tlbWrite_lo (i : Fin 32) (s : State) : (tlbWrite i s).lo = s.lo := by simp [tlbWrite]
@[simp] theorem tlbWrite_pc (i : Fin 32) (s : State) : (tlbWrite i s).pc = s.pc := by simp [tlbWrite]
@[simp] theorem tlbWrite_inDelaySlot (i : Fin 32) (s : State) : (tlbWrite i s).inDelaySlot = s.inDelaySlot := by simp [tlbWrite]
@[simp] theorem tlbWrite_branchTarget (i : Fin 32) (s : State) : (tlbWrite i s).branchTarget = s.branchTarget := by simp [tlbWrite]
@[simp] theorem tlbWrite_llBit (i : Fin 32) (s : State) : (tlbWrite i s).llBit = s.llBit := by simp [tlbWrite]
@[simp] theorem tlbWrite_stop (i : Fin 32) (s : State) : (tlbWrite i s).stop = s.stop := by simp [tlbWrite]
@[simp] theorem tlbWrite_time (i : Fin 32) (s : State) : (tlbWrite i s).time = s.time := by simp [tlbWrite]
@[simp] theorem tlbWrite_lastPc (i : Fin 32) (s : State) : (tlbWrite i s).lastPc = s.lastPc := by simp [tlbWrite]
@[simp] theorem tlbWrite_cp0 (i : Fin 32) (s : State) : (tlbWrite i s).cp0 = s.cp0 := by simp [tlbWrite]
@[simp] theorem tlbWrite_queue (i : Fin 32) (s : State) : (tlbWrite i s).queue = s.queue := by simp [tlbWrite]
@[simp] theorem tlbWrite_xs (i : Fin 32) (s : State) : (tlbWrite i s).xs = s.xs := by simp [tlbWrite]
@[simp] theorem tlbWrite_faults (i : Fin 32) (s : State) : (tlbWrite i s).faults = s.faults := by simp [tlbWrite]
@[simp] theorem tlbWrite_fpr (i : Fin 32) (s : State) : (tlbWrite i s).fpr = s.fpr := by simp [tlbWrite]
@[simp] theorem tlbWrite_fcr31 (i : Fin 32) (s : State) : (tlbWrite i s).fcr31 = s.fcr31 := by simp [tlbWrite]
@[simp] theorem tlbWrite_mem (i : Fin 32) (s : State) : (tlbWrite i s).mem = s.mem := by simp [tlbWrite]
@[simp] theorem tlbWrite_params (i : Fin 32) (s : State) : (tlbWrite i s).params = s.params := by simp [tlbWrite]
@[simp] theorem tlbWrite_handlerCalls (i : Fin 32) (s : State) : (tlbWrite i s).handlerCalls = s.handlerCalls := by simp [tlbWrite]
@[simp] theorem tlbWrite_deviceReplies (i : Fin 32) (s : State) : (tlbWrite i s).deviceReplies = s.deviceReplies := by simp [tlbWrite]
@[simp] theorem tlbWrite_draws (i : Fin 32) (s : State) : (tlbWrite i s).draws = s.draws := by simp [tlbWrite]

@[simp] theorem tlbWrite_heldCode (i : Fin 32) (s : State) :
    (tlbWrite i s).heldCode =
      s.heldCode.filter fun c => !(invalidatedRanges s.params s.tlb[i] (entryFromRegs s.cp0)).any (codeInRange c.1) := by
  simp [tlbWrite]

/-! `usePollDraw` -/

@[simp] theorem usePollDraw_gpr (s : State) : (usePollDraw s).gpr = s.gpr := by unfold usePollDraw; split <;> rfl
@[simp] theorem usePollDraw_hi (s : State) : (usePollDraw s).hi = s.hi := by unfold usePollDraw; split <;> rfl
@[simp] theorem usePollDraw_lo (s : State) : (usePollDraw s).lo = s.lo := by unfold usePollDraw; split <;> rfl
@[simp] theorem usePollDraw_pc (s : State) : (usePollDraw s).pc = s.pc := by unfold usePollDraw; split <;> rfl
@[simp] theorem usePollDraw_inDelaySlot (s : State) : (usePollDraw s).inDelaySlot = s.inDelaySlot := by unfold usePollDraw; split <;> rfl
@[simp] theorem usePollDraw_branchTarget (s : State) : (usePollDraw s).branchTarget = s.branchTarget := by unfold usePollDraw; split <;> rfl
@[simp] theorem usePollDraw_llBit (s : State) : (usePollDraw s).llBit = s.llBit := by unfold usePollDraw; split <;> rfl
@[simp] theorem usePollDraw_stop (s : State) : (usePollDraw s).stop = s.stop := by unfold usePollDraw; split <;> rfl
@[simp] theorem usePollDraw_time (s : State) : (usePollDraw s).time = s.time := by unfold usePollDraw; split <;> rfl
@[simp] theorem usePollDraw_lastPc (s : State) : (usePollDraw s).lastPc = s.lastPc := by unfold usePollDraw; split <;> rfl
@[simp] theorem usePollDraw_cp0 (s : State) : (usePollDraw s).cp0 = s.cp0 := by unfold usePollDraw; split <;> rfl
@[simp] theorem usePollDraw_tlb (s : State) : (usePollDraw s).tlb = s.tlb := by unfold usePollDraw; split <;> rfl
@[simp] theorem usePollDraw_lutR (s : State) : (usePollDraw s).lutR = s.lutR := by unfold usePollDraw; split <;> rfl
@[simp] theorem usePollDraw_lutW (s : State) : (usePollDraw s).lutW = s.lutW := by unfold usePollDraw; split <;> rfl
@[simp] theorem usePollDraw_queue (s : State) : (usePollDraw s).queue = s.queue := by unfold usePollDraw; split <;> rfl
@[simp] theorem usePollDraw_xs (s : State) : (usePollDraw s).xs = s.xs := by unfold usePollDraw; split <;> rfl
@[simp] theorem usePollDraw_faults (s : State) : (usePollDraw s).faults = s.faults := by unfold usePollDraw; split <;> rfl
@[simp] theorem usePollDraw_fpr (s : State) : (usePollDraw s).fpr = s.fpr := by unfold usePollDraw; split <;> rfl
@[simp] theorem usePollDraw_fcr31 (s : State) : (usePollDraw s).fcr31 = s.fcr31 := by unfold usePollDraw; split <;> rfl
@[simp] theorem usePollDraw_mem (s : State) : (usePollDraw s).mem = s.mem := by unfold usePollDraw; split <;> rfl
@[simp] theorem usePollDraw_params (s : State) : (usePollDraw s).params = s.params := by unfold usePollDraw; split <;> rfl
@[simp] theorem usePollDraw_handlerCalls (s : State) : (usePollDraw s).handlerCalls = s.handlerCalls := by unfold usePollDraw; split <;> rfl
@[simp] theorem usePollDraw_deviceReplies (s : State) : (usePollDraw s).deviceReplies = s.deviceReplies := by unfold usePollDraw; split <;> rfl
@[simp] theorem usePollDraw_heldCode (s : State) : (usePollDraw s).heldCode = s.heldCode := by unfold usePollDraw; split <;> rfl


/-! `useInvalidateDraw` -/

@[simp] theorem useInvalidateDraw_gpr (s : State) : (useInvalidateDraw s).gpr = s.gpr := rfl
@[simp] theorem useInvalidateDraw_hi (s : State) : (useInvalidateDraw s).hi = s.hi := rfl
@[simp] theorem useInvalidateDraw_lo (s : State) : (useInvalidateDraw s).lo = s.lo := rfl
@[simp] theorem useInvalidateDraw_pc (s : State) : (useInvalidateDraw s).pc = s.pc := rfl
@[simp] theorem useInvalidateDraw_inDelaySlot (s : State) : (useInvalidateDraw s).inDelaySlot = s.inDelaySlot := rfl
@[simp] theorem useInvalidateDraw_branchTarget (s : State) : (useInvalidateDraw s).branchTarget = s.branchTarget := rfl
@[simp] theorem useInvalidateDraw_llBit (s : State) : (useInvalidateDraw s).llBit = s.llBit := rfl
@[simp] theorem useInvalidateDraw_stop (s : State) : (useInvalidateDraw s).stop = s.stop := rfl
@[simp] theorem useInvalidateDraw_time (s : State) : (useInvalidateDraw s).time = s.time := rfl
@[simp] theorem useInvalidateDraw_lastPc (s : State) : (useInvalidateDraw s).lastPc = s.lastPc := rfl
@[simp] theorem useInvalidateDraw_cp0 (s : State) : (useInvalidateDraw s).cp0 = s.cp0 := rfl
@[simp] theorem useInvalidateDraw_tlb (s : State) : (useInvalidateDraw s).tlb = s.tlb := rfl
@[simp] theorem useInvalidateDraw_lutR (s : State) : (useInvalidateDraw s).lutR = s.lutR := rfl
@[simp] theorem useInvalidateDraw_lutW (s : State) : (useInvalidateDraw s).lutW = s.lutW := rfl
@[simp] theorem useInvalidateDraw_queue (s : State) : (useInvalidateDraw s).queue = s.queue := rfl
@[simp] theorem useInvalidateDraw_xs (s : State) : (useInvalidateDraw s).xs = s.xs := rfl
@[simp] theorem useInvalidateDraw_faults (s : State) : (useInvalidateDraw s).faults = s.faults := rfl
@[simp] theorem useInvalidateDraw_fpr (s : State) : (useInvalidateDraw s).fpr = s.fpr := rfl
@[simp] theorem useInvalidateDraw_fcr31 (s : State) : (useInvalidateDraw s).fcr31 = s.fcr31 := rfl
@[simp] theorem useInvalidateDraw_mem (s : State) : (useInvalidateDraw s).mem = s.mem := rfl
@[simp] theorem useInvalidateDraw_params (s : State) : (useInvalidateDraw s).params = s.params := rfl
@[simp] theorem useInvalidateDraw_handlerCalls (s : State) : (useInvalidateDraw s).handlerCalls = s.handlerCalls := rfl
@[simp] theorem useInvalidateDraw_deviceReplies (s : State) : (useInvalidateDraw s).deviceReplies = s.deviceReplies := rfl
@[simp] theorem useInvalidateDraw_draws (s : State) : (useInvalidateDraw s).draws = s.draws + 1 := rfl

end Sys2Proof.Machine
end

