-- ==== Sys2Proof/Laws/Code.lean ====
section
/-! SUPPORT. The code the engine holds compiled: what an invalidation drops, what a compilation adds, that each keeps the
canonical form, and what a fetch can do. -/

namespace Sys2Proof.Machine

theorem Table.get_filter_key {α : Type} (p : Nat → Bool) (k : Nat) (m : List (Nat × α)) :
    Table.get k (m.filter fun e => p e.1) = if p k then Table.get k m else none := by
  induction m with
  | nil => simp
  | cons e m ih =>
    by_cases he : p e.1 = true
    · rw [List.filter_cons_of_pos (by simpa using he), Table.get_cons, Table.get_cons, ih]
      by_cases hk : k = e.1
      · simp [hk, he]
      · simp [hk]
    · rw [List.filter_cons_of_neg (by simpa using he), ih, Table.get_cons]
      by_cases hk : k = e.1
      · simp [hk, he]
      · simp [hk]

theorem Table.sorted_filter {α : Type} (p : Nat × α → Bool) {m : List (Nat × α)} (h : Table.Sorted m) :
    Table.Sorted (m.filter p) :=
  List.Pairwise.sublist ((List.filter_sublist (p := p) (l := m)).map Prod.fst) h

/-- No word compiled from an invalidated range stays, and every other one does (R234, R442). -/
theorem get_invalidateRanges (r : List (Word × Word)) (s : State) (a : Nat) :
    Table.get a (invalidateRanges r s).heldCode = if r.any (codeInRange a) then none else Table.get a s.heldCode := by
  have h := Table.get_filter_key (fun a => !r.any (codeInRange a)) a s.heldCode
  simp only [invalidateRanges]
  rw [h]
  by_cases hr : r.any (codeInRange a) = true <;> simp [hr]

theorem sorted_invalidateRanges (r : List (Word × Word)) {s : State} (h : Table.Sorted s.heldCode) :
    Table.Sorted (invalidateRanges r s).heldCode := Table.sorted_filter _ h

theorem sorted_holdWord (va w : Word) {held : List (Nat × Word)} (h : Table.Sorted held) :
    Table.Sorted (holdWord va w held) := by
  unfold holdWord
  split
  · exact h
  · exact Table.sorted_put _ _ h

/-- A word that is held stays; else the word at `va` is held from now on (R442). -/
theorem get_holdWord (va w : Word) (held : List (Nat × Word)) (a : Nat) :
    Table.get a (holdWord va w held) =
      if a = va.toNat then some ((Table.get a held).getD w) else Table.get a held := by
  unfold holdWord
  split
  · rename_i h
    obtain ⟨v, hv⟩ := Option.isSome_iff_exists.mp h
    split
    · rename_i ha
      subst ha
      simp [hv]
    · rfl
  · rename_i h
    rw [Table.get_put]
    split
    · rename_i ha
      subst ha
      simp [Option.not_isSome_iff_eq_none.mp h]
    · rfl

theorem sorted_compileWords (n : Nat) (va : Word) (s : State) {held : List (Nat × Word)} (h : Table.Sorted held) :
    Table.Sorted (compileWords n va s held) := by
  induction n generalizing va held with
  | zero => exact h
  | succ n ih =>
    unfold compileWords
    split
    · exact h
    · split
      · exact h
      · exact ih _ (sorted_holdWord _ _ h)

/-- Compiling changes no word that is held already (R442). -/
theorem get_compileWords_of_held {n : Nat} {va : Word} {s : State} {held : List (Nat × Word)} {a : Nat} {w : Word}
    (h : Table.get a held = some w) : Table.get a (compileWords n va s held) = some w := by
  induction n generalizing va held with
  | zero => exact h
  | succ n ih =>
    unfold compileWords
    split
    · exact h
    · split
      · exact h
      · refine ih ?_
        rw [get_holdWord]
        split <;> simp [h]

theorem sorted_useInvalidateDraw {s : State} (h : Table.Sorted s.heldCode) :
    Table.Sorted (useInvalidateDraw s).heldCode := by
  simp only [useInvalidateDraw]
  split
  · exact Table.sorted_erase _ h
  · exact h

/-- What a fetch of compiled code can do: give the word that is held, or read memory and hold what it compiles. -/
theorem fetchCompiled_cases {pa : Word} {s t : State} {w : Word} (h : fetchCompiled pa s = .ok (t, w)) :
    (Table.get s.pc.toNat (useInvalidateDraw s).heldCode = some w ∧ t = useInvalidateDraw s) ∨
    (Table.get s.pc.toNat (useInvalidateDraw s).heldCode = none ∧ ∃ u, memReadWord pa (useInvalidateDraw s) = .ok (u, w) ∧
      t =
        { u with
          heldCode := compileWords (Config.freeBlockLength s.draws) (s.pc + 4) u (holdWord s.pc w u.heldCode) }) := by
  unfold fetchCompiled at h
  dsimp only at h
  split at h
  · cases h
    exact .inl ⟨‹_›, rfl⟩
  · split at h
    · cases h
      exact .inr ⟨‹_›, _, ‹_›, rfl⟩
    · cases h

end Sys2Proof.Machine
end

