-- ==== Sys2Proof/Laws/Flags.lean ====
section
/-! SUPPORT. The bits each update of Status and Cause writes, and those it leaves. -/

namespace Sys2Proof.Machine

/-! One bit, and a write under a mask -/

theorem putBit_getLsbD (v : Word) (i j : Nat) (b : Bool) (hi : i < 32) :
    (putBit v i b).getLsbD j = if j = i then b else v.getLsbD j := by
  unfold putBit
  split <;> rename_i hb
  · simp only [BitVec.getLsbD_or, BitVec.getLsbD_shiftLeft, BitVec.getLsbD_one, hb]
    by_cases h : j = i
    · subst h
      simp [hi]
    · simp only [h, if_false]
      by_cases h2 : j < i
      · simp [h2]
      · have : j - i ≠ 0 := by omega
        simp [this]
  · have hb : b = false := by simpa using hb
    subst hb
    simp only [BitVec.getLsbD_and, BitVec.getLsbD_not, BitVec.getLsbD_shiftLeft, BitVec.getLsbD_one]
    by_cases h : j = i
    · subst h
      simp [hi]
    · simp only [h, if_false]
      by_cases h2 : j < i
      · have : j < 32 := by omega
        simp [h2, this]
      · have : j - i ≠ 0 := by omega
        by_cases h3 : j < 32
        · simp [this, h3]
        · simp [h3, BitVec.getLsbD_of_ge v j (by omega)]

theorem merge_getLsbD (mask old v : Word) (j : Nat) :
    (merge mask old v).getLsbD j = if mask.getLsbD j then v.getLsbD j else old.getLsbD j := by
  unfold merge
  simp only [BitVec.getLsbD_or, BitVec.getLsbD_and, BitVec.getLsbD_not]
  by_cases h : j < 32
  · cases mask.getLsbD j <;> simp [h]
  · simp [BitVec.getLsbD_of_ge _ j (Nat.le_of_not_lt h)]

/-- A bit outside a mask is not written. -/
theorem putBit_and_of_clear {v m : Word} {i : Nat} (b : Bool) (hi : i < 32) (hm : m.getLsbD i = false) :
    putBit v i b &&& m = v &&& m := by
  apply BitVec.eq_of_getLsbD_eq
  intro j _
  simp only [BitVec.getLsbD_and, putBit_getLsbD _ _ _ _ hi]
  split
  · subst_vars
    simp [hm]
  · rfl

/-- Bits outside the write mask are not written. -/
theorem merge_and_of_disjoint {mask old v m : Word} (hm : mask &&& m = 0) : merge mask old v &&& m = old &&& m := by
  apply BitVec.eq_of_getLsbD_eq
  intro j _
  have h := congrArg (fun x => x.getLsbD j) hm
  simp only [BitVec.getLsbD_and, merge_getLsbD] at h ⊢
  split
  · simp_all
  · rfl

/-! Cause -/

theorem putExcCode_getLsbD (v : Word) (c : BitVec 5) (j : Nat) :
    (putExcCode v c).getLsbD j = if 2 ≤ j ∧ j ≤ 6 then c.getLsbD (j - 2) else v.getLsbD j := by
  by_cases hj : j < 32
  · have mask : ∀ k : Fin 32, (0x0000007C : Word).getLsbD k = decide (2 ≤ k.val ∧ k.val ≤ 6) := by decide
    rw [putExcCode, merge_getLsbD, mask ⟨j, hj⟩]
    by_cases h : 2 ≤ j ∧ j ≤ 6
    · have h1 : ¬j < 2 := by omega
      simp [h, hj, h1]
    · simp [h]
  · rw [BitVec.getLsbD_of_ge _ j (by omega), BitVec.getLsbD_of_ge v j (by omega), if_neg (by omega)]

theorem putCe_getLsbD (v : Word) (c : BitVec 2) (j : Nat) :
    (putCe v c).getLsbD j = if 28 ≤ j ∧ j ≤ 29 then c.getLsbD (j - 28) else v.getLsbD j := by
  by_cases hj : j < 32
  · have mask : ∀ k : Fin 32, (0x30000000 : Word).getLsbD k = decide (28 ≤ k.val ∧ k.val ≤ 29) := by decide
    rw [putCe, merge_getLsbD, mask ⟨j, hj⟩]
    by_cases h : 28 ≤ j ∧ j ≤ 29
    · have h1 : ¬j < 28 := by omega
      simp [h, hj, h1]
    · simp [h]
  · rw [BitVec.getLsbD_of_ge _ j (by omega), BitVec.getLsbD_of_ge v j (by omega), if_neg (by omega)]

theorem putBd_getLsbD (v : Word) (b : Bool) (j : Nat) :
    (putBd v b).getLsbD j = if j = 31 then b else v.getLsbD j := putBit_getLsbD v 31 j b (by omega)

theorem putIp_getLsbD (v : Word) (k j : Nat) (b : Bool) (hk : k < 8) :
    (putIp v k b).getLsbD j = if j = 8 + k then b else v.getLsbD j := putBit_getLsbD v (8 + k) j b (by omega)

@[simp] theorem causeExcCode_putExcCode (v : Word) (c : BitVec 5) : causeExcCode (putExcCode v c) = c := by
  apply BitVec.eq_of_getLsbD_eq
  intro j hj
  have h : 2 ≤ 2 + j ∧ 2 + j ≤ 6 := by omega
  simp [causeExcCode, putExcCode_getLsbD, hj, h]

@[simp] theorem causeIp_putExcCode (v : Word) (c : BitVec 5) : causeIp (putExcCode v c) = causeIp v := by
  apply BitVec.eq_of_getLsbD_eq
  intro j hj
  have h : ¬(2 ≤ 8 + j ∧ 8 + j ≤ 6) := by omega
  simp [causeIp, putExcCode_getLsbD, h]

@[simp] theorem causeCe_putExcCode (v : Word) (c : BitVec 5) : causeCe (putExcCode v c) = causeCe v := by
  apply BitVec.eq_of_getLsbD_eq
  intro j hj
  have h : ¬(2 ≤ 28 + j ∧ 28 + j ≤ 6) := by omega
  simp [causeCe, putExcCode_getLsbD, h]

@[simp] theorem causeBd_putExcCode (v : Word) (c : BitVec 5) : causeBd (putExcCode v c) = causeBd v := by
  rw [causeBd, bit, putExcCode_getLsbD, if_neg (by omega)]
  rfl

@[simp] theorem causeExcCode_putBd (v : Word) (b : Bool) : causeExcCode (putBd v b) = causeExcCode v := by
  apply BitVec.eq_of_getLsbD_eq
  intro j hj
  have h : ¬2 + j = 31 := by omega
  simp [causeExcCode, putBd_getLsbD, h]

@[simp] theorem causeIp_putBd (v : Word) (b : Bool) : causeIp (putBd v b) = causeIp v := by
  apply BitVec.eq_of_getLsbD_eq
  intro j hj
  have h : ¬8 + j = 31 := by omega
  simp [causeIp, putBd_getLsbD, h]

@[simp] theorem causeCe_putBd (v : Word) (b : Bool) : causeCe (putBd v b) = causeCe v := by
  apply BitVec.eq_of_getLsbD_eq
  intro j hj
  have h : ¬28 + j = 31 := by omega
  simp [causeCe, putBd_getLsbD, h]

@[simp] theorem causeBd_putBd (v : Word) (b : Bool) : causeBd (putBd v b) = b := by
  rw [causeBd, bit, putBd_getLsbD, if_pos rfl]

@[simp] theorem causeExcCode_putCe (v : Word) (c : BitVec 2) : causeExcCode (putCe v c) = causeExcCode v := by
  apply BitVec.eq_of_getLsbD_eq
  intro j hj
  have h : ¬(28 ≤ 2 + j ∧ 2 + j ≤ 29) := by omega
  simp [causeExcCode, putCe_getLsbD, h]

@[simp] theorem causeIp_putCe (v : Word) (c : BitVec 2) : causeIp (putCe v c) = causeIp v := by
  apply BitVec.eq_of_getLsbD_eq
  intro j hj
  have h : ¬(28 ≤ 8 + j ∧ 8 + j ≤ 29) := by omega
  simp [causeIp, putCe_getLsbD, h]

@[simp] theorem causeCe_putCe (v : Word) (c : BitVec 2) : causeCe (putCe v c) = c := by
  apply BitVec.eq_of_getLsbD_eq
  intro j hj
  have h : 28 + j ≤ 29 := by omega
  simp [causeCe, putCe_getLsbD, hj, h]

@[simp] theorem causeBd_putCe (v : Word) (c : BitVec 2) : causeBd (putCe v c) = causeBd v := by
  rw [causeBd, bit, putCe_getLsbD, if_neg (by omega)]
  rfl

end Sys2Proof.Machine
end

