-- ==== Sys2Proof/Laws/Lut.lean ====
section
/-! SUPPORT. The halves of a TLB entry as ranges of numbers, the pages of a half, and what filling and clearing them does to a
fast lookup table. -/

namespace Sys2Proof.Machine

/-! The halves (R225) -/

/-- The number of pages in one half. -/
def halfPages (e : TlbEntry) : Nat := e.mask.toNat + 1

/-- The number of the first page of the pair. -/
def pairPage (e : TlbEntry) : Nat := (e.vpn2 &&& ~~~(e.mask.setWidth 19)).toNat * 2

theorem halfPages_le (e : TlbEntry) : halfPages e ≤ 4096 := by
  have := e.mask.isLt
  unfold halfPages
  omega

/-- A value without the bits of a mask leaves room for the mask. -/
theorem and_not_add_lt (v m : BitVec 19) : (v &&& ~~~m).toNat + m.toNat < 524288 := by
  have h : (v &&& ~~~m) &&& m = 0 := by
    apply BitVec.eq_of_getLsbD_eq
    intro j hj
    simp only [BitVec.getLsbD_and, BitVec.getLsbD_not, hj, decide_true, Bool.true_and]
    cases m.getLsbD j <;> simp
  have h1 : (v &&& ~~~m) + m = (v &&& ~~~m) ||| m := BitVec.add_eq_or_of_and_eq_zero _ _ h
  have h2 : (v &&& ~~~m) ≤ ~~~m := BitVec.le_def.2 (by rw [BitVec.toNat_and]; exact Nat.and_le_right)
  have h3 := BitVec.le_def.1 h2
  rw [BitVec.toNat_not] at h3
  have := m.isLt
  omega

/-- The pair ends inside the address space. -/
theorem pair_fits (e : TlbEntry) : pairPage e + 2 * halfPages e ≤ 1048576 := by
  have h := and_not_add_lt e.vpn2 (e.mask.setWidth 19)
  have hm : (e.mask.setWidth 19).toNat = e.mask.toNat := by
    have := e.mask.isLt
    rw [BitVec.toNat_setWidth]
    omega
  rw [hm] at h
  unfold pairPage halfPages
  omega

theorem halfSize_toNat (e : TlbEntry) : (halfSize e).toNat = halfPages e * 4096 := by
  have := e.mask.isLt
  simp only [halfSize, halfPages, BitVec.toNat_shiftLeft, BitVec.toNat_add, BitVec.toNat_setWidth, Nat.shiftLeft_eq,
    show (1 : Word).toNat = 1 from rfl]
  omega

theorem pairBase_toNat (e : TlbEntry) : (pairBase e).toNat = pairPage e * 4096 := by
  have := (e.vpn2 &&& ~~~(e.mask.setWidth 19)).isLt
  simp only [pairBase, pairPage, BitVec.toNat_shiftLeft, BitVec.toNat_setWidth, Nat.shiftLeft_eq]
  omega

/-- The number of the first page of a half. -/
def firstPage (e : TlbEntry) (odd : Bool) : Nat := if odd then pairPage e + halfPages e else pairPage e

theorem half_start_toNat (e : TlbEntry) (odd : Bool) : (half e odd).start.toNat = firstPage e odd * 4096 := by
  have h1 := pair_fits e
  have h2 : 1 ≤ halfPages e := by unfold halfPages; omega
  cases odd
  · exact pairBase_toNat e
  · show (pairBase e + halfSize e).toNat = (pairPage e + halfPages e) * 4096
    rw [BitVec.toNat_add, pairBase_toNat, halfSize_toNat]
    omega

theorem half_stop_toNat (e : TlbEntry) (odd : Bool) :
    (half e odd).stop.toNat = (firstPage e odd + halfPages e) * 4096 - 1 := by
  have h0 := half_start_toNat e odd
  have h1 := pair_fits e
  have h2 : 1 ≤ halfPages e := by unfold halfPages; omega
  have h3 : firstPage e odd ≤ pairPage e + halfPages e := by unfold firstPage; split <;> omega
  show ((half e odd).start + halfSize e - 1).toNat = _
  rw [BitVec.toNat_sub, BitVec.toNat_add, h0, halfSize_toNat, show (1 : Word).toNat = 1 from rfl]
  omega

/-! Pages -/

theorem pageOf_eq (va : Word) : pageOf va = va.toNat / 4096 := by
  have := va.isLt
  simp only [pageOf, BitVec.extractLsb'_toNat, Nat.shiftRight_eq_div_pow]
  omega

/-- The first byte of page `j` of a half. -/
theorem pageStart_toNat (e : TlbEntry) (odd : Bool) {j : Nat} (hj : j < halfPages e) :
    ((half e odd).start + BitVec.ofNat 32 (j * 4096)).toNat = (firstPage e odd + j) * 4096 := by
  have h0 := half_start_toNat e odd
  have h1 := pair_fits e
  have h3 : firstPage e odd ≤ pairPage e + halfPages e := by unfold firstPage; split <;> omega
  rw [BitVec.toNat_add, h0, BitVec.toNat_ofNat]
  omega

theorem pageStarts_half (e : TlbEntry) (odd : Bool) :
    pageStarts (half e odd) =
      (List.range (halfPages e)).map fun j => (half e odd).start + BitVec.ofNat 32 (j * 4096) := by
  have h0 := half_start_toNat e odd
  have h4 := half_stop_toNat e odd
  have h1 := pair_fits e
  have h2 : 1 ≤ halfPages e := by unfold halfPages; omega
  have h3 : firstPage e odd ≤ pairPage e + halfPages e := by unfold firstPage; split <;> omega
  have h : (((half e odd).stop - (half e odd).start) >>> 12).toNat + 1 = halfPages e := by
    rw [BitVec.toNat_ushiftRight, BitVec.toNat_sub, h0, h4, Nat.shiftRight_eq_div_pow]
    omega
  rw [pageStarts, h]

/-- A page of a half is the page of one of its starts. -/
theorem mem_pageStarts_iff (e : TlbEntry) (odd : Bool) (va : Word) :
    (∃ p ∈ pageStarts (half e odd), pageOf p = pageOf va) ↔
      (half e odd).start.toNat ≤ va.toNat ∧ va.toNat ≤ (half e odd).stop.toNat := by
  have h0 := half_start_toNat e odd
  have h4 := half_stop_toNat e odd
  have h2 : 1 ≤ halfPages e := by unfold halfPages; omega
  rw [pageStarts_half]
  simp only [List.mem_map, List.mem_range, pageOf_eq]
  constructor
  · rintro ⟨p, ⟨j, hj, rfl⟩, h⟩
    rw [pageStart_toNat e odd hj] at h
    omega
  · rintro ⟨ha, hb⟩
    refine ⟨_, ⟨va.toNat / 4096 - firstPage e odd, by omega, rfl⟩, ?_⟩
    rw [pageStart_toNat e odd (by omega)]
    omega

/-- Every address of a page is entered as the physical page of that page's start. -/
theorem cellOf_eq (e : TlbEntry) (odd : Bool) {p va : Word} (hp : p ∈ pageStarts (half e odd))
    (h : pageOf p = pageOf va) :
    cellOf (half e odd) p = ((half e odd).phys + (va - (half e odd).start)).extractLsb' 12 20 := by
  have h0 := half_start_toNat e odd
  have h1 := pair_fits e
  have h3 : firstPage e odd ≤ pairPage e + halfPages e := by unfold firstPage; split <;> omega
  rw [pageStarts_half] at hp
  simp only [List.mem_map, List.mem_range] at hp
  obtain ⟨j, hj, rfl⟩ := hp
  rw [pageOf_eq, pageOf_eq, pageStart_toNat e odd hj] at h
  have hphys : ∃ f, f < 1048576 ∧ (half e odd).phys.toNat = f * 4096 := by
    refine ⟨(if odd then e.pfn1 else e.pfn0).toNat, (if odd then e.pfn1 else e.pfn0).isLt, ?_⟩
    have := (if odd then e.pfn1 else e.pfn0).isLt
    simp only [half, BitVec.toNat_shiftLeft, BitVec.toNat_setWidth, Nat.shiftLeft_eq]
    omega
  obtain ⟨f, hf, hphys⟩ := hphys
  have hva := va.isLt
  apply BitVec.eq_of_toNat_eq
  simp only [cellOf, BitVec.extractLsb'_toNat, BitVec.toNat_add, BitVec.toNat_sub, hphys, h0, BitVec.toNat_ofNat,
    Nat.shiftRight_eq_div_pow]
  omega

/-! Filling and clearing -/

variable {α : Type}

theorem get_foldl_put_of_not (f : Word → α) {k : Nat} {ps : List Word} (h : ∀ p ∈ ps, pageOf p ≠ k)
    (l : List (Nat × α)) : Table.get k (ps.foldl (fun l p => Table.put (pageOf p) (f p) l) l) = Table.get k l := by
  induction ps generalizing l with
  | nil => rfl
  | cons p ps ih =>
    rw [List.foldl_cons, ih fun q hq => h q (List.mem_cons_of_mem _ hq), Table.get_put,
      if_neg fun e => h p List.mem_cons_self e.symm]

theorem get_foldl_put_of_mem (f : Word → α) {k : Nat} {v : α} {ps : List Word} (hv : ∀ p ∈ ps, pageOf p = k → f p = v)
    (h : ∃ p ∈ ps, pageOf p = k) (l : List (Nat × α)) :
    Table.get k (ps.foldl (fun l p => Table.put (pageOf p) (f p) l) l) = some v := by
  induction ps generalizing l with
  | nil => simp at h
  | cons p ps ih =>
    rw [List.foldl_cons]
    by_cases hm : ∃ q ∈ ps, pageOf q = k
    · exact ih (fun q hq => hv q (List.mem_cons_of_mem _ hq)) hm _
    · have hp : pageOf p = k := by
        obtain ⟨q, hq, hk⟩ := h
        rcases List.mem_cons.1 hq with rfl | hq
        · exact hk
        · exact absurd ⟨q, hq, hk⟩ hm
      rw [get_foldl_put_of_not f (fun q hq hk => hm ⟨q, hq, hk⟩), Table.get_put, if_pos hp.symm,
        hv p List.mem_cons_self hp]

theorem get_foldl_erase (k : Nat) (ps : List Word) (l : List (Nat × α)) :
    Table.get k (ps.foldl (fun l p => Table.erase (pageOf p) l) l) =
      if ∃ p ∈ ps, pageOf p = k then none else Table.get k l := by
  induction ps generalizing l with
  | nil => simp
  | cons p ps ih =>
    rw [List.foldl_cons, ih, Table.get_erase]
    by_cases hm : ∃ q ∈ ps, pageOf q = k
    · obtain ⟨q, hq, hk⟩ := hm
      rw [if_pos ⟨q, hq, hk⟩, if_pos ⟨q, List.mem_cons_of_mem _ hq, hk⟩]
    · rw [if_neg hm]
      by_cases hp : k = pageOf p
      · rw [if_pos hp, if_pos ⟨p, List.mem_cons_self, hp.symm⟩]
      · rw [if_neg hp, if_neg]
        rintro ⟨q, hq, hk⟩
        rcases List.mem_cons.1 hq with rfl | hq
        · exact hp hk.symm
        · exact hm ⟨q, hq, hk⟩

/-- The cell of an address after a half's pages are entered (R226). -/
theorem get_fillPages (e : TlbEntry) (odd : Bool) (va : Word) (l : List (Nat × BitVec 20)) :
    Table.get (pageOf va) (fillPages (half e odd) l) =
      if (half e odd).start.toNat ≤ va.toNat ∧ va.toNat ≤ (half e odd).stop.toNat then
        some (((half e odd).phys + (va - (half e odd).start)).extractLsb' 12 20)
      else Table.get (pageOf va) l := by
  unfold fillPages
  split <;> rename_i h
  · exact get_foldl_put_of_mem _ (fun p hp hk => cellOf_eq e odd hp hk) ((mem_pageStarts_iff e odd va).2 h) l
  · exact get_foldl_put_of_not _ (fun p hp hk => h ((mem_pageStarts_iff e odd va).1 ⟨p, hp, hk⟩)) l

/-- The cell of an address after a half's pages are cleared (R227). -/
theorem get_clearPages (e : TlbEntry) (odd : Bool) (va : Word) (l : List (Nat × BitVec 20)) :
    Table.get (pageOf va) (clearPages (half e odd) l) =
      if (half e odd).start.toNat ≤ va.toNat ∧ va.toNat ≤ (half e odd).stop.toNat then none
      else Table.get (pageOf va) l := by
  unfold clearPages
  rw [get_foldl_erase]
  simp only [mem_pageStarts_iff]

theorem sorted_fillPages (r : HalfRange) {l : List (Nat × BitVec 20)} (h : Table.Sorted l) :
    Table.Sorted (fillPages r l) := by
  unfold fillPages
  induction pageStarts r generalizing l with
  | nil => exact h
  | cons p ps ih => exact ih (Table.sorted_put _ _ h)

theorem sorted_clearPages (r : HalfRange) {l : List (Nat × BitVec 20)} (h : Table.Sorted l) :
    Table.Sorted (clearPages r l) := by
  unfold clearPages
  induction pageStarts r generalizing l with
  | nil => exact h
  | cons p ps ih => exact ih (Table.sorted_erase _ h)

end Sys2Proof.Machine
end

