-- ==== Sys2Proof/Laws/Queue.lean ====
section
/-! SUPPORT. The event queue: where a node goes, what a pop and a cancel take, and that each keeps the queue's invariant. -/

namespace Sys2Proof.Machine

/-- `due` non-decreasing. -/
abbrev Queue.Sorted (q : List Node) : Prop := (q.map Node.due).Pairwise (· ≤ ·)

theorem Queue.sorted_cons {n : Node} {q : List Node} :
    Queue.Sorted (n :: q) ↔ (∀ m ∈ q, n.due ≤ m.due) ∧ Queue.Sorted q := by
  simp [Queue.Sorted, List.pairwise_cons]

theorem Queue.sorted_sublist {q r : List Node} (h : q.Sublist r) (hr : Queue.Sorted r) : Queue.Sorted q :=
  List.Pairwise.sublist (h.map _) hr

theorem Queue.wf_sublist {q r : List Node} (h : q.Sublist r) (hr : Queue.wf r) : Queue.wf q :=
  ⟨Nat.le_trans h.length_le hr.1, Queue.sorted_sublist h hr.2⟩

/-- The nodes of a sorted queue due by `now` are its head. -/
theorem Queue.split_at_due {q : List Node} (now : Nat) (h : Queue.Sorted q) :
    q.takeWhile (fun n => n.due ≤ now) = q.filter (fun n => n.due ≤ now) ∧
      q.dropWhile (fun n => n.due ≤ now) = q.filter (fun n => now < n.due) ∧
      q.take (q.countP fun n => n.due ≤ now) = q.filter (fun n => n.due ≤ now) ∧
      q.drop (q.countP fun n => n.due ≤ now) = q.filter (fun n => now < n.due) := by
  induction q with
  | nil => simp
  | cons n q ih =>
    obtain ⟨hn, hq⟩ := Queue.sorted_cons.1 h
    obtain ⟨h1, h2, h3, h4⟩ := ih hq
    by_cases hd : n.due ≤ now
    · have hd' : ¬now < n.due := by omega
      simp [hd, hd', h1, h2, h3, h4]
    · have hd' : now < n.due := by omega
      have later : ∀ m ∈ q, now < m.due := fun m hm => Nat.lt_of_lt_of_le hd' (hn m hm)
      have none : q.filter (fun n => decide (n.due ≤ now)) = [] := by
        rw [List.filter_eq_nil_iff]
        intro m hm
        simpa using later m hm
      have all : q.filter (fun n => decide (now < n.due)) = q := by
        rw [List.filter_eq_self]
        intro m hm
        simpa using later m hm
      have count : q.countP (fun n => decide (n.due ≤ now)) = 0 := by rw [List.countP_eq_length_filter, none]; rfl
      simp [hd, hd', none, all, count]

theorem Queue.dueNodes_eq_filter {q : List Node} (now : Nat) (h : Queue.Sorted q) :
    Queue.dueNodes now q = q.filter fun n => n.due ≤ now := (Queue.split_at_due now h).1

theorem Queue.afterPop_eq_filter {q : List Node} (now : Nat) (h : Queue.Sorted q) :
    Queue.afterPop now q = q.filter fun n => now < n.due := (Queue.split_at_due now h).2.1

/-- A node goes after every node not later than it and before the later ones (R311). -/
theorem Queue.insert_eq {q : List Node} (n : Node) (h : Queue.Sorted q) :
    Queue.insert n q = (q.filter fun m => m.due ≤ n.due) ++ n :: (q.filter fun m => n.due < m.due) := by
  simp only [Queue.insert, (Queue.split_at_due n.due h).2.2]

theorem Queue.insert_perm (n : Node) (q : List Node) : (Queue.insert n q).Perm (n :: q) := by
  simp only [Queue.insert]
  refine List.perm_middle.trans (List.Perm.cons _ ?_)
  rw [List.take_append_drop]

theorem Queue.insert_length (n : Node) (q : List Node) : (Queue.insert n q).length = q.length + 1 :=
  (Queue.insert_perm n q).length_eq

theorem Queue.sorted_insert {q : List Node} (n : Node) (h : Queue.Sorted q) : Queue.Sorted (Queue.insert n q) := by
  rw [Queue.insert_eq n h, Queue.Sorted, List.map_append, List.pairwise_append]
  refine ⟨Queue.sorted_sublist List.filter_sublist h, Queue.sorted_cons.2 ⟨fun m hm => ?_,
    Queue.sorted_sublist List.filter_sublist h⟩, ?_⟩
  · have := (List.mem_filter.1 hm).2
    simp at this
    omega
  · simp only [List.mem_map, List.mem_filter, List.mem_cons, decide_eq_true_eq]
    rintro a ⟨x, ⟨_, hx⟩, rfl⟩ b ⟨y, rfl | ⟨_, hy⟩, rfl⟩ <;> omega

theorem Queue.wf_insert {q : List Node} (n : Node) (hl : q.length < queueCap) (h : Queue.wf q) :
    Queue.wf (Queue.insert n q) :=
  ⟨by rw [Queue.insert_length]; omega, Queue.sorted_insert n h.2⟩

/-- What a filter that does not take the new node sees. -/
theorem Queue.filter_insert_of_not {p : Node → Bool} {n : Node} (hn : p n = false) (q : List Node) :
    (Queue.insert n q).filter p = q.filter p := by
  simp only [Queue.insert, List.filter_append, List.filter_cons, hn, Bool.false_eq_true, if_false]
  rw [← List.filter_append, List.take_append_drop]

/-- What a filter that takes the new node and none of the queue sees. -/
theorem Queue.filter_insert_of_nil {p : Node → Bool} {n : Node} {q : List Node} (hn : p n = true)
    (hq : q.filter p = []) : (Queue.insert n q).filter p = [n] := by
  have h := (Queue.insert_perm n q).filter p
  rw [List.filter_cons, if_pos hn, hq] at h
  exact List.perm_singleton.1 h

theorem Queue.wf_afterPop {q : List Node} (now : Nat) (h : Queue.wf q) : Queue.wf (Queue.afterPop now q) :=
  Queue.wf_sublist (List.dropWhile_suffix _).sublist h

theorem Queue.wf_without {q : List Node} (type : EventType) (h : Queue.wf q) : Queue.wf (Queue.without type q) :=
  Queue.wf_sublist List.filter_sublist h

/-- Everything `schedule` can do (R311, R312). -/
theorem schedule_cases (type : EventType) (delta : Nat) (s : State) :
    (queueCap ≤ s.queue.length ∧
      schedule type delta s = ({ s with faults := { s.faults with queueFull := true } }, .queueFull)) ∨
    (s.queue.length < queueCap ∧
      schedule type delta s = ({ s with queue := Queue.insert ⟨type, s.time + delta⟩ s.queue }, .ok)) := by
  unfold schedule
  split
  · exact .inl ⟨‹_›, rfl⟩
  · exact .inr ⟨by omega, rfl⟩

theorem wf_schedule {s : State} (type : EventType) (delta : Nat) (h : Queue.wf s.queue) :
    Queue.wf (schedule type delta s).1.queue := by
  rcases schedule_cases type delta s with ⟨_, e⟩ | ⟨hl, e⟩ <;> rw [e]
  · exact h
  · exact Queue.wf_insert _ hl h

end Sys2Proof.Machine
end

