-- ==== Sys2Proof/Laws/Ops.lean ====
section
/-! SUPPORT. One lemma per shared operation: everything it can do to the parts of the state it touches. -/

namespace Sys2Proof.Machine

/-! General registers -/

@[simp] theorem readX_zero (s : State) : s.readX 0 = 0 := rfl

@[simp] theorem writeX_zero (s : State) (v : Dword) : s.writeX 0 v = s := rfl

theorem readX_writeX (s : State) {i : RegNum} (j : RegNum) (v : Dword) (hi : i ≠ 0) :
    (s.writeX i v).readX j = if j = i then v else s.readX j := by
  by_cases hj : j = 0
  · subst hj
    rw [if_neg (Ne.symm hi)]
    rfl
  · simp only [State.readX, State.writeX, if_neg hi, if_neg hj, Vector.getElem_set]
    by_cases h : j = i
    · subst h
      simp
    · have : i.toNat ≠ j.toNat := fun e => h (BitVec.eq_of_toNat_eq e.symm)
      simp [h, this]

/-! The timer -/

theorem compareDelta_pos (compare count : Word) : 1 ≤ compareDelta compare count := by
  unfold compareDelta
  omega

theorem compareDelta_le (compare count : Word) : compareDelta compare count ≤ 4294967296 := by
  have := (compare - count - 1).isLt
  unfold compareDelta
  omega

/-- Count reaches Compare after `compareDelta` ticks. -/
theorem count_add_compareDelta (compare count : Word) :
    (count.toNat + compareDelta compare count) % 4294967296 = compare.toNat := by
  have h1 := compare.isLt
  have h2 := count.isLt
  unfold compareDelta
  simp only [BitVec.toNat_sub, show (1 : Word).toNat = 1 from rfl]
  omega

/-- A sample moves block time and, modulo 2^32, Count by the same number of ticks. -/
theorem countSample_ticks (p : Word) (s : State) :
    ∃ d, (countSample p s).time = s.time + d ∧ (countSample p s).cp0.count = s.cp0.count + BitVec.ofNat 32 d :=
  ⟨_, rfl, rfl⟩

/-- Everything `resched_compare()` can do: nothing but the queue, or with a full pool nothing but F_QUEUE_FULL (R392, R312). -/
theorem reschedCompare_cases (s : State) :
    (queueCap ≤ s.queue.length ∧ reschedCompare s = { s with faults := { s.faults with queueFull := true } }) ∨
    (s.queue.length < queueCap ∧
      reschedCompare s =
        { s with queue := Queue.insert ⟨.compare, s.time + compareDelta s.cp0.compare s.cp0.count⟩ s.queue }) := by
  unfold reschedCompare
  rcases schedule_cases .compare (compareDelta s.cp0.compare s.cp0.count) s with ⟨hl, e⟩ | ⟨hl, e⟩
  · exact .inl ⟨hl, by rw [e]⟩
  · exact .inr ⟨hl, by rw [e]⟩

/-! Exceptions -/

/-- EXL is set by entry and no other bit of Status changes (R372). -/
theorem enter_status (e : Exc) (s : State) : (enter e s).cp0.status = putBit s.cp0.status 1 true := by
  cases e <;> rfl

theorem enter_epc (e : Exc) (s : State) :
    (enter e s).cp0.epc = if statusExl s.cp0.status then s.cp0.epc else (e.restart s).1 := by
  cases e <;> rfl

theorem enter_pc (e : Exc) (s : State) :
    (enter e s).pc = vectorOf s.cp0.status e.isRefill (statusExl s.cp0.status) := rfl

theorem enter_xs (e : Exc) (s : State) :
    (enter e s).xs = pushSnapshot s.params.excStackDepth ⟨s.cp0.epc, s.cp0.cause, s.cp0.status⟩ s.xs := rfl

/-- Entry's Cause: the CE of a coprocessor-unusable exception, then ExcCode, then BD when EXL was 0 (R372, R378). -/
theorem enter_cause (e : Exc) (s : State) :
    (enter e s).cp0.cause =
      if statusExl s.cp0.status then putExcCode (e.extra s.cp0).cause e.code
      else putBd (putExcCode (e.extra s.cp0).cause e.code) (e.restart s).2 := by
  cases e <;> rfl

theorem enter_excCode (e : Exc) (s : State) : causeExcCode (enter e s).cp0.cause = e.code := by
  rw [enter_cause]
  split <;> simp

/-- Taking an exception changes no interrupt line (R48, R371). -/
theorem enter_ip (e : Exc) (s : State) : causeIp (enter e s).cp0.cause = causeIp s.cp0.cause := by
  rw [enter_cause]
  split <;> cases e <;> simp [Exc.extra]

theorem enter_bd (e : Exc) (s : State) :
    causeBd (enter e s).cp0.cause = if statusExl s.cp0.status then causeBd s.cp0.cause else (e.restart s).2 := by
  rw [enter_cause]
  split <;> cases e <;> simp [Exc.extra]

theorem pushSnapshot_length {depth : Nat} {t : Snapshot} {xs : List Snapshot} (hd : 0 < depth) (h : xs.length ≤ depth) :
    (pushSnapshot depth t xs).length ≤ depth := by
  unfold pushSnapshot
  split <;> simp <;> omega

/-! Moving on -/

theorem advance_of_not_slot {s : State} (h : s.inDelaySlot = false) : s.advance = { s with pc := s.pc + 4 } := by
  simp [State.advance, h]

theorem advance_of_slot {s : State} (h : s.inDelaySlot = true) :
    s.advance =
      { countSample (s.pc + 4) s with pc := s.branchTarget, lastPc := s.branchTarget, inDelaySlot := false } := by
  simp [State.advance, h]

/-! Device collaborators -/

/-- What the calls of a device may change: Cause's external lines, the nodes that are not COMPARE, F_QUEUE_FULL,
the code the engine holds. -/
theorem applyCalls_frame {calls : List DeviceCall} {s t : State} (h : applyCalls calls s = .ok t) :
    t =
      { s with
        cp0 := { s.cp0 with cause := t.cp0.cause }, queue := t.queue
        faults := { s.faults with queueFull := t.faults.queueFull }, heldCode := t.heldCode } := by
  induction calls generalizing s with
  | nil =>
    cases h
    rfl
  | cons c calls ih =>
    cases c with
    | setIp k level =>
      rw [applyCalls] at h
      rw [ih h]
      unfold setIp
      split <;> rfl
    | schedule type delta =>
      rw [applyCalls] at h
      split at h
      · cases h
      · split at h
        · rw [ih h]
          rcases schedule_cases type delta s with ⟨_, e⟩ | ⟨_, e⟩ <;> rw [e]
        · cases h
    | cancel type =>
      rw [applyCalls] at h
      split at h
      · cases h
      · split at h
        · rw [ih h]
          rfl
        · cases h
    | invalidateRange lo hi =>
      rw [applyCalls] at h
      rw [ih h]
      rfl

/-- A property each permitted call keeps is kept by them all. -/
theorem applyCalls_keeps {P : State → Prop} (hip : ∀ s k b, P s → P (setIp k b s))
    (hsch : ∀ s type delta, type ≠ .compare → P s → P (schedule type delta s).1)
    (hcan : ∀ s type, type ≠ .compare → P s → P (cancel type s)) (hinv : ∀ s a b, P s → P (invalidateRange a b s)) {calls : List DeviceCall} {s t : State} (hs : P s)
    (h : applyCalls calls s = .ok t) : P t := by
  induction calls generalizing s with
  | nil =>
    cases h
    exact hs
  | cons c calls ih =>
    cases c with
    | setIp k level => exact ih (hip _ _ _ hs) h
    | schedule type delta =>
      rw [applyCalls] at h
      split at h
      · cases h
      · split at h
        · exact ih (hsch _ _ _ ‹_› hs) h
        · cases h
    | cancel type =>
      rw [applyCalls] at h
      split at h
      · cases h
      · split at h
        · exact ih (hcan _ _ ‹_› hs) h
        · cases h
    | invalidateRange lo hi => exact ih (hinv _ _ _ hs) h

/-- Two lists of calls, one after the other. -/
theorem applyCalls_append (a b : List DeviceCall) (s : State) :
    applyCalls (a ++ b) s = (applyCalls a s).bind (applyCalls b) := by
  induction a generalizing s with
  | nil => rfl
  | cons c a ih =>
    cases c <;> simp only [List.cons_append, applyCalls, ih]
    all_goals repeat' split
    all_goals rfl

end Sys2Proof.Machine
end

