-- ==== Sys2Proof/Laws/PerInstr.lean ====
section
/-! SUPPORT. A statement made for every instruction, one lemma per constructor: the word of a well-formed instruction selects
that instruction's row of spec/30_encoding.md R153. -/

namespace Sys2Proof.Laws

/-- The mask of format M keeps the opcode, the move kind and the zero field. -/
theorem formatM_masked (op : BitVec 6) (rs rt rd : RegNum) :
    formatM op rs rt rd &&& 0xFFE007FF = formatM op rs 0 0 := by
  have mask : ∀ k : Fin 32, (0xFFE007FF : Word).getLsbD k = decide (k.val < 11 ∨ 21 ≤ k.val) := by decide
  apply BitVec.eq_of_getLsbD_eq
  intro j hj
  rw [BitVec.getLsbD_and, mask ⟨j, hj⟩]
  simp only [formatM, BitVec.getLsbD_append]
  by_cases h1 : j < 11
  · simp [h1]
  · by_cases h2 : j < 21
    · by_cases h3 : j < 16
      · have h3' : j - 11 < 5 := by omega
        have h2' : ¬21 ≤ j := by omega
        simp [h1, h3', h2']
      · have h3' : ¬j - 11 < 5 := by omega
        have h4' : j - 11 - 5 < 5 := by omega
        have h2' : ¬21 ≤ j := by omega
        simp [h1, h3', h4', h2']
    · have h3' : ¬j - 11 < 5 := by omega
      have h4' : ¬j - 11 - 5 < 5 := by omega
      have h2' : 21 ≤ j := by omega
      simp [h1, h3', h4', h2']

/-- The mask of format I keeps the opcode. -/
theorem formatI_masked (op : BitVec 6) (base ft : RegNum) (offset : Int) :
    formatI op base ft offset &&& 0xFC000000 = formatI op 0 0 0 := by
  have mask : ∀ k : Fin 32, (0xFC000000 : Word).getLsbD k = decide (26 ≤ k.val) := by decide
  apply BitVec.eq_of_getLsbD_eq
  intro j hj
  rw [BitVec.getLsbD_and, mask ⟨j, hj⟩]
  simp only [formatI, BitVec.getLsbD_append]
  by_cases h1 : j < 16
  · have h : ¬26 ≤ j := by omega
    simp [h1, h]
  · by_cases h2 : j - 16 < 5
    · have h : ¬26 ≤ j := by omega
      simp [h1, h2, h]
    · by_cases h3 : j - 16 - 5 < 5
      · have h : ¬26 ≤ j := by omega
        simp [h1, h2, h3, h]
      · have h : 26 ≤ j := by omega
        simp [h1, h2, h3, h]

/-- The mask of format S keeps the opcode and the funct. -/
theorem formatS_masked (code : Nat) (funct : BitVec 6) : formatS code funct &&& 0xFC00003F = formatS 0 funct := by
  have mask : ∀ k : Fin 32, (0xFC00003F : Word).getLsbD k = decide (k.val < 6 ∨ 26 ≤ k.val) := by decide
  apply BitVec.eq_of_getLsbD_eq
  intro j hj
  rw [BitVec.getLsbD_and, mask ⟨j, hj⟩]
  simp only [formatS, BitVec.getLsbD_append]
  by_cases h1 : j < 6
  · simp [h1]
  · by_cases h2 : j - 6 < 20
    · have h : ¬26 ≤ j := by omega
      simp [h1, h2, h]
    · have h : 26 ≤ j := by omega
      simp [h1, h2, h]

namespace EncodingSelectsRow

/-- The word of a well-formed instruction selects its row. -/
def Statement (i : Instr) : Prop := i.wellFormed = true → selectsRowOf (encode i) i

theorem mfc0 (rt rd : RegNum) : Statement (.mfc0 rt rd) := fun _ => formatM_masked _ _ _ _
theorem dmfc0 (rt rd : RegNum) : Statement (.dmfc0 rt rd) := fun _ => formatM_masked _ _ _ _
theorem mtc0 (rt rd : RegNum) : Statement (.mtc0 rt rd) := fun _ => formatM_masked _ _ _ _
theorem dmtc0 (rt rd : RegNum) : Statement (.dmtc0 rt rd) := fun _ => formatM_masked _ _ _ _
theorem tlbr : Statement .tlbr := fun _ => by decide
theorem tlbwi : Statement .tlbwi := fun _ => by decide
theorem tlbwr : Statement .tlbwr := fun _ => by decide
theorem tlbp : Statement .tlbp := fun _ => by decide
theorem eret : Statement .eret := fun _ => by decide
theorem syscall (code : Nat) : Statement (.syscall code) := fun _ => formatS_masked _ _
theorem brk (code : Nat) : Statement (.brk code) := fun _ => formatS_masked _ _
theorem mfc1 (rt fs : RegNum) : Statement (.mfc1 rt fs) := fun _ => formatM_masked _ _ _ _
theorem dmfc1 (rt fs : RegNum) : Statement (.dmfc1 rt fs) := fun _ => formatM_masked _ _ _ _
theorem cfc1 (rt fs : RegNum) : Statement (.cfc1 rt fs) := fun _ => formatM_masked _ _ _ _
theorem mtc1 (rt fs : RegNum) : Statement (.mtc1 rt fs) := fun _ => formatM_masked _ _ _ _
theorem dmtc1 (rt fs : RegNum) : Statement (.dmtc1 rt fs) := fun _ => formatM_masked _ _ _ _
theorem ctc1 (rt fs : RegNum) : Statement (.ctc1 rt fs) := fun _ => formatM_masked _ _ _ _
theorem lwc1 (ft : RegNum) (offset : Int) (base : RegNum) : Statement (.lwc1 ft offset base) :=
  fun _ => formatI_masked _ _ _ _
theorem ldc1 (ft : RegNum) (offset : Int) (base : RegNum) : Statement (.ldc1 ft offset base) :=
  fun _ => formatI_masked _ _ _ _
theorem swc1 (ft : RegNum) (offset : Int) (base : RegNum) : Statement (.swc1 ft offset base) :=
  fun _ => formatI_masked _ _ _ _
theorem sdc1 (ft : RegNum) (offset : Int) (base : RegNum) : Statement (.sdc1 ft offset base) :=
  fun _ => formatI_masked _ _ _ _

end EncodingSelectsRow

end Sys2Proof.Laws
end

