-- ==== Sys2Proof/Laws/Step.lean ====
section
/-! SUPPORT. What a step can do, said once: a property that every operation keeps is kept by every step. -/

namespace Sys2Proof.Machine

/-- Each operation a step is made of keeps `P`. -/
structure KeptByOperations (P : State → Prop) : Prop where
  sample : ∀ s, P s → P (countSample s.pc s)
  enter : ∀ e s, P s → P (enter e s)
  eret : ∀ s, P s → P (returnFromException s)
  undefined : ∀ s, P s → P s.faultUndefined
  advance : ∀ s, P s → P s.advance
  writeX : ∀ s i v, P s → P (s.writeX i v)
  writeS : ∀ s i v, P s → P (s.writeS i v)
  writeD : ∀ s i v, P s → P (s.writeD i v)
  fcr31 : ∀ (s : State) (v : Word), P s → P { s with fcr31 := v &&& fcr31Mask }
  cp0Write : ∀ r v s, P s → P (cp0Write r v s)
  draw : ∀ (s : State), P s → P { s with draws := s.draws + 1 }
  held : ∀ (s : State) c, (Table.Sorted s.heldCode → Table.Sorted c) → P s → P { s with heldCode := c }
  tlbRead : ∀ e s, P s → P { s with cp0 := regsFromEntry e s.cp0 }
  probe : ∀ s, P s → P (probe s)
  tlbWrite : ∀ i s, P s → P (tlbWrite i s)
  memWord : ∀ (s : State) a v, P s → P { s with mem := Memory.writeWord s.mem a v }
  memDword : ∀ (s : State) a v, P s → P { s with mem := Memory.writeDword s.mem a v }
  device : ∀ pa s t v, P s → deviceAccess pa s = .ok (t, v) → P t
  service : ∀ s t, P s → serviceEvents s = .ok t → P t

namespace KeptByOperations

variable {P : State → Prop} (k : KeptByOperations P)
include k

theorem memReadWord {pa : Word} {s t : State} {v : Word} (hs : P s) (h : memReadWord pa s = .ok (t, v)) : P t := by
  unfold Machine.memReadWord at h
  split at h
  · split at h
    · cases h
      exact k.device _ _ _ _ hs ‹_›
    · cases h
  · cases h
    exact hs

theorem fetchWord {pa : Word} {s t : State} {w : Word} (hs : P s) (h : fetchWord pa s = .ok (t, w)) : P t := by
  have hd : P (useInvalidateDraw s) := k.held { s with draws := s.draws + 1 } _ (sorted_useInvalidateDraw (s := s)) (k.draw _ hs)
  have compiled : fetchCompiled pa s = .ok (t, w) → P t := by
    intro h
    obtain ⟨-, rfl⟩ | ⟨-, u, hu, rfl⟩ := fetchCompiled_cases h
    · exact hd
    · exact k.held _ _ (fun hc => sorted_compileWords _ _ _ (sorted_holdWord _ _ hc)) (k.memReadWord hd hu)
  unfold Machine.fetchWord at h
  split at h
  · exact k.memReadWord hs h
  · exact compiled h
  · exact compiled h

theorem memReadDword {pa : Word} {s t : State} {v : Dword} (hs : P s) (h : memReadDword pa s = .ok (t, v)) : P t := by
  unfold Machine.memReadDword at h
  split at h
  · exact k.device _ _ _ _ hs h
  · cases h
    exact hs

theorem memWriteWord {pa v : Word} {s t : State} (hs : P s) (h : memWriteWord pa v s = .ok t) : P t := by
  unfold Machine.memWriteWord at h
  split at h
  · split at h
    · cases h
      exact k.device _ _ _ _ hs ‹_›
    · cases h
  · cases h
    exact k.memWord _ _ _ hs

theorem memWriteDword {pa : Word} {v : Dword} {s t : State} (hs : P s) (h : memWriteDword pa v s = .ok t) : P t := by
  unfold Machine.memWriteDword at h
  split at h
  · split at h
    · cases h
      exact k.device _ _ _ _ hs ‹_›
    · cases h
  · cases h
    exact k.memDword _ _ _ hs

theorem requireCp0 {s t : State} {rest : State → Result} (hs : P s) (h : requireCp0 s rest = .next t)
    (hr : rest s = .next t → P t) : P t := by
  unfold Machine.requireCp0 at h
  split at h
  · exact hr h
  · cases h
    exact k.enter _ _ hs

theorem requireCp1 {s t : State} {rest : State → Result} (hs : P s) (h : requireCp1 s rest = .next t)
    (hr : rest s = .next t → P t) : P t := by
  unfold Machine.requireCp1 at h
  split at h
  · exact hr h
  · cases h
    exact k.enter _ _ hs

theorem withDataAddress {va : Word} {al : Bool} {kind : Access} {s t : State} {access : Word → Result} (hs : P s)
    (h : withDataAddress va al kind s access = .next t) (hr : ∀ pa, access pa = .next t → P t) : P t := by
  unfold Machine.withDataAddress at h
  split at h
  · exact hr _ h
  · cases h
    exact k.enter _ _ hs

theorem cp0Read (r : Cp0Reg) {s : State} (hs : P s) : P (cp0Read r s).1 := by
  cases r
  case random => exact k.draw _ hs
  case count => exact k.sample _ hs
  case compare => exact k.sample _ hs
  all_goals exact hs

theorem moveFromCp0 (rt rd : RegNum) {s : State} (hs : P s) : P (moveFromCp0 rt rd s) := by
  unfold Machine.moveFromCp0
  split
  · exact k.writeX _ _ _ (k.cp0Read _ hs)
  · exact hs

theorem moveToCp0 (rt rd : RegNum) {s : State} (hs : P s) : P (moveToCp0 rt rd s) := by
  unfold Machine.moveToCp0
  split
  · exact k.cp0Write _ _ _ hs
  · exact hs

/-- `P` is kept by every instruction. -/
theorem exec {i : Instr} {s t : State} (hs : P s) (h : exec i s = .next t) : P t := by
  cases i <;> simp only [Machine.exec] at h
  case mfc0 rt rd | dmfc0 rt rd =>
    exact k.requireCp0 hs h fun h => by cases h; exact k.advance _ (k.moveFromCp0 rt rd hs)
  case mtc0 rt rd | dmtc0 rt rd =>
    exact k.requireCp0 hs h fun h => by cases h; exact k.advance _ (k.moveToCp0 rt rd hs)
  case tlbr =>
    refine k.requireCp0 hs h fun h => ?_
    cases h
    unfold readIndexed
    split
    · exact k.advance _ (k.tlbRead _ _ hs)
    · exact k.advance _ hs
  case tlbwi =>
    refine k.requireCp0 hs h fun h => ?_
    cases h
    unfold writeIndexed
    split
    · exact k.advance _ (k.tlbWrite _ _ hs)
    · exact k.advance _ hs
  case tlbwr => exact k.requireCp0 hs h fun h => by cases h; exact k.advance _ (k.tlbWrite _ _ (k.draw _ hs))
  case tlbp => exact k.requireCp0 hs h fun h => by cases h; exact k.advance _ (k.probe _ hs)
  case eret =>
    refine k.requireCp0 hs h fun h => ?_
    cases h
    split
    · exact k.eret _ (k.undefined _ hs)
    · exact k.eret _ hs
  case syscall | brk =>
    cases h
    exact k.enter _ _ hs
  case mfc1 | dmfc1 => exact k.requireCp1 hs h fun h => by cases h; exact k.advance _ (k.writeX _ _ _ hs)
  case mtc1 => exact k.requireCp1 hs h fun h => by cases h; exact k.advance _ (k.writeS _ _ _ hs)
  case dmtc1 => exact k.requireCp1 hs h fun h => by cases h; exact k.advance _ (k.writeD _ _ _ hs)
  case cfc1 =>
    refine k.requireCp1 hs h fun h => ?_
    cases h
    unfold moveFromControl
    split
    · exact k.advance _ (k.writeX _ _ _ hs)
    · exact k.advance _ hs
  case ctc1 =>
    refine k.requireCp1 hs h fun h => ?_
    cases h
    unfold moveToControl
    split
    · exact k.advance _ (k.fcr31 _ _ hs)
    · exact k.advance _ hs
  case lwc1 =>
    refine k.requireCp1 hs h fun h => k.withDataAddress hs h fun pa h => ?_
    split at h
    · cases h
      exact k.advance _ (k.writeS _ _ _ (k.memReadWord hs ‹_›))
    · cases h
  case ldc1 =>
    refine k.requireCp1 hs h fun h => k.withDataAddress hs h fun pa h => ?_
    split at h
    · cases h
      exact k.advance _ (k.writeD _ _ _ (k.memReadDword hs ‹_›))
    · cases h
  case swc1 =>
    refine k.requireCp1 hs h fun h => k.withDataAddress hs h fun pa h => ?_
    split at h
    · cases h
      exact k.advance _ (k.memWriteWord hs ‹_›)
    · cases h
  case sdc1 =>
    refine k.requireCp1 hs h fun h => k.withDataAddress hs h fun pa h => ?_
    split at h
    · cases h
      exact k.advance _ (k.memWriteDword hs ‹_›)
    · cases h

theorem runWord {w : Word} {s t : State} (hs : P s) (h : runWord w s = .next t) : P t := by
  unfold Machine.runWord at h
  split at h
  · exact k.exec hs h
  · exact k.requireCp0 hs h fun h => by cases h; exact k.advance _ hs
  · cases h
  · cases h
  · cases h

theorem usePollDraw {s : State} (hs : P s) : P (usePollDraw s) := by
  unfold Machine.usePollDraw
  split
  · exact hs
  · exact k.draw _ hs
  · exact k.draw _ hs

/-- `P` is kept by every step. -/
theorem step {s t : State} (hs : P s) (h : step s = .next t) : P t := by
  have fetched : ∀ u, P u → fetchAndRun u = .next t → P t := by
    intro u hu h
    unfold fetchAndRun fetch at h
    split at h
    · rename_i hf
      split at hf
      · cases hf
      · split at hf
        · cases hf
          exact k.runWord (k.fetchWord hu ‹_›) h
        · cases hf
    · rename_i hf
      cases h
      split at hf
      · cases hf
        exact k.enter _ _ hu
      · split at hf <;> cases hf
    · cases h
  unfold Machine.step at h
  split at h
  · cases h
  · split at h
    · rename_i hb
      unfold boundary at hb
      split at hb
      · split at hb
        · split at hb
          · cases hb
          · cases hb
            exact fetched _ (k.service _ _ (k.usePollDraw hs) ‹_›) h
        · cases hb
      · cases hb
        exact fetched _ (k.usePollDraw hs) h
    · rename_i hb
      cases h
      unfold boundary at hb
      split at hb
      · split at hb
        · split at hb
          · rename_i u hu hd
            cases hb
            rw [checkInterrupt, if_pos hd]
            exact k.enter _ _ (k.service _ u (k.usePollDraw hs) hu)
          · cases hb
        · cases hb
      · cases hb
    · cases h

end KeptByOperations

end Sys2Proof.Machine
end

