-- ==== Sys2Proof/Tests/Slice0.lean ====
section
/-! SUPPORT. Tests. Expected values come from spec/95_test_vectors.md (the vector is named V-… or the program P…) or from words
written out bit by bit from spec/30_encoding.md R151 to R153. After them, for each statement with hypotheses, a state and
operands that meet them. -/

namespace Sys2Proof.Tests

set_option Elab.async false

open Sys2Proof Sys2Proof.Machine

/-! ## Helpers -/

/-- The common start state of spec/95_test_vectors.md. -/
def common : State := (powerOn { Params.documentExample with bootAddr := 0x80000400 } ResetInputs.reference).1

def withStatus (v : Word) (s : State) : State := { s with cp0 := { s.cp0 with status := v } }
def withCause (v : Word) (s : State) : State := { s with cp0 := { s.cp0 with cause := v } }
def withIndex (v : Word) (s : State) : State := { s with cp0 := { s.cp0 with index := v } }
def withCompare (v : Word) (s : State) : State := { s with cp0 := { s.cp0 with compare := v } }
def withCount (v : Word) (s : State) : State := { s with cp0 := { s.cp0 with count := v } }
def withWired (v : Word) (s : State) : State := { s with cp0 := { s.cp0 with wired := v } }
def withEntryHi (v : Word) (s : State) : State := { s with cp0 := { s.cp0 with entryHi := v } }
def withEpc (v : Word) (s : State) : State := { s with cp0 := { s.cp0 with epc := v } }
def withFpr (k : Fin 32) (v : Dword) (s : State) : State := { s with fpr := s.fpr.set k v }
def withWord (a v : Word) (s : State) : State := { s with mem := Memory.writeWord s.mem a v }
def withPc (a : Word) (s : State) : State := { s with pc := a, lastPc := a }

/-- The registers `write(i, PM, EH, EL0, EL1)` of the TLB vectors sets. -/
def withTlbRegs (i pm eh e0 e1 : Word) (s : State) : State :=
  { s with cp0 := { s.cp0 with index := i, pageMask := pm, entryHi := eh, entryLo0 := e0, entryLo1 := e1 } }

/-- The effect of a `write(i, PM, EH, EL0, EL1)`. -/
def written (i pm eh e0 e1 : Word) (s : State) : State := writeIndexed (withTlbRegs i pm eh e0 e1 s)

/-- The outcome is a next state with the property. -/
def nextIs (r : Result) (p : State → Bool) : Bool :=
  match r with
  | .next t => p t
  | .fault _ => false
  | .refused _ => false

/-- The outcome is this refusal. -/
def refusedAs (r : Result) (e : Refusal) : Bool :=
  match r with
  | .next _ => false
  | .fault _ => false
  | .refused d => decide (d = e)

theorem eq_next_of_nextIs {r : Result} {p : State → Bool} (h : nextIs r p = true) : ∃ t, r = .next t ∧ p t = true := by
  cases r with
  | next t => exact ⟨t, rfl, h⟩
  | fault _ => cases h
  | refused _ => cases h

theorem eq_refused_of_refusedAs {r : Result} {e : Refusal} (h : refusedAs r e = true) : r = .refused e := by
  cases r with
  | next _ => cases h
  | fault _ => cases h
  | refused d => exact congrArg _ (of_decide_eq_true h)

/-! ## WellFormed: an ill-formed term for each check, refused -/

theorem test_wf_syscall_code : (Instr.syscall 1048576).wellFormed = false ∧ (Instr.syscall 1048575).wellFormed = true := by
  decide
theorem test_wf_break_code : (Instr.brk 1048576).wellFormed = false ∧ (Instr.brk 1048575).wellFormed = true := by decide
theorem test_wf_lwc1_offset :
    (Instr.lwc1 0 32768 0).wellFormed = false ∧ (Instr.lwc1 0 (-32769) 0).wellFormed = false := by decide
theorem test_wf_ldc1_offset :
    (Instr.ldc1 0 32768 0).wellFormed = false ∧ (Instr.ldc1 0 (-32769) 0).wellFormed = false := by decide
theorem test_wf_swc1_offset :
    (Instr.swc1 0 32768 0).wellFormed = false ∧ (Instr.swc1 0 (-32769) 0).wellFormed = false := by decide
theorem test_wf_sdc1_offset :
    (Instr.sdc1 0 32768 0).wellFormed = false ∧ (Instr.sdc1 0 (-32769) 0).wellFormed = false := by decide

/-! ## Decode: each constructor's word, written field by field from R151 and R153 -/

theorem test_decode_mfc0 : decode 0b010000_00000_01000_01100_00000000000 = .instr (.mfc0 8 12) := by decide
theorem test_decode_dmfc0 : decode 0b010000_00001_01000_01110_00000000000 = .instr (.dmfc0 8 14) := by decide
theorem test_decode_mtc0 : decode 0b010000_00100_01001_01010_00000000000 = .instr (.mtc0 9 10) := by decide
theorem test_decode_dmtc0 : decode 0b010000_00101_01001_01110_00000000000 = .instr (.dmtc0 9 14) := by decide
theorem test_decode_tlbr : decode 0b010000_1_0000000000000000000_000001 = .instr .tlbr := by decide
theorem test_decode_tlbwi : decode 0b010000_1_0000000000000000000_000010 = .instr .tlbwi := by decide
theorem test_decode_tlbwr : decode 0b010000_1_0000000000000000000_000110 = .instr .tlbwr := by decide
theorem test_decode_tlbp : decode 0b010000_1_0000000000000000000_001000 = .instr .tlbp := by decide
theorem test_decode_eret : decode 0b010000_1_0000000000000000000_011000 = .instr .eret := by decide
theorem test_decode_syscall : decode 0b000000_10000000000000000001_001100 = .instr (.syscall 524289) := by decide
theorem test_decode_break : decode 0b000000_01000000000000000001_001101 = .instr (.brk 262145) := by decide
theorem test_decode_mfc1 : decode 0b010001_00000_01000_00011_00000000000 = .instr (.mfc1 8 3) := by decide
theorem test_decode_dmfc1 : decode 0b010001_00001_01000_00100_00000000000 = .instr (.dmfc1 8 4) := by decide
theorem test_decode_cfc1 : decode 0b010001_00010_01000_11111_00000000000 = .instr (.cfc1 8 31) := by decide
theorem test_decode_mtc1 : decode 0b010001_00100_01001_00011_00000000000 = .instr (.mtc1 9 3) := by decide
theorem test_decode_dmtc1 : decode 0b010001_00101_01001_00100_00000000000 = .instr (.dmtc1 9 4) := by decide
theorem test_decode_ctc1 : decode 0b010001_00110_01001_11111_00000000000 = .instr (.ctc1 9 31) := by decide
theorem test_decode_lwc1 : decode 0b110001_00100_00010_0000000000010000 = .instr (.lwc1 2 16 4) := by decide
theorem test_decode_ldc1 : decode 0b110101_00100_00010_1111111111111000 = .instr (.ldc1 2 (-8) 4) := by decide
theorem test_decode_swc1 : decode 0b111001_00100_00010_1000000000000000 = .instr (.swc1 2 (-32768) 4) := by decide
theorem test_decode_sdc1 : decode 0b111101_00100_00010_0111111111111111 = .instr (.sdc1 2 32767 4) := by decide

/-- R155 (V-CP0-8), R157, R6: rejected by name, none falling through to a neighbour. -/
theorem test_decode_rejects :
    decode 0x42000010 = .unrecognisedCop0 ∧ decode 0x40000001 = .unrecognisedCop0 ∧ decode 0x40C00000 = .unrecognisedCop0 ∧
    decode 0x46000000 = .unadmittedCop1 ∧ decode 0x44000001 = .unadmittedCop1 ∧ decode 0x00000000 = .notOfBlock ∧
    decode 0x8C820000 = .notOfBlock ∧ decodeBytes [0x40, 0x08, 0x60] = .notFourBytes := by decide

/-- R115: the bytes of a word, the most significant first. -/
theorem test_decode_bytes :
    decodeBytes [0x40, 0x08, 0x60, 0x00] = .instr (.mfc0 8 12) ∧ decodeTableWord 32 0x40086000 = some (.mfc0 8 12) := by
  decide

/-! ## CP0 moves (V-CP0-1 to V-CP0-9) -/

theorem test_mfc0_sign_extends :
    nextIs (exec (.mfc0 8 12) (withStatus 0x80000000 common)) (fun t => t.readX 8 = 0xFFFFFFFF80000000) = true := by
  decide +kernel
theorem test_mfc0_zero_stays :
    nextIs (exec (.mfc0 0 12) (withStatus 0x80000000 common)) (fun t => t.readX 0 = 0 && t.pc = 0x80000404) = true := by
  decide +kernel
theorem test_dmfc0_is_mfc0 :
    nextIs (exec (.dmfc0 8 12) (withStatus 0x80000000 common)) (fun t => t.readX 8 = 0xFFFFFFFF80000000) = true := by
  decide +kernel
/-- V-CP0-4 -/
theorem test_mfc0_count_samples :
    nextIs (exec (.mfc0 8 9) { common with pc := 0x80000410 })
      (fun t => t.readX 8 = 0x5008 && t.cp0.count = 0x5008 && t.time = 8) = true := by decide +kernel
/-- V-CP0-1, Config and Context -/
theorem test_mtc0_write_masks :
    nextIs (exec (.mtc0 9 16) (common.writeX 9 0xFFFFFFFF)) (fun t => t.cp0.config = 0x0F06E46F) = true ∧
    nextIs (exec (.mtc0 9 4) (common.writeX 9 0xFFFFFFFF)) (fun t => t.cp0.context = 0xFFFFFFF0) = true := by
  decide +kernel
/-- V-CP0-5 -/
theorem test_mtc0_count_reschedules :
    nextIs (exec (.mtc0 9 9) { withCompare 0x6000 (common.writeX 9 0x5F00) with queue := [⟨.vi, 50⟩, ⟨.compare, 0x1000⟩] })
      (fun t => t.cp0.count = 0x5F00 && t.time = 0 && t.queue = [⟨.vi, 50⟩, ⟨.compare, 0x100⟩]) = true := by
  decide +kernel
/-- V-CP0-6 -/
theorem test_dmtc0_compare_acknowledges :
    nextIs (exec (.dmtc0 9 11) (withCause 0x00008000 (common.writeX 9 0x5000)))
      (fun t => t.cp0.cause = 0 && t.cp0.compare = 0x5000 && t.queue = [⟨.compare, 0x100000000⟩]) = true := by
  decide +kernel
/-- V-CP0-2 -/
theorem test_dmtc0_status_mask :
    nextIs (exec (.dmtc0 9 12) (common.writeX 9 0xFFFFFFFF)) (fun t => t.cp0.status = 0xFF57FFFF && t.fpr = common.fpr) =
      true := by decide +kernel
/-- V-CP0-8 -/
theorem test_unrecognised_cop0 :
    nextIs (runWord 0x42000010 common) (fun t => t = { common with pc := 0x80000404 }) = true ∧
    nextIs (runWord 0x42000010 (withStatus 0x24000010 common)) (fun t => t.cp0.cause = 0x0000002C) = true := by
  decide +kernel
/-- V-CP0-7 -/
theorem test_compare_delta_table :
    compareDelta 0x6000 0x5000 = 0x1000 ∧ compareDelta 0x5000 0x5000 = 0x100000000 ∧
    compareDelta 0x5000 0x6000 = 0xFFFFF000 ∧ compareDelta 0 0x5000 = 0xFFFFB000 ∧ compareDelta 0 0xFFFFFFFF = 1 := by
  decide

/-! ## TLB (V-TLB-1 to V-TLB-12) -/

/-- V-TLB-1 -/
theorem test_tlbwi_maps :
    nextIs (exec .tlbwi (withTlbRegs 0 0 0 0 0x46 common))
      (fun t => t.lutR = [(1, 1)] && t.lutW = [(1, 1)] && t.tlb[0] = ⟨0, 0, 0, false, 0, 1, 0, 0, false, true, false, true⟩) =
      true ∧
    translateAddress 0x1500 .write (written 0 0 0 0 0x46 common) = .hit 0x1500 ∧
    translateAddress 0x3000 .read (written 0 0 0 0 0x46 common) = .miss (.tlbRefill .read 0x3000) := by decide +kernel
/-- V-TLB-2 -/
theorem test_tlbwi_large_pages :
    (written 0 0x6000 0x00010000 0x00004006 0x00004102 common).lutR =
      [(0x10, 0x100), (0x11, 0x101), (0x12, 0x102), (0x13, 0x103), (0x14, 0x104), (0x15, 0x105), (0x16, 0x106),
        (0x17, 0x107)] ∧
    (written 0 0x6000 0x00010000 0x00004006 0x00004102 common).lutW =
      [(0x10, 0x100), (0x11, 0x101), (0x12, 0x102), (0x13, 0x103)] := by decide +kernel
/-- V-TLB-3, V-TLB-4 -/
theorem test_tlb_hole_and_ceiling :
    (written 0 0 0x80000000 0x46 0x86 common).lutR = [] ∧
    (written 0 0 0 0x00800006 0x007FFFC6 common).lutR = [(1, 0x1FFFF)] := by decide +kernel
/-- V-TLB-5 -/
theorem test_tlb_overlap :
    (written 1 0 0 0 0x1C2 (written 0 0 0 0 0x46 common)).lutR = [(1, 7)] ∧
    (written 1 0 0 0 0x1C2 (written 0 0 0 0 0x46 common)).lutW = [(1, 1)] ∧
    (written 0 0 0x00100000 0 0 (written 1 0 0 0 0x1C2 (written 0 0 0 0 0x46 common))).lutR = [] := by decide +kernel
/-- V-TLB-6, V-TLB-8 -/
theorem test_tlbr_reads_back :
    nextIs (exec .tlbr (written 0 0x6000 0x00016000 0x402 0 common)) (fun t => t.cp0.entryHi = 0x00016000) = true ∧
    nextIs (exec .tlbr (written 0 0 0x000020AA 0x47 0x46 common))
      (fun t => t.cp0.entryLo0 = 0x46 && t.cp0.entryLo1 = 0x46) = true := by decide +kernel
/-- V-TLB-8, V-TLB-9 -/
theorem test_tlbp_hits_and_misses :
    nextIs (exec .tlbp (withEntryHi 0x00002055 (written 0 0 0x000020AA 0x47 0x46 common)))
      (fun t => t.cp0.index = 0x80000000) = true ∧
    nextIs (exec .tlbp (withIndex 5 (withEntryHi 0x2000 (written 5 0 0x2000 1 1 (written 2 0 0x2000 1 1 common)))))
      (fun t => t.cp0.index = 2) = true := by decide +kernel
/-- V-TLB-10 -/
theorem test_tlbr_index_out_of_range :
    nextIs (exec .tlbr (withIndex 0x20 common)) (fun t => t = { withIndex 0x20 common with pc := 0x80000404 }) = true := by
  decide +kernel
/-- V-TLB-11 -/
theorem test_tlbwr_wired_31 (t : State)
    (h : exec .tlbwr (withWired 31 (withTlbRegs 0 0 0x6000 0x106 0 common)) = .next t) :
    t.lutR = [(6, 4)] ∧ t.tlb[31].vpn2 = 3 := by
  have e : exec .tlbwr (withWired 31 (withTlbRegs 0 0 0x6000 0x106 0 common)) =
      .next (tlbWrite 31 { withWired 31 (withTlbRegs 0 0 0x6000 0x106 0 common) with draws := 1 }).advance := by
    have draw : (drawRandom (withWired 31 (withTlbRegs 0 0 0x6000 0x106 0 common))).2 = 31 := by
      apply Fin.ext
      show 31 + Config.freeRandom _ % 1 = 31
      rw [Nat.mod_one]
    have usable : cp0Usable (withWired 31 (withTlbRegs 0 0 0x6000 0x106 0 common)).cp0.status = true := by decide +kernel
    have same : (drawRandom (withWired 31 (withTlbRegs 0 0 0x6000 0x106 0 common))).1 =
        { withWired 31 (withTlbRegs 0 0 0x6000 0x106 0 common) with draws := 1 } := rfl
    simp only [exec, execTlbwr, requireCp0, usable, if_true, writeRandom, draw, same]
  rw [e] at h
  cases h
  decide +kernel
/-- V-TLB-7 -/
theorem test_unmap_then_map :
    (unmapEntry (written 3 0 0x4000 0x246 0x284 common).tlb[3] (written 3 0 0x4000 0x246 0x284 common)).lutR = [] ∧
    (mapEntry (written 3 0 0x4000 0x246 0x284 common).tlb[3]
      (unmapEntry (written 3 0 0x4000 0x246 0x284 common).tlb[3] (written 3 0 0x4000 0x246 0x284 common))).lutR =
      [(4, 9)] := by decide +kernel

/-! ## Translation (V-MEM-1 to V-MEM-6) -/

/-- V-MEM-1 to V-MEM-3 -/
theorem test_translate_segments :
    translateAddress 0xBFFFFFFC .write common = .hit 0x1FFFFFFC ∧
    translateAddress 0x80000000 .read (withStatus 0x34000010 common) = .miss (.addressError .read 0x80000000) ∧
    translateAddress 0xC0000000 .write (withStatus 0x34000010 common) = .miss (.addressError .write 0xC0000000) ∧
    translateAddress 0xC0001000 .read (withStatus 0x34000008 common) = .miss (.tlbRefill .read 0xC0001000) ∧
    translateAddress 0xE0000000 .read (withStatus 0x34000008 common) = .miss (.addressError .read 0xE0000000) ∧
    translateAddress 0x9FFFFFFC .read (withStatus 0x34000008 common) = .miss (.addressError .read 0x9FFFFFFC) := by
  decide +kernel
/-- V-MEM-4 -/
theorem test_lwc1_alignment_first :
    nextIs (exec (.lwc1 2 0 4) (common.writeX 4 0x1502)) (fun t => t.cp0.cause = 0x10 && t.cp0.badVAddr = 0x1502) = true := by
  decide +kernel
/-- R117: only the alignment of a doubleword decides; V-MEM-4's second item differs (log 27). -/
theorem test_sdc1_alignment :
    nextIs (exec (.sdc1 2 12 4) (common.writeX 4 0x14F8)) (fun t => t.cp0.cause = 0x14 && t.cp0.badVAddr = 0x1504) = true := by
  decide +kernel
/-- V-MEM-5 -/
theorem test_effective_address_wraps : (common.writeX 4 0xFFFFFFF0).effectiveAddress 16 4 = 0 := by decide +kernel
/-- V-MEM-6 -/
theorem test_ldc1_big_endian :
    nextIs (exec (.ldc1 2 0 4) (withWord 0x100 0x01234567 (withWord 0x104 0x89ABCDEF (common.writeX 4 0xFFFFFFFF80000100))))
      (fun t => t.fpr[2] = 0x0123456789ABCDEF) = true := by decide +kernel
/-- P1 -/
theorem test_lwc1_through_tlb :
    nextIs (exec (.lwc1 2 0x500 13) (withWord 0x4500 0xCAFEF00D ((written 0 0 0x2000 0x106 0x142 common).writeX 13 0x2000)))
      (fun t => t.fpr[2] = 0x00000000CAFEF00D) = true := by decide +kernel
/-- P1: a store to a clean page is a refill with code 3, and no store takes place -/
theorem test_swc1_clean_page :
    nextIs (exec (.swc1 2 0x100 14) ((written 0 0 0x2000 0x106 0x142 common).writeX 14 0x3000))
      (fun t => t.cp0.cause = 0xC && t.cp0.badVAddr = 0x3100 && t.cp0.entryHi = 0x2000 && t.cp0.context = 0x10 &&
        t.pc = 0x80000000 && t.mem = []) = true := by decide +kernel
/-- R101, R115 -/
theorem test_swc1_stores_word :
    nextIs (exec (.swc1 2 0 4) (withFpr 2 0x1122334455667788 (common.writeX 4 0xFFFFFFFF80000100)))
      (fun t => t.mem = [(0x100, 0x55), (0x101, 0x66), (0x102, 0x77), (0x103, 0x88)]) = true := by decide +kernel
theorem test_sdc1_stores_dword :
    nextIs (exec (.sdc1 2 0 4) (withFpr 2 0x1100334455007788 (common.writeX 4 0xFFFFFFFF80000100)))
      (fun t => t.mem = [(0x100, 0x11), (0x102, 0x33), (0x103, 0x44), (0x104, 0x55), (0x106, 0x77), (0x107, 0x88)]) = true := by
  decide +kernel

/-! ## FPU (V-FPU-1 to V-FPU-8, P2) -/

/-- V-FPU-1 -/
theorem test_views_fr0 :
    let s := withStatus 0x30000000 (withFpr 0 0xAAAAAAAABBBBBBBB (withFpr 1 0xCCCCCCCCDDDDDDDD common))
    s.readS 0 = 0xBBBBBBBB ∧ s.readS 1 = 0xAAAAAAAA ∧ s.readS 2 = 0xDDDDDDDD ∧ s.readS 3 = 0xCCCCCCCC ∧
    s.readD 1 = 0xAAAAAAAABBBBBBBB := by decide +kernel
/-- V-FPU-2 -/
theorem test_mtc0_status_packs :
    nextIs (exec (.mtc0 9 12) (withFpr 0 0xAAAAAAAABBBBBBBB (withFpr 1 0xCCCCCCCCDDDDDDDD (common.writeX 9 0x30000000))))
      (fun t => t.fpr[0] = 0xDDDDDDDDBBBBBBBB && t.fpr[16] = 0xCCCCCCCCAAAAAAAA && t.fpr[1] = 0) = true := by decide +kernel
/-- P2, the write at 0x80000410 -/
theorem test_mtc0_status_unpacks :
    nextIs (exec (.mtc0 11 12)
        (withFpr 0 0x22222222AAAAAAAA (withFpr 16 0x1111111133333333 (withStatus 0x30000000 (common.writeX 11 0x34000000)))))
      (fun t => t.fpr[0] = 0x33333333AAAAAAAA && t.fpr[1] = 0x1111111122222222 && t.fpr[16] = 0) = true := by decide +kernel
/-- V-FPU-5 -/
theorem test_mtc1_keeps_high_half :
    nextIs (exec (.mtc1 9 3) (withFpr 3 0x1234567800000000 (common.writeX 9 0xFFFFFFFFCAFEBABE)))
      (fun t => t.fpr[3] = 0x12345678CAFEBABE) = true := by decide +kernel
/-- V-FPU-6 -/
theorem test_dmtc1_odd_double :
    nextIs (exec (.dmtc1 9 5) (withStatus 0x30000000 (common.writeX 9 0x1111111122222222)))
      (fun t => t.fpr[2] = 0x1111111122222222 && t.readS 4 = 0x22222222 && t.readS 5 = 0x11111111) = true := by decide +kernel
theorem test_dmfc1_even_double :
    nextIs (exec (.dmfc1 8 4) (withStatus 0x30000000 (withFpr 2 0x1111111122222222 common)))
      (fun t => t.readX 8 = 0x1111111122222222) = true := by decide +kernel
/-- R270: the 32-bit view, sign extended -/
theorem test_mfc1_sign_extends :
    nextIs (exec (.mfc1 8 3) (withFpr 3 0x1234567880000001 common)) (fun t => t.readX 8 = 0xFFFFFFFF80000001) = true := by
  decide +kernel
/-- V-FPU-7 -/
theorem test_ctc1_masks :
    nextIs (exec (.ctc1 9 31) (common.writeX 9 0xFFFFFFFF)) (fun t => t.fcr31 = 0x0183FFFF) = true ∧
    nextIs (exec (.ctc1 9 0) (common.writeX 9 0xFFFFFFFF)) (fun t => t.fcr31 = 0) = true := by decide +kernel
theorem test_cfc1_reads :
    nextIs (exec (.cfc1 8 31) { common with fcr31 := 0x0183FFFF }) (fun t => t.readX 8 = 0x183FFFF) = true ∧
    nextIs (exec (.cfc1 8 5) (common.writeX 8 7)) (fun t => t.readX 8 = 7) = true := by decide +kernel
/-- V-FPU-8 -/
theorem test_mfc1_unusable :
    nextIs (exec (.mfc1 8 0) (withStatus 0x14000000 common))
      (fun t => t.cp0.cause = 0x1000002C && t.cp0.epc = 0x80000400 && t.pc = 0x80000180) = true := by decide +kernel

/-! ## Queue, timer, interrupts (V-Q, V-CNT, V-INT) -/

/-- V-Q-1 -/
theorem test_queue_scenario :
    let q := Queue.insert ⟨.si, 200⟩ (Queue.insert ⟨.vi, 50⟩ (Queue.insert ⟨.compare, 100⟩ []))
    Queue.dueNodes 60 q = [⟨.vi, 50⟩] ∧ Queue.dueNodes 150 (Queue.afterPop 60 q) = [⟨.compare, 100⟩] ∧
    Queue.dueNodes 300 (Queue.afterPop 150 (Queue.afterPop 60 q)) = [⟨.si, 200⟩] := by decide
/-- V-Q-2, V-Q-3 -/
theorem test_queue_ties_and_cancel :
    let q := Queue.insert ⟨.device 0, 10⟩ (Queue.insert ⟨.device 2, 5⟩ (Queue.insert ⟨.device 1, 10⟩
      (Queue.insert ⟨.device 0, 10⟩ [])))
    q = [⟨.device 2, 5⟩, ⟨.device 0, 10⟩, ⟨.device 1, 10⟩, ⟨.device 0, 10⟩] ∧
    Queue.without (.device 0) q = [⟨.device 2, 5⟩, ⟨.device 1, 10⟩] := by decide
/-- V-Q-4 -/
theorem test_queue_full :
    let s := { common with queue := List.replicate 16 ⟨.vi, 7⟩ }
    (schedule .si 0 s).2 = .queueFull ∧ (schedule .si 0 s).1.queue = s.queue ∧
    (schedule .si 0 s).1.faults.queueFull = true := by decide +kernel
/-- V-CNT-3 -/
theorem test_count_wraps :
    (countSample 0x80000408 (withCount 0xFFFFFFFE common)).cp0.count = 2 ∧
    (countSample 0x80000408 (withCount 0xFFFFFFFE common)).time = 4 := by decide +kernel
/-- V-CNT-4 -/
theorem test_timer_overshoot :
    let s := { withCompare 0x5010 (withCount 0x5014 common) with time := 20, queue := [⟨.compare, 16⟩] }
    (dispatchEvents s).1.queue = [⟨.compare, 16 + 4294967296⟩] ∧ (dispatchEvents s).1.cp0.cause = 0x8000 := by
  decide +kernel
/-- V-INT-1 -/
theorem test_interrupt_condition :
    interruptPending 0x8000 0x34008001 = true ∧ interruptPending 0x8000 0x34008000 = false ∧
    interruptPending 0x8000 0x34000401 = false ∧ interruptPending 0x8000 0x34008003 = false ∧
    interruptPending 0x8000 0x34008005 = false := by decide
theorem test_interrupt_taken :
    let t := checkInterrupt { withCause 0x8000 (withStatus 0x34008001 common) with pc := 0x80000420 }
    t.cp0.epc = 0x80000420 ∧ t.cp0.cause = 0x8000 ∧ t.cp0.status = 0x34008003 ∧ t.pc = 0x80000180 := by decide +kernel
/-- V-INT-2 -/
theorem test_set_ip :
    (setIp 4 true common).cp0.cause = 0x1000 ∧ (setIp 4 false (setIp 4 true common)).cp0.cause = 0 ∧
    setIp 7 true common = common := by decide +kernel

/-! ## Exceptions and traps (V-EXC, V-TRAP), power-on (V-BOOT-1) -/

/-- V-EXC-1 -/
theorem test_vectors :
    vectorOf 0x34000000 true false = 0x80000000 ∧ vectorOf 0x34000000 false false = 0x80000180 ∧
    vectorOf 0x34000000 true true = 0x80000180 ∧ vectorOf 0x34400000 true false = 0xBFC00200 ∧
    vectorOf 0x34400000 false false = 0xBFC00380 ∧ vectorOf 0x34400000 true true = 0xBFC00380 := by decide
/-- V-TRAP-2, V-EXC-2 -/
theorem test_syscall :
    nextIs (exec (.syscall 5) common) (fun t => t.cp0.epc = 0x80000400 && t.cp0.cause = 0x20 &&
      t.cp0.status = 0x34000002 && t.pc = 0x80000180) = true ∧
    nextIs (exec (.syscall 0) { common with pc := 0x80000504, inDelaySlot := true })
      (fun t => t.cp0.epc = 0x80000500 && t.cp0.cause = 0x80000020) = true := by decide +kernel
theorem test_break : nextIs (exec (.brk 0) common) (fun t => t.cp0.cause = 0x24 && t.cp0.epc = 0x80000400) = true := by
  decide +kernel
/-- V-EXC-3 -/
theorem test_syscall_nested :
    nextIs (exec (.syscall 0) { withEpc 0x80000420 (withStatus 0x34000002 common) with pc := 0x80000190, xs := [⟨1, 2, 3⟩] })
      (fun t => t.cp0.epc = 0x80000420 && t.pc = 0x80000180 && t.xs = [⟨1, 2, 3⟩, ⟨0x80000420, 0, 0x34000002⟩]) = true := by
  decide +kernel
/-- V-EXC-4 -/
theorem test_stack_overflow : pushSnapshot 2 ⟨3, 3, 3⟩ [⟨1, 1, 1⟩, ⟨2, 2, 2⟩] = [⟨2, 2, 2⟩, ⟨3, 3, 3⟩] := by decide
/-- V-TRAP-1 -/
theorem test_eret_exl :
    nextIs (exec .eret { withEpc 0x80001234 (withStatus 0x34000003 common) with llBit := true, xs := [⟨1, 2, 3⟩] })
      (fun t => t.pc = 0x80001234 && t.cp0.status = 0x34000001 && !t.llBit && t.xs = [] && t.cp0.count = 0x5002) = true := by
  decide +kernel
theorem test_eret_erl_first :
    nextIs (exec .eret { common with cp0 := { common.cp0 with status := 0x34000006, epc := 0x80001234, errorEpc := 0xBFC00000 } })
      (fun t => t.pc = 0xBFC00000 && t.cp0.status = 0x34000002) = true := by decide +kernel
/-- V-BOOT-1 -/
theorem test_boot_check :
    (powerOn { Params.documentExample with bootAddr := 0x00400000 } ResetInputs.reference).2 = .bootError ∧
    (powerOn { Params.documentExample with bootAddr := 0xA4000042 } ResetInputs.reference).2 = .bootError ∧
    powerOn Params.documentExample ResetInputs.reference = (State.reset, .ok) := by decide +kernel

/-- A word placed where the first instruction is fetched runs as the first step from reset. -/
theorem test_first_step :
    nextIs (step (State.reset.withFetchWord 32 0x40087800)) (fun t => t.readX 8 = 0xB00 && t.pc = 0xA4000044) = true := by
  decide +kernel

/-! ## Witnesses: for each statement with hypotheses, a state and operands that meet them, clause by clause -/

theorem witness_WordSelectsItsTableRow :
    decode 0x40086000 = .instr (.mfc0 8 12) ∧ selectsRowOf 0x40086000 (.mfc0 8 12) ∧
    decode 0xF7FFFFFF = .instr (.sdc1 31 (-1) 31) ∧ selectsRowOf 0xF7FFFFFF (.sdc1 31 (-1) 31) := by decide

theorem witness_DecodeAndEncodeAgree :
    decode 0x03FFFFCC = .instr (.syscall 1048575) ∧ (Instr.syscall 1048575).wellFormed = true ∧
    encode (.syscall 1048575) = 0x03FFFFCC ∧ (Instr.lwc1 31 (-32768) 31).wellFormed = true ∧
    encode (.lwc1 31 (-32768) 31) = 0xC7FF8000 ∧ encode (.lwc1 31 32767 31) = 0xC7FF7FFF := by decide

theorem no_row_42000010 (i : Instr) : ¬selectsRowOf 0x42000010 i := by
  cases i <;> simp only [selectsRowOf, rowOf] <;> decide

theorem no_row_46000000 (i : Instr) : ¬selectsRowOf 0x46000000 i := by
  cases i <;> simp only [selectsRowOf, rowOf] <;> decide

theorem witness_WordsThatMatchNoRow :
    ((∀ i, ¬selectsRowOf 0x42000010 i) ∧ opcodeField 0x42000010 = 0x10 ∧ cp0Usable common.cp0.status = true ∧
      common.inDelaySlot = false) ∧
    ((∀ i, ¬selectsRowOf 0x46000000 i) ∧ opcodeField 0x46000000 = 0x11 ∧ common.stop = false ∧
      step (withWord 0x400 0x46000000 common) = .refused (.unadmittedCop1 0x46000000)) :=
  ⟨⟨no_row_42000010, by decide, by decide +kernel, by decide +kernel⟩,
    ⟨no_row_46000000, by decide, by decide +kernel, eq_refused_of_refusedAs (by decide +kernel)⟩⟩

theorem witness_AdvanceIsTheNextInstruction :
    common.inDelaySlot = false ∧ ({ common with inDelaySlot := true } : State).inDelaySlot = true := by decide +kernel

/-- A misaligned pc; a pc in an unmapped page; an instruction in memory. -/
theorem witness_StepRunsTheDecodedInstruction :
    (let s := withPc 0x80000402 common;
      s.faults.boot = false ∧ boundary s = .proceed s ∧ wordAligned s.pc = false) ∧
    (let s := withPc 0x00001000 common;
      boundary s = .proceed s ∧ wordAligned s.pc = true ∧
        translateAddress s.pc .read s = .miss (.tlbRefill .read 0x00001000)) ∧
    (let s := withWord 0x400 0x0000000C common;
      boundary s = .proceed s ∧ translateAddress s.pc .read s = .hit 0x400 ∧ inDeviceWindow s.params 0x400 4 = false ∧
        decode (Memory.readWord s.mem 0x400) = .instr (.syscall 0)) := by decide +kernel

/-- The cached interpreter in a delay slot, where it never polls, with a word in memory and another one held. -/
def holding : State :=
  { withWord 0x400 0x0000000C common with
    inDelaySlot := true, heldCode := [(0x80000400, 0x0000000D)]
    params := { common.params with engineMode := .cachedInterpreter } }

/-- A held word or the word in memory, as the free value says, and the word in memory where none is held. -/
theorem witness_StepRunsTheDecodedInstruction_compiled :
    ((usePollDraw holding).params.engineMode ≠ .pureInterpreter ∧ boundary holding = .proceed (usePollDraw holding) ∧
      ∀ b : Bool, ∃ i, decode (if b then Memory.readWord holding.mem 0x400
        else (Table.get holding.pc.toNat holding.heldCode).getD (Memory.readWord holding.mem 0x400)) = .instr i) ∧
    (∀ b : Bool, ∃ i, decode (if b then Memory.readWord holding.mem 0x400
        else (Table.get holding.pc.toNat ([] : List (Nat × Word))).getD (Memory.readWord holding.mem 0x400)) = .instr i) ∧
    (let r := half (written 0 0 0x2000 0x106 0x142 common).tlb[(0 : Fin 32)] false;
      r.v = true ∧ populatable common.params r = true ∧ r.start.toNat < 0x2FFC + 4 ∧ 0x2FFC ≤ r.stop.toNat ∧
        ¬(0x3000 ≤ r.stop.toNat)) := by
  refine ⟨⟨by decide +kernel, by decide +kernel, fun b => ?_⟩, fun b => ?_, by decide +kernel⟩
  · cases b
    · exact ⟨.brk 0, by decide +kernel⟩
    · exact ⟨.syscall 0, by decide +kernel⟩
  · cases b
    · exact ⟨.syscall 0, by decide +kernel⟩
    · exact ⟨.syscall 0, by decide +kernel⟩

/-- A fetch from a device window, with a reply and with none, in the pure interpreter and, with nothing held, in another. -/
theorem witness_StepRunsTheDecodedInstruction_window :
    let p := { common.params with deviceWindows := [⟨0x400, 4⟩] }
    let s := { common with params := p, deviceReplies := [⟨0x0000000C, [], []⟩] }
    let c := { s with params := { p with engineMode := .cachedInterpreter }, inDelaySlot := true }
    boundary s = .proceed s ∧ boundary c = .proceed { c with draws := 1 } ∧
    translateAddress s.pc .read s = .hit 0x400 ∧ inDeviceWindow p 0x400 4 = true ∧
    (deviceAccess 0x400 s).toOption.isSome = true ∧ (deviceAccess 0x400 { s with deviceReplies := [] }).toOption = none ∧
    (∀ b : Bool, Table.get c.pc.toNat (if b then Table.erase c.pc.toNat c.heldCode else c.heldCode) = none ∧
      (deviceAccess 0x400 { c with
        draws := 2, heldCode := if b then Table.erase c.pc.toNat c.heldCode else c.heldCode }).toOption.isSome = true) := by
  decide +kernel

/-- R234, R442: a TLB write drops the code fetched through the old mapping, and an "invalidate range" the code of its range,
to the last byte. -/
theorem test_held_code_invalidated :
    (written 0 0 0x6000 0x106 0x142 { written 0 0 0x2000 0x106 0x142 common with
      heldCode := [(0x1FFC, 1), (0x2000, 2), (0x2FFC, 3), (0x6000, 4), (0x80000400, 5)] }).heldCode =
        [(0x1FFC, 1), (0x80000400, 5)] ∧
    (invalidateRange 0x2003 0x2FFB { common with heldCode := [(0x2000, 2), (0x2FFC, 3)] }).heldCode = [(0x2FFC, 3)] := by
  decide +kernel

/-- R124: in one compiled block a fetch holds the words after it as they stand in memory, and keeps one that is held. -/
theorem test_compiles_a_block :
    compileWords 2 0x80000404 (withWord 0x404 7 (withWord 0x408 8 common)) [(0x80000408, 9)] =
      [(0x80000404, 7), (0x80000408, 9)] := by decide +kernel

/-- In a delay slot; with nothing pending; with an enabled line pending. -/
theorem witness_BoundaryStepOrder :
    (∃ t, boundary (withCause 0x8000 (withStatus 0x34008001 common)) = .interrupted t) ∧
    boundary { common with time := 9, queue := [⟨.vi, 9⟩], handlerCalls := [[.cancel .compare]] } =
      .refused .compareFromOutside ∧
    common.faults.boot = false ∧ common.params.engineMode = .pureInterpreter ∧
    ({ common with inDelaySlot := true } : State).inDelaySlot = true ∧
    (runHandlers (dispatchEvents (countSample common.pc common)).2 (dispatchEvents (countSample common.pc common)).1).toOption =
      some common ∧ common.interruptDue = false ∧
    (let s := withCause 0x8000 (withStatus 0x34008001 common);
      (runHandlers (dispatchEvents (countSample s.pc s)).2 (dispatchEvents (countSample s.pc s)).1).toOption = some s ∧
        s.interruptDue = true) ∧
    (let s := { holding with stop := true, inDelaySlot := false };
      s.lastPc = s.pc ∧ s.params.engineMode ≠ .pureInterpreter ∧ { s with pc := 0x80000404 }.lastPc ≠ 0x80000404) := by
  exact ⟨⟨enter .interrupt (withCause 0x8000 (withStatus 0x34008001 common)), by decide +kernel⟩, by decide +kernel⟩

/-- R411: the stop flag is seen at once by the pure interpreter, but never in a delay slot. -/
theorem test_run_stops :
    run 1 { common with stop := true } = ({ common with stop := true }, .stopped) ∧
    (run 1 { withWord 0x400 0x0000000C common with stop := true, inDelaySlot := true }).2 = .budget := by decide +kernel

theorem common_wellFormed : common.WellFormed where
  legal := by decide +kernel
  cp0 := by decide +kernel
  fcr31 := by decide +kernel
  mem := by decide +kernel
  lutR := by decide +kernel
  lutW := by decide +kernel
  heldCode := by decide +kernel
  queue := by decide +kernel
  xs := by decide +kernel

theorem common_timerCoherent : common.TimerCoherent := ⟨0xFFFFB000, by decide +kernel, by decide +kernel⟩

/-- Memory holds no program, so the step takes its own effect: the word 0 is refused, a COP0 word is not. -/
theorem witness_StepKeepsStateWellFormed : ∃ s t, s.WellFormed ∧ step s = .next t ∧ t.pc = 0x80000180 := by
  have h : nextIs (step (withPc 0x80000402 common)) (fun t => t.pc = 0x80000180) = true := by decide +kernel
  obtain ⟨t, ht, hp⟩ := eq_next_of_nextIs h
  have w := common_wellFormed
  exact ⟨withPc 0x80000402 common, t, ⟨w.legal, w.cp0, w.fcr31, w.mem, w.lutR, w.lutW, w.heldCode, w.queue, w.xs⟩, ht, of_decide_eq_true hp⟩

/-- A step at which the COMPARE node is due: it fires and the interrupt is taken. -/
theorem witness_StepKeepsTimerCoherent : ∃ s t, Queue.wf s.queue ∧ s.TimerCoherent ∧ step s = .next t ∧
    t.queue = [⟨.compare, 16 + 4294967296⟩] := by
  let s := { withStatus 0x34008001 (withCompare 0x5010 (withCount 0x5010 common)) with time := 16, queue := [⟨.compare, 16⟩] }
  have h : nextIs (step s) (fun t => t.queue = [⟨.compare, 16 + 4294967296⟩]) = true := by decide +kernel
  obtain ⟨t, ht, hp⟩ := eq_next_of_nextIs h
  exact ⟨s, t, by decide, ⟨16, by decide +kernel, by decide +kernel⟩, ht, of_decide_eq_true hp⟩

theorem witness_PowerOnMeetsTheInvariants : Params.documentExample.Legal := by decide

/-- A step from a state with both sticky flags set. -/
theorem witness_StepNeverTouchesStopOrParameters : ∃ s t, step s = .next t ∧ s.faults.queueFull = true ∧
    s.faults.undefined = true := by
  have h : nextIs (step { withPc 0x80000402 common with faults := ⟨true, false, false, true⟩ }) (fun _ => true) = true := by
    decide +kernel
  obtain ⟨t, ht, -⟩ := eq_next_of_nextIs h
  exact ⟨_, t, ht, rfl, rfl⟩

/-- A boot check that passes, one that fails on translation, one that fails on alignment. -/
theorem witness_BootCheckDecidesPowerOn :
    (powerOn Params.documentExample ResetInputs.reference).2 = .ok ∧
    (powerOn { Params.documentExample with bootAddr := 0x00400000 } ResetInputs.reference).2 = .bootError ∧
    (powerOn { Params.documentExample with bootAddr := 0xA4000042 } ResetInputs.reference).1.faults.boot = true := by
  decide +kernel

/-- The four addresses at the hole's two ends. -/
theorem witness_BootSoftwareFindsKernelMode :
    Params.documentExample.kernelHole = ⟨0x80000000, 0xC0000000⟩ ∧
    translateAddress 0x80000000 .read State.reset = .hit 0 ∧
    translateAddress 0xBFFFFFFF .write State.reset = .hit 0x1FFFFFFF ∧
    translateAddress 0x7FFFFFFF .read State.reset = .miss (.tlbRefill .read 0x7FFFFFFF) ∧
    translateAddress 0xC0000000 .read State.reset = .miss (.tlbRefill .read 0xC0000000) := by decide +kernel

/-- The first byte after a doubleword at the top of the address space. -/
theorem witness_StoredDwordReadsBackBigEndian :
    8 ≤ ((0x00000004 : Word) - 0xFFFFFFFC).toNat ∧ ((0x00000003 : Word) - 0xFFFFFFFC).toNat = 7 := by decide

/-- V-TLB-12's range at its ends; a page in the table; a page not in it. -/
theorem witness_TranslateTlbHitsOrRefills :
    (let s := { common with params := { common.params with compatRemap := some ⟨0x10000000, 0x10001000⟩ } };
      inRemap s.params 0x10000000 = true ∧ inRemap s.params 0x10000FFF = true ∧ inRemap s.params 0x10001000 = false) ∧
    (let s := written 0 0 0 0 0x46 common;
      inRemap s.params 0x1FFF = false ∧ Table.get (pageOf 0x1FFF) (s.lut .write) = some 1 ∧
        Table.get (pageOf 0x2000) (s.lut .write) = none) := by decide +kernel

/-- The boundary addresses of each mode's rights. -/
theorem witness_TranslateChecksSegmentThenMap :
    modeOf 0x34000010 = .user ∧ 0x80000000 ≤ (0x80000000 : Word).toNat ∧ modeOf 0x34000008 = .supervisor ∧
    ¬((0x80000000 : Word).toNat < 0x80000000 ∨
      (0xC0000000 ≤ (0x80000000 : Word).toNat ∧ (0x80000000 : Word).toNat < 0xE0000000)) ∧
    ¬((0xE0000000 : Word).toNat < 0x80000000 ∨
      (0xC0000000 ≤ (0xE0000000 : Word).toNat ∧ (0xE0000000 : Word).toNat < 0xE0000000)) := by
  have h1 : (0x80000000 : Word).toNat = 2147483648 := rfl
  have h2 : (0xE0000000 : Word).toNat = 3758096384 := rfl
  rw [h1, h2]
  exact ⟨by decide, by omega, by decide, by omega, by omega⟩

/-- Each of the three answers. -/
theorem witness_TranslateChecksSegmentThenMap_answers :
    modeOf common.cp0.status = .kernel ∧ inHole common.params 0x80000000 = true ∧
    inHole common.params 0xBFFFFFFF = true ∧ inHole common.params 0xC0000000 = false ∧
    (translateTlb 0x1FFF .write (written 0 0 0 0 0x46 common)).2 = (true, 0x1FFF) ∧
    (translateTlb 0x2000 .write (written 0 0 0 0 0x46 common)).2.1 = false := by decide +kernel

theorem witness_GprZeroDiscardsWrites : (31 : RegNum) ≠ 0 := by decide

/-- User mode without CU0; kernel mode; the numbers that name no register at the ends of their range. -/
theorem witness_MoveFromCp0ReadsEachRegister :
    cp0Usable (withStatus 0x24000010 common).cp0.status = false ∧ cp0Usable common.cp0.status = true ∧
    (21 ≤ (21 : RegNum).toNat ∧ (27 : RegNum).toNat ≤ 27) := by decide +kernel

/-- Usable; software bit 0 and software bit 1 set while enabled. -/
theorem witness_MoveToCp0StoresUnderMask :
    cp0Usable (withStatus 0x34000010 common).cp0.status = true ∧
    (0x00000100 : Word) &&& 0x34000101 &&& 0x00000300 ≠ 0 ∧ (0x00000200 : Word) &&& 0x34000201 &&& 0x00000300 ≠ 0 ∧
    (0x34000101 : Word).getLsbD 0 = true ∧ (0x34000101 : Word).getLsbD 1 = false ∧ (0x34000101 : Word).getLsbD 2 = false ∧
    nextIs (exec (.mtc0 9 13) (withStatus 0x34000101 (common.writeX 9 0x100))) (fun t => t.interruptDue) = true := by
  decide +kernel

/-- Fifteen device nodes beside the COMPARE node. -/
theorem witness_CountWriteReschedulesCompare :
    let s := { common with queue := ⟨.compare, 3⟩ :: List.replicate 15 ⟨.vi, 7⟩ }
    cp0Usable s.cp0.status = true ∧ (s.queue.filter fun n => n.type ≠ .compare).length < 16 ∧ Queue.wf s.queue := by
  decide +kernel

theorem witness_CompareWriteAcknowledgesTimer :
    let s := { common with queue := ⟨.compare, 3⟩ :: List.replicate 15 ⟨.vi, 7⟩ }
    cp0Usable s.cp0.status = true ∧ (s.queue.filter fun n => n.type ≠ .compare).length < 16 ∧ Queue.wf s.queue := by
  decide +kernel

/-- FR kept, cleared, set. -/
theorem witness_StatusWriteReshufflesOnFrChange :
    cp0Usable common.cp0.status = true ∧
    (0x34000001 : Word).getLsbD 26 = common.cp0.status.getLsbD 26 ∧
    (common.cp0.status.getLsbD 26 = true ∧ (0x30000000 : Word).getLsbD 26 = false) ∧
    ((withStatus 0x30000000 common).cp0.status.getLsbD 26 = false ∧ (0x34000000 : Word).getLsbD 26 = true) := by
  decide +kernel

theorem witness_WiredWriteBoundsRandom : cp0Usable common.cp0.status = true ∧ (8 : RegNum) ≠ 0 := by decide +kernel

theorem witness_FrameOfMovesToGpr :
    (cp0Usable common.cp0.status = true ∧ ∃ t, exec (.mfc0 8 12) common = .next t) ∧
    (cp1Usable common.cp0.status = true ∧ ∃ t, exec (.cfc1 8 31) common = .next t) ∧ common.inDelaySlot = false := by
  refine ⟨⟨by decide +kernel, ?_⟩, ⟨by decide +kernel, ?_⟩, by decide +kernel⟩
  · obtain ⟨t, ht, -⟩ := eq_next_of_nextIs (r := exec (.mfc0 8 12) common) (p := fun _ => true) (by decide +kernel)
    exact ⟨t, ht⟩
  · obtain ⟨t, ht, -⟩ := eq_next_of_nextIs (r := exec (.cfc1 8 31) common) (p := fun _ => true) (by decide +kernel)
    exact ⟨t, ht⟩

theorem witness_FrameOfMovesToCp0 : cp0Usable common.cp0.status = true ∧ ∃ t, exec (.dmtc0 9 11) common = .next t := by
  refine ⟨by decide +kernel, ?_⟩
  obtain ⟨t, ht, -⟩ := eq_next_of_nextIs (r := exec (.dmtc0 9 11) common) (p := fun _ => true) (by decide +kernel)
  exact ⟨t, ht⟩

theorem witness_UnusableCop0IsTakenFirst :
    cp0Usable common.cp0.status = true ∧ cp0Usable (withStatus 0x24000010 common).cp0.status = false ∧ decode 0x42000010 = .unrecognisedCop0 := by decide +kernel

theorem witness_UnusableCop1IsTakenFirst :
    common.cp0.status.getLsbD 29 = true ∧ (withStatus 0x14000000 common).cp0.status.getLsbD 29 = false := by
  decide +kernel

/-- Each of the three ways Status changes: entry, ERET, a move to Status. -/
theorem witness_OnlyTheseChangeTheMode :
    cp0Usable common.cp0.status = true ∧
    nextIs (step (withWord 0x400 0x0000000C common)) (fun t => t.cp0.status ≠ common.cp0.status) = true ∧
    nextIs (exec .eret (withStatus 0x34000002 common)) (fun t => t.cp0.status ≠ 0x34000002) = true ∧
    nextIs (exec (.mtc0 0 12) common) (fun t => t.cp0.status ≠ common.cp0.status) = true := by decide +kernel

/-- The clean odd half and the dirty even half of V-TLB-2 at the ends of their ranges, and an address in neither. -/
theorem witness_MapEntersExactlyTheValidHalves :
    let e : TlbEntry := ⟨3, 8, 0, false, 0x100, 0x104, 0, 0, true, false, true, true⟩
    (half e false).v = true ∧ (half e false).d = true ∧ populatable common.params (half e false) = true ∧
    (half e false).start = 0x00010000 ∧ (half e false).stop = 0x00013FFF ∧
    (half e true).v = true ∧ (half e true).d = false ∧ populatable common.params (half e true) = true ∧
    (half e true).start = 0x00014000 ∧ (half e true).stop = 0x00017FFF := by decide +kernel

theorem witness_UnmapClearsExactlyWhatMapEntered :
    let e : TlbEntry := ⟨0xFFF, 0x3F000, 0, false, 0, 0, 0, 0, true, true, true, true⟩
    (half e false).start = 0x7E000000 ∧ (half e true).stop = 0x7FFFFFFF ∧
    populatable common.params (half e false) = true ∧ populatable common.params (half e true) = true ∧
    (half e true).v = true ∧ (half e true).d = true := by decide +kernel

theorem witness_UnmapThenMapRestoresTheTables :
    let s := written 3 0 0x4000 0x246 0x284 common
    Lut.wf s.lutR ∧ Lut.wf s.lutW ∧ mapEntry s.tlb[3] s = s := by
  decide +kernel

/-- The last index that names an entry, and the first that names none; Index.P set. -/
theorem witness_TlbwiWritesTheIndexedEntry :
    cp0Usable common.cp0.status = true ∧ ((withIndex 0x8000001F common).cp0.index &&& 0x3F).toNat < 32 ∧
    32 ≤ ((withIndex 0x00000020 common).cp0.index &&& 0x3F).toNat := by decide +kernel

theorem witness_TlbwrWritesAnEntryAboveWired :
    cp0Usable common.cp0.status = true ∧ min ((withWired 40 common).cp0.wired &&& 0x3F).toNat 31 = 31 ∧
    ∃ t, exec .tlbwr (withWired 40 common) = .next t := by
  refine ⟨by decide +kernel, by decide +kernel, (writeRandom (withWired 40 common)).advance, ?_⟩
  simp only [exec, execTlbwr, requireCp0, show cp0Usable (withWired 40 common).cp0.status = true by decide +kernel, if_true]

theorem witness_TlbrReadsTheIndexedEntry :
    cp0Usable common.cp0.status = true ∧ ((withIndex 0x8000001F common).cp0.index &&& 0x3F).toNat < 32 ∧
    32 ≤ ((withIndex 0x0000003F common).cp0.index &&& 0x3F).toNat := by decide +kernel

/-- A match whose lower entries do not match, by G; and a state in which no entry matches. -/
theorem witness_TlbpFindsTheLowestMatch :
    let hit (s : State) (i : Fin 32) : Prop :=
      s.tlb[i].vpn2 &&& ~~~(s.tlb[i].mask.setWidth 19) = s.cp0.entryHi.extractLsb' 13 19 &&& ~~~(s.tlb[i].mask.setWidth 19) ∧
        (s.tlb[i].g = true ∨ s.tlb[i].asid = s.cp0.entryHi.extractLsb' 0 8)
    (hit (written 2 0 0x2000 1 1 common) 2 ∧ ∀ j : Fin 32, j < 2 → ¬hit (written 2 0 0x2000 1 1 common) j) ∧
    ∀ i : Fin 32, ¬hit (withEntryHi 0x2000 common) i := by decide +kernel

theorem witness_FrameOfTlbInstructions :
    cp0Usable common.cp0.status = true ∧ common.inDelaySlot = false ∧ ∃ t, exec .tlbwi common = .next t := by
  refine ⟨by decide +kernel, by decide +kernel, ?_⟩
  obtain ⟨t, ht, -⟩ := eq_next_of_nextIs (r := exec .tlbwi common) (p := fun _ => true) (by decide +kernel)
  exact ⟨t, ht⟩

theorem witness_ExceptionEntrySavesAndRedirects :
    (∀ cop, Exc.syscall ≠ .copUnusable cop) ∧ (∀ kind va, Exc.syscall ≠ .tlbRefill kind va) ∧
    (∀ kind va, Exc.syscall ≠ .addressError kind va) := ⟨nofun, nofun, nofun⟩

/-- Line 0 and line 7 pending and enabled; a line pending and not enabled. -/
theorem witness_InterruptIsTakenWhenEnabled :
    (∃ k, k < 8 ∧ (0x00000100 : Word).getLsbD (8 + k) = true ∧ (0x34000101 : Word).getLsbD (8 + k) = true) ∧
    (∃ k, k < 8 ∧ (0x00008000 : Word).getLsbD (8 + k) = true ∧ (0x34008001 : Word).getLsbD (8 + k) = true) ∧
    ((0x34008001 : Word).getLsbD 0 = true ∧ (0x34008001 : Word).getLsbD 1 = false ∧ (0x34008001 : Word).getLsbD 2 = false) ∧
    ¬∃ k, k < 8 ∧ (0x00008000 : Word).getLsbD (8 + k) = true ∧ (0x34000401 : Word).getLsbD (8 + k) = true := by
  refine ⟨⟨0, by decide⟩, ⟨7, by decide⟩, by decide, ?_⟩
  rintro ⟨k, hk, h⟩
  have : ∀ k : Fin 8, ¬((0x00008000 : Word).getLsbD (8 + k) = true ∧ (0x34000401 : Word).getLsbD (8 + k) = true) := by decide
  exact this ⟨k, hk⟩ h

theorem witness_EretReturnsFromException : cp0Usable (withStatus 0x34000006 common).cp0.status = true := by decide +kernel

theorem witness_SyscallAndBreakTrap :
    common.cp0.status.getLsbD 1 = false ∧ (withStatus 0x34000002 common).cp0.status.getLsbD 1 = true := by decide +kernel

/-- The codes at the ends of each range. -/
theorem witness_RaiseExceptionTakesArchitectedCodes :
    16 ≤ (16 : BitVec 5).toNat ∧ 16 ≤ (31 : BitVec 5).toNat ∧
    (∀ code ∈ [(0 : BitVec 5), 2, 3, 4, 5, 11, 13, 15], ¬(code = 1 ∨ code = 14 ∨ 16 ≤ code.toNat)) := by decide

/-- One free node, and none. -/
theorem witness_ScheduleInsertsInDueOrder :
    (let s := { common with queue := List.replicate 15 ⟨.vi, 7⟩ };
      Queue.wf s.queue ∧ s.queue.length < 16) ∧
    (let s := { common with queue := List.replicate 16 ⟨.vi, 7⟩ };
      Queue.wf s.queue ∧ s.queue.length = 16) := by decide +kernel

theorem witness_PopAndCancelRemoveExactly :
    Queue.wf [⟨.vi, 50⟩, ⟨.compare, 100⟩, ⟨.si, 200⟩] ∧ Queue.wf [⟨.vi, 10⟩, ⟨.si, 10⟩, ⟨.vi, 10⟩] := by decide

theorem witness_CompareDeltaIsTheNextMatch :
    1 ≤ 1 ∧ 1 < compareDelta 0x6000 0x5000 ∧ 0xFFF < compareDelta 0x6000 0x5000 ∧ (0x5000 : Word) = 0x5000 := by decide

/-- V-CNT-4, and a firing with no overshoot. -/
theorem witness_TimerFiresEveryFullWrap :
    ((withCause 0x8000 common).cp0.cause.getLsbD 15 = true ∧
      nextIs (step (withCause 0x8000 (withWord 0x400 0x0000000C common))) (fun _ => true) = true) ∧
    (let s := { withCompare 0x5010 (withCount 0x5014 common) with time := 20, queue := [⟨.compare, 16⟩] };
      Queue.wf s.queue ∧ compareNodes s.queue = [⟨.compare, 16⟩] ∧ 16 ≤ s.time ∧ s.time < 16 + 4294967296 ∧
        (s.cp0.compare.toNat + s.time) % 4294967296 = (s.cp0.count.toNat + 16) % 4294967296) ∧
    (let s := { withCompare 0x5010 (withCount 0x5010 common) with time := 16, queue := [⟨.compare, 16⟩] };
      compareNodes s.queue = [⟨.compare, 16⟩] ∧ 16 ≤ s.time ∧
        (s.cp0.compare.toNat + s.time) % 4294967296 = (s.cp0.count.toNat + 16) % 4294967296) := by decide +kernel

theorem witness_CountSamplesAreAdditive :
    common.lastPc.toNat % 4 = 0 ∧ (0x80000440 : Word).toNat % 4 = 0 ∧ (0x80000410 : Word).toNat % 4 = 0 ∧
    common.lastPc.toNat ≤ (0x80000410 : Word).toNat ∧ (0x80000410 : Word).toNat ≤ (0x80000440 : Word).toNat := by
  decide +kernel

/-- A handler that raises a line and schedules its next event; the lines at the ends of their range. -/
theorem witness_DeviceCallsLeaveTheTimer :
    (applyCalls [.setIp 3 true, .schedule .vi 100, .cancel .si, .invalidateRange 0 3] common).toOption.isSome = true ∧
    eventTypeKnown common.params .vi = true ∧ eventTypeKnown common.params .compare = true ∧
    eventTypeKnown common.params (.device 0) = false ∧
    eventTypeKnown { common.params with deviceEventTypes := 1 } (.device 0) = true ∧
    eventTypeKnown { common.params with deviceEventTypes := 1 } (.device 1) = false ∧
    (2 ≤ 2 ∧ 6 ≤ 6 ∧ ¬(2 ≤ 1 ∧ 1 ≤ 6) ∧ ¬(2 ≤ 7 ∧ 7 ≤ 6)) := by decide +kernel

theorem witness_ViewsOfTheFpuBank :
    common.cp0.status.getLsbD 26 = true ∧ (withStatus 0x30000000 common).cp0.status.getLsbD 26 = false := by decide +kernel

/-- A bank before and after each of the two writes. -/
theorem witness_ReshuffleMovesEachHalf :
    (let s := withFpr 1 0xCCCCCCCCDDDDDDDD common;
      let t := { withStatus 0x30000000 s with fpr := packSlots s.fpr };
      s.fr = true ∧ t.fr = false ∧ t.fpr = packSlots s.fpr) ∧
    (let s := withStatus 0x30000000 (withFpr 16 0xCCCCCCCCDDDDDDDD common);
      let t := { withStatus 0x34000000 s with fpr := unpackSlots s.fpr };
      s.fr = false ∧ t.fr = true ∧ t.fpr = unpackSlots s.fpr) := by decide +kernel

theorem witness_Cop1MovesComplete :
    (withStatus 0x14000000 common).cp0.status.getLsbD 29 = false ∧ common.cp0.status.getLsbD 29 = true ∧ (1 : RegNum) ≠ 0 ∧ (1 : RegNum) ≠ 31 ∧ (30 : RegNum) ≠ 0 ∧ (30 : RegNum) ≠ 31 := by
  decide +kernel

/-- A move, and a load at an aligned address of plain memory. -/
theorem witness_FrameOfFpuWrites :
    common.cp0.status.getLsbD 29 = true ∧ (∃ t, exec (.mtc1 9 3) common = .next t) ∧
    (let s := common.writeX 4 0xFFFFFFFF80000100;
      translateAddress (s.effectiveAddress 8 4) .read s = .hit 0x108 ∧ wordAligned (s.effectiveAddress 8 4) = true ∧
        dwordAligned (s.effectiveAddress 8 4) = true ∧ inDeviceWindow s.params 0x108 4 = false ∧
        inDeviceWindow s.params 0x108 8 = false) ∧
    ∃ t, exec (.ldc1 2 8 4) (common.writeX 4 0xFFFFFFFF80000100) = .next t := by
  refine ⟨by decide +kernel, ?_, by decide +kernel, ?_⟩
  · obtain ⟨t, ht, -⟩ := eq_next_of_nextIs (r := exec (.mtc1 9 3) common) (p := fun _ => true) (by decide +kernel)
    exact ⟨t, ht⟩
  · obtain ⟨t, ht, -⟩ := eq_next_of_nextIs (r := exec (.ldc1 2 8 4) (common.writeX 4 0xFFFFFFFF80000100))
      (p := fun _ => true) (by decide +kernel)
    exact ⟨t, ht⟩

/-- The last word and the last doubleword of kseg1. -/
theorem witness_LoadsComplete :
    let s := common.writeX 4 0xFFFFFFFFBFFFFFF8
    s.cp0.status.getLsbD 29 = true ∧
    (translateAddress (s.effectiveAddress 4 4) .read s = .hit 0x1FFFFFFC ∧ (s.effectiveAddress 4 4).toNat % 4 = 0 ∧
      inDeviceWindow s.params 0x1FFFFFFC 4 = false) ∧
    (translateAddress (s.effectiveAddress 0 4) .read s = .hit 0x1FFFFFF8 ∧ (s.effectiveAddress 0 4).toNat % 8 = 0 ∧
      inDeviceWindow s.params 0x1FFFFFF8 8 = false) := by decide +kernel

theorem witness_StoresCompleteAndKeepOtherBytes :
    let s := (written 0 0 0x2000 0x106 0x142 common).writeX 4 0x2FF8
    s.cp0.status.getLsbD 29 = true ∧
    (translateAddress (s.effectiveAddress 4 4) .write s = .hit 0x4FFC ∧ (s.effectiveAddress 4 4).toNat % 4 = 0 ∧
      inDeviceWindow s.params 0x4FFC 4 = false ∧ 4 ≤ ((0x5000 : Word) - 0x4FFC).toNat) ∧
    (translateAddress (s.effectiveAddress 0 4) .write s = .hit 0x4FF8 ∧ (s.effectiveAddress 0 4).toNat % 8 = 0 ∧
      inDeviceWindow s.params 0x4FF8 8 = false ∧ 8 ≤ ((0x5000 : Word) - 0x4FF8).toNat) := by decide +kernel

/-- Unusable; misaligned for each size; a segment miss and a table miss at an aligned address. -/
theorem witness_LoadStoreChecksInOrder :
    (withStatus 0x14000000 common).cp0.status.getLsbD 29 = false ∧ common.cp0.status.getLsbD 29 = true ∧
    ((common.writeX 4 3).effectiveAddress 0 4).toNat % 4 ≠ 0 ∧ ((common.writeX 4 4).effectiveAddress 0 4).toNat % 8 ≠ 0 ∧
    (let s := withStatus 0x34000010 (common.writeX 4 0x80000000);
      translateAddress (s.effectiveAddress 0 4) .read s = .miss (.addressError .read 0x80000000) ∧
        (s.effectiveAddress 0 4).toNat % 8 = 0) ∧
    (let s := common.writeX 4 0x7FFFFFF8;
      translateAddress (s.effectiveAddress 0 4) .write s = .miss (.tlbRefill .write 0x7FFFFFF8) ∧
        (s.effectiveAddress 0 4).toNat % 8 = 0) := by decide +kernel

/-- A window of 8 bytes at physical 0x100; no reply, and one reply that raises a line and writes memory. -/
theorem witness_DeviceWindowAccessUsesReply :
    let s := { common.writeX 4 0xFFFFFFFF80000100 with
      params := { common.params with deviceWindows := [⟨0x100, 8⟩] } }
    let r : DeviceReply := ⟨7, [(0x200, 1)], [.setIp 3 true]⟩
    s.cp0.status.getLsbD 29 = true ∧ (s.effectiveAddress 0 4).toNat % 8 = 0 ∧ (s.effectiveAddress 0 4).toNat % 4 = 0 ∧
    inDeviceWindow s.params 0x100 4 = true ∧ inDeviceWindow s.params 0x100 8 = true ∧ s.deviceReplies = [] ∧
    translateAddress (s.effectiveAddress 0 4) .read s = .hit 0x100 ∧
    translateAddress (s.effectiveAddress 0 4) .write s = .hit 0x100 ∧
    (applyCalls r.calls { s with mem := Memory.writeBytes s.mem r.dma, deviceReplies := [] }).toOption.isSome = true := by
  decide +kernel

/-- A checkpoint whose COMPARE node is due exactly now; another one with an overdue node; no checkpoint; an image too long, and
one out of order. -/
theorem witness_SaveThenRestoreIsIdentity :
    (let s := { common with time := 5, queue := [⟨.compare, 5⟩, ⟨.vi, 9⟩] };
      Queue.wf s.queue ∧ (∀ n ∈ s.queue, s.time ≤ n.due) ∧ s.atCheckpoint = true ∧
        (saveRead s).toOption.isSome = true) ∧
    (let s := { common with time := 5, queue := [⟨.compare, 4⟩] };
      Queue.wf s.queue ∧ (saveRead s).toOption.isSome = true) ∧
    (withStatus 0 common).atCheckpoint = true ∧ ({ common with pc := 0x80000404 } : State).atCheckpoint = false ∧
    ({ common with inDelaySlot := true } : State).atCheckpoint = false ∧
    16 < (List.replicate 17 (EventType.vi, 7)).length ∧ ¬([9, 5] : List Nat).Pairwise (· ≤ ·) := by decide +kernel

/-- R412, R319: an image read at T = 5 and restored at T = 100: the overdue node is due now, the other as far off as it was. -/
theorem test_restore_elsewhere :
    ((saveRead { withEpc 7 common with time := 5, queue := [⟨.compare, 4⟩, ⟨.vi, 9⟩] }).bind fun img =>
      saveWrite img { common with time := 100 }).toOption.map (fun t => (t.queue, t.time, t.cp0.epc)) =
        some ([⟨.compare, 100⟩, ⟨.vi, 104⟩], 100, 7) := by decide +kernel

/-- R412, U26: no image is read or written away from a checkpoint. -/
theorem test_no_restore_off_checkpoint :
    ((saveRead common).bind fun img => saveWrite img { common with pc := 0x80000404 }).toOption = none ∧
    (saveRead { common with inDelaySlot := true }).toOption.isSome = false := by decide +kernel

end Sys2Proof.Tests
end

section

/-! Memory: what a byte, a word and a doubleword read after a store (R115, R116, R121). A byte is addressed by its offset
`(c - a).toNat` from the store, so that each fact covers a store whose bytes wrap at 2^32 (R9, log 23). -/
namespace Sys2Proof.Machine

/-- The bytes of a word, the most significant first, make up the word. -/
theorem Word.append_bytes (v : Word) :
    v.extractLsb' 24 8 ++ v.extractLsb' 16 8 ++ v.extractLsb' 8 8 ++ v.extractLsb' 0 8 = v := by
  have join (start len : Nat) :
      v.extractLsb' (start + 8) len ++ v.extractLsb' start 8 = v.extractLsb' start (len + 8) :=
    BitVec.extractLsb'_append_extractLsb'_eq_extractLsb' rfl
  rw [join 16 8, join 8 16, join 0 24]
  exact BitVec.extractLsb'_eq_self

/-- The two words of a doubleword, the upper one first, make up the doubleword. -/
theorem Dword.append_words (v : Dword) : v.extractLsb' 32 32 ++ v.extractLsb' 0 32 = v :=
  (BitVec.extractLsb'_append_extractLsb'_eq_extractLsb' rfl).trans BitVec.extractLsb'_eq_self

/-- Bits within a field of `v`, as bits of `v` itself. -/
theorem extractLsb'_extractLsb'_add {w start start' len len' : Nat} (v : BitVec w) (h : start' + len ≤ len') :
    (v.extractLsb' start len').extractLsb' start' len = v.extractLsb' (start + start') len := by
  ext i hi
  simp only [BitVec.getElem_extractLsb', BitVec.getLsbD_extractLsb', Nat.add_assoc]
  simp only [show start' + i < len' by omega, decide_true, Bool.true_and]

/-- R115: the byte at offset `k` of a stored word is bits 31-8k to 24-8k of it; every other byte reads as before. -/
theorem Memory.readByte_writeWord (m : List Host.Cell) (a v c : Word) :
    Memory.readByte (Memory.writeWord m a v) c =
      if (c - a).toNat < 4 then v.extractLsb' (24 - 8 * (c - a).toNat) 8 else Memory.readByte m c := by
  obtain ⟨d, rfl⟩ : ∃ d, c = a + d := ⟨c - a, by simp⟩
  rw [add_sub_cancel_left]
  split
  case isTrue h =>
    have hd : d = 0 ∨ d = 1 ∨ d = 2 ∨ d = 3 := by bv_omega
    rcases hd with rfl | rfl | rfl | rfl <;> simp [Memory.writeWord, Memory.readByte_writeByte]
  case isFalse h =>
    exact Memory.readByte_writeWord_of_ne m a v _ ⟨by bv_omega, by bv_omega, by bv_omega, by bv_omega⟩

/-- R121: a word store leaves every byte outside its four. -/
theorem Memory.readByte_writeWord_of_le (m : List Host.Cell) (a v c : Word) (h : 4 ≤ (c - a).toNat) :
    Memory.readByte (Memory.writeWord m a v) c = Memory.readByte m c := by
  rw [Memory.readByte_writeWord, if_neg (by omega)]

@[simp] theorem Memory.readWord_writeWord_same (m : List Host.Cell) (a v : Word) :
    Memory.readWord (Memory.writeWord m a v) a = v := by
  simp [Memory.readWord, Memory.readByte_writeWord, Word.append_bytes]

/-- The word just below a stored word reads as before. -/
theorem Memory.readWord_writeWord_add_four (m : List Host.Cell) (a v : Word) :
    Memory.readWord (Memory.writeWord m (a + 4) v) a = Memory.readWord m a := by
  have below (c : Word) (hc : (c - a).toNat < 4) :
      Memory.readByte (Memory.writeWord m (a + 4) v) c = Memory.readByte m c :=
    Memory.readByte_writeWord_of_le m _ v c (by bv_omega)
  simp only [Memory.readWord]
  rw [below a (by simp), below (a + 1) (by simp), below (a + 2) (by simp), below (a + 3) (by simp)]

/-- R116: the word at the address of a stored doubleword is its upper half. -/
@[simp] theorem Memory.readWord_writeDword_high (m : List Host.Cell) (a : Word) (v : Dword) :
    Memory.readWord (Memory.writeDword m a v) a = v.extractLsb' 32 32 := by
  rw [Memory.writeDword, Memory.readWord_writeWord_add_four, Memory.readWord_writeWord_same]

/-- R116: the word four bytes on is its lower half. -/
@[simp] theorem Memory.readWord_writeDword_low (m : List Host.Cell) (a : Word) (v : Dword) :
    Memory.readWord (Memory.writeDword m a v) (a + 4) = v.extractLsb' 0 32 :=
  Memory.readWord_writeWord_same _ _ _

@[simp] theorem Memory.readDword_writeDword_same (m : List Host.Cell) (a : Word) (v : Dword) :
    Memory.readDword (Memory.writeDword m a v) a = v := by
  rw [Memory.readDword, Memory.readWord_writeDword_high, Memory.readWord_writeDword_low, Dword.append_words]

/-- R116: the byte at offset `k` of a stored doubleword is bits 63-8k to 56-8k of it; every other byte reads as before. -/
theorem Memory.readByte_writeDword (m : List Host.Cell) (a : Word) (v : Dword) (c : Word) :
    Memory.readByte (Memory.writeDword m a v) c =
      if (c - a).toNat < 8 then v.extractLsb' (56 - 8 * (c - a).toNat) 8 else Memory.readByte m c := by
  simp only [Memory.writeDword, Memory.readByte_writeWord]
  by_cases hlow : (c - (a + 4)).toNat < 4
  · have hoff : (c - a).toNat = (c - (a + 4)).toNat + 4 := by bv_omega
    rw [if_pos hlow, if_pos (by omega), extractLsb'_extractLsb'_add v (by omega), hoff]
    congr 1
    omega
  · have hout : ¬(4 ≤ (c - a).toNat ∧ (c - a).toNat < 8) := by bv_omega
    rw [if_neg hlow]
    by_cases hhigh : (c - a).toNat < 4
    · rw [if_pos hhigh, if_pos (by omega), extractLsb'_extractLsb'_add v (by omega)]
      congr 1
      omega
    · rw [if_neg hhigh, if_neg (by omega)]

/-- R121: a doubleword store leaves every byte outside its eight. -/
theorem Memory.readByte_writeDword_of_le (m : List Host.Cell) (a : Word) (v : Dword) (c : Word)
    (h : 8 ≤ (c - a).toNat) : Memory.readByte (Memory.writeDword m a v) c = Memory.readByte m c := by
  rw [Memory.readByte_writeDword, if_neg (by omega)]

/-- R116: the eight bytes of a stored doubleword, the most significant first. -/
theorem Memory.readByte_writeDword_add (m : List Host.Cell) (a : Word) (v : Dword) (k : Fin 8) :
    Memory.readByte (Memory.writeDword m a v) (a + BitVec.ofNat 32 k) = v.extractLsb' (56 - 8 * k) 8 := by
  have hk : (a + BitVec.ofNat 32 k - a).toNat = k := by
    rw [add_sub_cancel_left, BitVec.toNat_ofNat, Nat.mod_eq_of_lt (by omega)]
  rw [Memory.readByte_writeDword, hk, if_pos k.isLt]

/-- Settles O15: a doubleword store is two word stores, the second of which does not reach the first, and each byte is
read by its offset from `a`. -/
theorem storedDwordReadsBackBigEndian : Obligations.StoredDwordReadsBackBigEndian := fun m a v =>
  ⟨Memory.readDword_writeDword_same m a v, Memory.readWord_writeDword_high m a v, Memory.readWord_writeDword_low m a v,
    Memory.readByte_writeDword_add m a v, fun c => Memory.readByte_writeDword_of_le m a v c⟩

end Sys2Proof.Machine
end

section

/-! General registers and the move to the next instruction (R10, R30, R31, R390). -/
namespace Sys2Proof.Machine

/-- Settles O5: `advance` is one of two updates, by whether the instruction stands in a delay slot. -/
theorem advanceIsTheNextInstruction : Obligations.AdvanceIsTheNextInstruction := by
  intro s
  refine ⟨advance_of_not_slot, fun hslot => ?_⟩
  rw [advance_of_slot hslot]
  exact ⟨rfl, rfl, rfl, rfl, rfl⟩

/-- Settles O18, by the reading rule of a register after a write. -/
theorem gprZeroDiscardsWrites : Obligations.GprZeroDiscardsWrites := fun s v =>
  ⟨readX_zero s, writeX_zero s v, fun _ j hi => readX_writeX s j v hi⟩

end Sys2Proof.Machine
end

section

/-! What a boundary and a device access keep: the device calls, the handlers and the block's own events, each said once for
every property of states (R101, R315, R386). -/
namespace Sys2Proof.Machine

/-- The calls a device may make, each of which keeps `P` (R315, R316, R442). -/
structure KeptByCalls (P : State → Prop) : Prop where
  setIp : ∀ s k level, P s → P (setIp k level s)
  schedule : ∀ s type delta, type ≠ .compare → P s → P (schedule type delta s).1
  cancel : ∀ s type, type ≠ .compare → P s → P (cancel type s)
  invalidateRange : ∀ s lo hi, P s → P (invalidateRange lo hi s)

theorem KeptByCalls.applyCalls {P : State → Prop} (k : KeptByCalls P) {calls : List DeviceCall} {s t : State}
    (hs : P s) (h : applyCalls calls s = .ok t) : P t :=
  applyCalls_keeps k.setIp k.schedule k.cancel k.invalidateRange hs h

/-- A device access uses up one reply: its DMA first, then its calls (R101). -/
theorem deviceAccess_cases {pa : Word} {s t : State} {v : Dword} (h : deviceAccess pa s = .ok (t, v)) :
    ∃ r rest, s.deviceReplies = r :: rest ∧ v = r.value ∧
      applyCalls r.calls { s with mem := Memory.writeBytes s.mem r.dma, deviceReplies := rest } = .ok t := by
  unfold deviceAccess at h
  split at h
  case h_1 => cases h
  case h_2 r rest hreplies =>
    split at h
    case h_1 hcalls =>
      cases h
      exact ⟨r, rest, hreplies, rfl, hcalls⟩
    case h_2 => cases h

/-- A device access keeps what its calls and its DMA keep. -/
theorem KeptByCalls.deviceAccess {P : State → Prop} (k : KeptByCalls P)
    (hdma : ∀ (s : State) bytes replies,
      P s → P { s with mem := Memory.writeBytes s.mem bytes, deviceReplies := replies })
    {pa : Word} {s t : State} {v : Dword} (hs : P s) (h : deviceAccess pa s = .ok (t, v)) : P t := by
  obtain ⟨r, rest, -, -, hcalls⟩ := deviceAccess_cases h
  exact k.applyCalls (hdma s _ _ hs) hcalls

/-- The handlers of the dispatched events keep what their calls keep (R386). -/
theorem KeptByCalls.runHandlers {P : State → Prop} (k : KeptByCalls P)
    (hnext : ∀ (s : State) later, P s → P { s with handlerCalls := later })
    {nodes : List Node} {s t : State} (hs : P s) (h : runHandlers nodes s = .ok t) : P t := by
  induction nodes generalizing s with
  | nil =>
    cases h
    exact hs
  | cons n nodes ih =>
    unfold Machine.runHandlers at h
    split at h
    case h_1 => exact ih hs h
    case h_2 calls later _ =>
      split at h
      case h_1 u hcalls => exact ih (k.applyCalls (hnext s later hs) hcalls) h
      case h_2 => cases h

theorem fireCompares_keeps {P : State → Prop} (hfire : ∀ s, P s → P (compareFire s)) (nodes : List Node) {s : State}
    (hs : P s) : P (fireCompares nodes s) := by
  induction nodes generalizing s with
  | nil => exact hs
  | cons n nodes ih =>
    refine ih ?_
    split
    · exact hfire s hs
    · exact hs

/-- The boundary step up to the interrupt check keeps what the sample, the block's own events and the handlers keep. -/
theorem KeptByCalls.serviceEvents {P : State → Prop} (k : KeptByCalls P) (hsample : ∀ s, P s → P (countSample s.pc s))
    (hpop : ∀ s now, P s → P (popDue now s).1) (hfire : ∀ s, P s → P (compareFire s))
    (hnext : ∀ (s : State) later, P s → P { s with handlerCalls := later })
    {s t : State} (hs : P s) (h : serviceEvents s = .ok t) : P t :=
  k.runHandlers hnext (fireCompares_keeps hfire _ (hpop _ _ (hsample s hs))) h

end Sys2Proof.Machine
end

section

/-! What no step changes: the parameters, HI, LO, the stop flag, F_BOOT and F_REFUSED; and the two flags a step may set (R30, R32,
R64, R412). -/
namespace Sys2Proof.Machine

/-- What every state a step reaches from `s` has in common with it. -/
structure FixedFrom (s t : State) : Prop where
  params : t.params = s.params
  hi : t.hi = s.hi
  lo : t.lo = s.lo
  stop : t.stop = s.stop
  boot : t.faults.boot = s.faults.boot
  refused : t.faults.refused = s.faults.refused
  queueFull : s.faults.queueFull = true → t.faults.queueFull = true
  undefined : s.faults.undefined = true → t.faults.undefined = true

namespace FixedFrom

theorem refl (s : State) : FixedFrom s s := ⟨rfl, rfl, rfl, rfl, rfl, rfl, id, id⟩

variable {s t : State} (h : FixedFrom s t)
include h

theorem schedule (type : EventType) (delta : Nat) : FixedFrom s (schedule type delta t).1 := by
  obtain ⟨-, e⟩ | ⟨-, e⟩ := schedule_cases type delta t <;> rw [e]
  · exact { h with queueFull := fun _ => rfl }
  · exact { h with }

theorem reschedCompare : FixedFrom s (reschedCompare t) := h.schedule _ _

theorem compareFire : FixedFrom s (compareFire t) := reschedCompare (t := { t with cp0 := _ }) { h with }

theorem setIp (k : Nat) (level : Bool) : FixedFrom s (setIp k level t) := by
  unfold Machine.setIp
  split
  · exact { h with }
  · exact h

theorem advance : FixedFrom s t.advance := by
  unfold State.advance
  split <;> exact { h with }

theorem cp0Write (r : Cp0Reg) (v : Word) : FixedFrom s (cp0Write r v t) := by
  cases r
  case count => exact reschedCompare (t := { cancel .compare (countSample t.pc t) with cp0 := _ }) { h with }
  case compare => exact reschedCompare (t := { cancel .compare (countSample t.pc t) with cp0 := _ }) { h with }
  all_goals exact { h with }

theorem tlbWrite (i : Fin 32) : FixedFrom s (tlbWrite i t) := by
  obtain ⟨params, hi, lo, stop, boot, refused, queueFull, undefined⟩ := h
  constructor <;> simpa

end FixedFrom

theorem keptByCalls_fixedFrom (s : State) : KeptByCalls (FixedFrom s) where
  setIp _ k level h := h.setIp k level
  schedule _ type delta _ h := h.schedule type delta
  cancel _ _ _ h := { h with }
  invalidateRange _ _ _ h := { h with }

theorem keptByOperations_fixedFrom (s : State) : KeptByOperations (FixedFrom s) where
  sample _ h := { h with }
  enter _ _ h := { h with }
  eret _ h := { h with }
  undefined _ h := { h with undefined := fun _ => rfl }
  advance _ h := h.advance
  writeX _ _ _ h := { h with }
  writeS _ _ _ h := { h with }
  writeD _ _ _ h := { h with }
  fcr31 _ _ h := { h with }
  cp0Write r v _ h := h.cp0Write r v
  draw _ h := { h with }
  held _ _ _ h := { h with }
  tlbRead _ _ h := { h with }
  probe _ h := { h with }
  tlbWrite i _ h := h.tlbWrite i
  memWord _ _ _ h := { h with }
  memDword _ _ _ h := { h with }
  device _ _ _ _ hs h := (keptByCalls_fixedFrom s).deviceAccess (fun _ _ _ h => { h with }) hs h
  service _ _ hs h := (keptByCalls_fixedFrom s).serviceEvents (fun _ h => { h with }) (fun _ _ h => { h with })
    (fun _ h => h.compareFire) (fun _ _ h => { h with }) hs h

/-- Settles O11: every operation of a step keeps what is fixed from the state the step starts in. -/
theorem stepNeverTouchesStopOrParameters : Obligations.StepNeverTouchesStopOrParameters := by
  intro s t h
  obtain ⟨params, hi, lo, stop, boot, refused, queueFull, undefined⟩ :=
    (keptByOperations_fixedFrom s).step (FixedFrom.refl s) h
  exact ⟨params, hi, lo, stop, boot, refused, queueFull, undefined⟩

end Sys2Proof.Machine
end

section

/-! Words with clear bits: how a mask that reads 0 passes through the ways a register is put together. -/
namespace Sys2Proof.Machine

theorem masked_and_eq_zero {v mask m : Word} (h : mask &&& m = 0) : v &&& mask &&& m = 0 := by
  rw [BitVec.and_assoc, h]
  exact BitVec.and_zero

theorem or_and_eq_zero {v w m : Word} (hv : v &&& m = 0) (hw : w &&& m = 0) : (v ||| w) &&& m = 0 := by
  rw [BitVec.and_or_distrib_right, hv, hw]
  rfl

/-- A field of `n` bits placed at bit `k` is clear where `n` ones at bit `k` are. -/
theorem field_and_eq_zero {n k : Nat} {f : BitVec n} {m : Word}
    (h : (BitVec.allOnes n).setWidth 32 <<< k &&& m = 0) : f.setWidth 32 <<< k &&& m = 0 := by
  rw [← BitVec.and_allOnes (x := f), BitVec.setWidth_and, BitVec.shiftLeft_and_distrib]
  exact masked_and_eq_zero h

/-- A field at bit 0. -/
theorem setWidth_and_eq_zero {n : Nat} {f : BitVec n} {m : Word} (h : (BitVec.allOnes n).setWidth 32 &&& m = 0) :
    f.setWidth 32 &&& m = 0 := by
  rw [← BitVec.shiftLeft_zero (f.setWidth 32)]
  exact field_and_eq_zero (by simpa using h)

end Sys2Proof.Machine
end

section

/-! The reserved CP0 fields under each update of the CP0 registers (R37 to R58, U19). -/
namespace Sys2Proof.Machine

/-- `Cp0.ReservedFields` by register. -/
structure Cp0.Reserved (c : Cp0) : Prop where
  index : c.index &&& 0x7FFFFFC0 = 0
  entryLo0 : c.entryLo0 &&& 0xFC000000 = 0
  entryLo1 : c.entryLo1 &&& 0xFC000000 = 0
  context : c.context &&& 0x0000000F = 0
  pageMask : c.pageMask &&& 0xFE001FFF = 0
  wired : c.wired &&& 0xFFFFFFC0 = 0
  entryHi : c.entryHi &&& 0x00001F00 = 0
  status : c.status &&& 0x00A80000 = 0
  cause : c.cause &&& 0x4FFF0083 = 0
  config : c.config &&& 0xF0FFFFF0 = 0x0006E460
  watchLo : c.watchLo &&& 0x00000004 = 0
  watchHi : c.watchHi &&& 0xFFFFFFF0 = 0
  tagLo : c.tagLo &&& 0xF000003F = 0

theorem Cp0.reservedFields_iff {c : Cp0} : c.ReservedFields ↔ c.Reserved := by
  constructor
  · rintro ⟨index, entryLo0, entryLo1, context, pageMask, wired, entryHi, status, cause, config, watchLo, watchHi, tagLo⟩
    constructor <;> assumption
  · rintro ⟨index, entryLo0, entryLo1, context, pageMask, wired, entryHi, status, cause, config, watchLo, watchHi, tagLo⟩
    exact ⟨index, entryLo0, entryLo1, context, pageMask, wired, entryHi, status, cause, config, watchLo, watchHi, tagLo⟩

/-- No interrupt line is a reserved bit of Cause. -/
theorem putIp_and_reserved (cause : Word) {k : Nat} (level : Bool) (hk : k < 8) :
    putIp cause k level &&& 0x4FFF0083 = cause &&& 0x4FFF0083 := by
  have clear : ∀ k : Fin 8, (0x4FFF0083 : Word).getLsbD (8 + k) = false := by decide
  exact putBit_and_of_clear level (by omega) (clear ⟨k, hk⟩)

theorem entryLoWord_and_reserved (pfn : BitVec 20) (c : BitVec 3) (d v g : Bool) :
    entryLoWord pfn c d v g &&& 0xFC000000 = 0 :=
  or_and_eq_zero
    (or_and_eq_zero
      (or_and_eq_zero (or_and_eq_zero (field_and_eq_zero (by decide)) (field_and_eq_zero (by decide)))
        (field_and_eq_zero (by decide)))
      (field_and_eq_zero (by decide)))
    (setWidth_and_eq_zero (by decide))

/-- A successful probe writes an entry number, a failed one P (R232). -/
theorem probeIndex_and_reserved {c : Cp0} (tlb : Vector TlbEntry 32) (h : c.index &&& 0x7FFFFFC0 = 0) :
    probeIndex c tlb &&& 0x7FFFFFC0 = 0 := by
  have number : ∀ i : Fin 32, BitVec.ofNat 32 i &&& 0x7FFFFFC0 = 0 := by decide
  unfold probeIndex
  split
  case h_1 i hfound =>
    obtain ⟨hi, -⟩ := List.findIdx?_eq_some_iff_getElem.1 hfound
    exact number ⟨i, by simpa using hi⟩
  case h_2 => exact or_and_eq_zero h (by decide)

namespace Cp0.Reserved

variable {c : Cp0} (h : c.Reserved)
include h

/-- What an exception writes besides ExcCode, EPC, BD and EXL (R376, R377, R378). -/
theorem extra (e : Exc) : (e.extra c).Reserved := by
  cases e
  case tlbRefill kind va =>
    exact
      { h with
        context := or_and_eq_zero (masked_and_eq_zero (by decide)) (field_and_eq_zero (by decide))
        entryHi := or_and_eq_zero (field_and_eq_zero (by decide)) (masked_and_eq_zero (by decide)) }
  case copUnusable cop => exact { h with cause := (merge_and_of_disjoint (by decide)).trans h.cause }
  all_goals exact { h with }

theorem enterCp0 (e : Exc) (epc : Word) (bd : Bool) : (e.enterCp0 epc bd c).Reserved := by
  have hx := h.extra e
  have hcode : putExcCode (e.extra c).cause e.code &&& 0x4FFF0083 = 0 :=
    (merge_and_of_disjoint (by decide)).trans hx.cause
  refine { hx with status := (putBit_and_of_clear _ (by decide) (by decide)).trans hx.status, cause := ?_ }
  show (if statusExl (e.extra c).status then _ else _) &&& _ = _
  split
  · exact hcode
  · exact (putBit_and_of_clear bd (by decide) (by decide)).trans hcode

theorem regsFromEntry (e : TlbEntry) : (regsFromEntry e c).Reserved :=
  { h with
    pageMask := field_and_eq_zero (by decide)
    entryHi := or_and_eq_zero (field_and_eq_zero (by decide)) (setWidth_and_eq_zero (by decide))
    entryLo0 := entryLoWord_and_reserved _ _ _ _ _
    entryLo1 := entryLoWord_and_reserved _ _ _ _ _ }

end Cp0.Reserved

end Sys2Proof.Machine
end

section

/-! The pages the fast lookup tables hold stay below 2^20 (R61). -/
namespace Sys2Proof.Machine

theorem pageOf_lt (va : Word) : pageOf va < 1048576 := (va.extractLsb' 12 20).isLt

theorem Lut.wf_put {lut : List (Nat × BitVec 20)} (h : Lut.wf lut) (va : Word) (ppn : BitVec 20) :
    Lut.wf (Table.put (pageOf va) ppn lut) := by
  refine ⟨Table.sorted_put _ _ h.1, fun c hc => ?_⟩
  obtain rfl | hc := Table.mem_put hc
  · exact pageOf_lt va
  · exact h.2 c hc

theorem Lut.wf_erase {lut : List (Nat × BitVec 20)} (h : Lut.wf lut) (k : Nat) : Lut.wf (Table.erase k lut) :=
  ⟨Table.sorted_erase _ h.1, fun c hc => h.2 c (Table.mem_erase.1 hc).1⟩

theorem Lut.wf_fillPages (r : HalfRange) {lut : List (Nat × BitVec 20)} (h : Lut.wf lut) : Lut.wf (fillPages r lut) := by
  unfold fillPages
  induction pageStarts r generalizing lut with
  | nil => exact h
  | cons p ps ih => exact ih (Lut.wf_put h p _)

theorem Lut.wf_clearPages (r : HalfRange) {lut : List (Nat × BitVec 20)} (h : Lut.wf lut) :
    Lut.wf (clearPages r lut) := by
  unfold clearPages
  induction pageStarts r generalizing lut with
  | nil => exact h
  | cons p ps ih => exact ih (Lut.wf_erase h _)

end Sys2Proof.Machine
end

section

/-! The state invariant under each operation of a step (R37 to R67, R317). -/
namespace Sys2Proof.Machine

namespace State.WellFormed

variable {s : State} (h : s.WellFormed)
include h

theorem reserved : s.cp0.Reserved := Cp0.reservedFields_iff.1 h.cp0

theorem withCp0 {c : Cp0} (hc : s.cp0.Reserved → c.Reserved) : State.WellFormed { s with cp0 := c } :=
  { h with cp0 := Cp0.reservedFields_iff.2 (hc h.reserved) }

theorem countSample (p : Word) : (countSample p s).WellFormed := { h.withCp0 fun hc => { hc with } with }

theorem advance : s.advance.WellFormed := by
  unfold State.advance
  split
  · exact { h.countSample (s.pc + 4) with }
  · exact { h with }

theorem enter (e : Exc) : (enter e s).WellFormed :=
  { (h.countSample s.pc).withCp0 fun hc => hc.enterCp0 e _ _ with
    xs := pushSnapshot_length h.legal.2 h.xs }

theorem returnFromException : (returnFromException s).WellFormed := by
  have hbit (v : Word) (erl : Bool) : putBit v (if erl then 2 else 1) false &&& 0x00A80000 = v &&& 0x00A80000 := by
    cases erl <;> exact putBit_and_of_clear _ (by decide) (by decide)
  have ht := h.countSample (s.pc + 4)
  exact
    { ht with
      cp0 := Cp0.reservedFields_iff.2 { ht.reserved with status := (hbit _ _).trans ht.reserved.status }
      xs := Nat.le_trans (List.dropLast_sublist _).length_le h.xs }

theorem schedule (type : EventType) (delta : Nat) : (schedule type delta s).1.WellFormed := by
  obtain ⟨-, e⟩ | ⟨hl, e⟩ := schedule_cases type delta s <;> rw [e]
  · exact { h with }
  · exact { h with queue := Queue.wf_insert _ hl h.queue }

theorem cancel (type : EventType) : (cancel type s).WellFormed := { h with queue := Queue.wf_without type h.queue }

theorem popDue (now : Nat) : (popDue now s).1.WellFormed := { h with queue := Queue.wf_afterPop now h.queue }

theorem setIp (k : Nat) (level : Bool) : (setIp k level s).WellFormed := by
  unfold Machine.setIp
  split
  case isTrue hk =>
    exact h.withCp0 fun hc => { hc with cause := (putIp_and_reserved _ level (by omega)).trans hc.cause }
  case isFalse => exact h

theorem reschedCompare : (reschedCompare s).WellFormed := h.schedule _ _

theorem compareFire : (compareFire s).WellFormed :=
  reschedCompare (h.withCp0 fun hc => { hc with cause := (putIp_and_reserved _ true (by decide)).trans hc.cause })

theorem invalidateRanges (ranges : List (Word × Word)) : (invalidateRanges ranges s).WellFormed :=
  { h with heldCode := sorted_invalidateRanges ranges h.heldCode }

theorem writeCount (v : Word) : (writeCount v s).WellFormed :=
  reschedCompare (((h.countSample s.pc).cancel .compare).withCp0 fun hc => { hc with })

theorem writeCompare (v : Word) : (writeCompare v s).WellFormed :=
  reschedCompare (((h.countSample s.pc).cancel .compare).withCp0 fun hc =>
    { hc with cause := (putIp_and_reserved _ false (by decide)).trans hc.cause })

theorem writeStatus (v : Word) : (writeStatus v s).WellFormed :=
  { h with
    cp0 := Cp0.reservedFields_iff.2
      { h.reserved with status := masked_and_eq_zero (v := v) (mask := statusMask) (by decide) } }

/-- The write mask of each register leaves its reserved fields clear (R184 to R202). -/
theorem cp0Write (r : Cp0Reg) (v : Word) : (cp0Write r v s).WellFormed := by
  cases r
  case random | badVAddr | prId | xContext | tagHi => exact h
  case count => exact h.writeCount v
  case compare => exact h.writeCompare v
  case status => exact h.writeStatus v
  case epc | llAddr | errorEpc => exact h.withCp0 fun hc => { hc with }
  case index => exact h.withCp0 fun hc => { hc with index := masked_and_eq_zero (by decide) }
  case entryLo0 => exact h.withCp0 fun hc => { hc with entryLo0 := masked_and_eq_zero (by decide) }
  case entryLo1 => exact h.withCp0 fun hc => { hc with entryLo1 := masked_and_eq_zero (by decide) }
  case context =>
    exact h.withCp0 fun hc =>
      { hc with context := or_and_eq_zero (masked_and_eq_zero (by decide)) (masked_and_eq_zero (by decide)) }
  case pageMask => exact h.withCp0 fun hc => { hc with pageMask := masked_and_eq_zero (by decide) }
  case wired => exact h.withCp0 fun hc => { hc with wired := masked_and_eq_zero (by decide) }
  case entryHi => exact h.withCp0 fun hc => { hc with entryHi := masked_and_eq_zero (by decide) }
  case cause => exact h.withCp0 fun hc => { hc with cause := (merge_and_of_disjoint (by decide)).trans hc.cause }
  case config => exact h.withCp0 fun hc => { hc with config := (merge_and_of_disjoint (by decide)).trans hc.config }
  case watchLo => exact h.withCp0 fun hc => { hc with watchLo := masked_and_eq_zero (by decide) }
  case watchHi => exact h.withCp0 fun hc => { hc with watchHi := masked_and_eq_zero (by decide) }
  case tagLo => exact h.withCp0 fun hc => { hc with tagLo := masked_and_eq_zero (by decide) }

theorem probe : (probe s).WellFormed :=
  h.withCp0 fun hc => { hc with index := probeIndex_and_reserved s.tlb hc.index }

theorem mapHalf (r : HalfRange) : (mapHalf r s).WellFormed := by
  unfold Machine.mapHalf
  split
  · refine { h with lutR := Lut.wf_fillPages r h.lutR, lutW := ?_ }
    show Lut.wf (if r.d then _ else _)
    split
    · exact Lut.wf_fillPages r h.lutW
    · exact h.lutW
  · exact h

theorem unmapHalf (r : HalfRange) : (unmapHalf r s).WellFormed := by
  unfold Machine.unmapHalf
  split
  · refine { h with lutR := Lut.wf_clearPages r h.lutR, lutW := ?_ }
    show Lut.wf (if r.d then _ else _)
    split
    · exact Lut.wf_clearPages r h.lutW
    · exact h.lutW
  · exact h

theorem mapEntry (e : TlbEntry) : (mapEntry e s).WellFormed := (h.mapHalf _).mapHalf _

theorem unmapEntry (e : TlbEntry) : (unmapEntry e s).WellFormed := (h.unmapHalf _).unmapHalf _

theorem tlbWrite (i : Fin 32) : (tlbWrite i s).WellFormed := by
  have hset : State.WellFormed
      { Machine.unmapEntry s.tlb[i] s with tlb := (Machine.unmapEntry s.tlb[i] s).tlb.set i (entryFromRegs s.cp0) } :=
    { h.unmapEntry s.tlb[i] with }
  exact (hset.mapEntry _).invalidateRanges _

end State.WellFormed

theorem keptByCalls_wellFormed : KeptByCalls State.WellFormed where
  setIp _ k level h := h.setIp k level
  schedule _ type delta _ h := h.schedule type delta
  cancel _ type _ h := h.cancel type
  invalidateRange _ lo hi h := h.invalidateRanges [(lo, hi)]

theorem keptByOperations_wellFormed : KeptByOperations State.WellFormed where
  sample s h := h.countSample s.pc
  enter e _ h := h.enter e
  eret _ h := h.returnFromException
  undefined _ h := { h with }
  advance _ h := h.advance
  writeX _ _ _ h := { h with }
  writeS _ _ _ h := { h with }
  writeD _ _ _ h := { h with }
  fcr31 _ v h := { h with fcr31 := masked_and_eq_zero (v := v) (mask := fcr31Mask) (by decide) }
  cp0Write r v _ h := h.cp0Write r v
  draw _ h := { h with }
  held _ _ hc h := { h with heldCode := hc h.heldCode }
  tlbRead e _ h := h.withCp0 fun hc => hc.regsFromEntry e
  probe _ h := h.probe
  tlbWrite i _ h := h.tlbWrite i
  memWord _ a v h := { h with mem := Memory.wf_writeWord h.mem a v }
  memDword _ a v h := { h with mem := Memory.wf_writeDword h.mem a v }
  device _ _ _ _ hs h :=
    keptByCalls_wellFormed.deviceAccess (fun _ bytes _ h => { h with mem := Memory.wf_writeBytes h.mem bytes }) hs h
  service _ _ hs h :=
    keptByCalls_wellFormed.serviceEvents (fun s h => h.countSample s.pc) (fun _ now h => h.popDue now)
      (fun _ h => h.compareFire) (fun _ _ h => { h with }) hs h

/-- Settles O8: the state invariant is kept by every operation a step is made of. -/
theorem stepKeepsStateWellFormed : Obligations.StepKeepsStateWellFormed := fun _ _ hs h =>
  keptByOperations_wellFormed.step hs h

end Sys2Proof.Machine
end

section

/-! Translation (R103, R110, R111): the lookup by the range of the remap and the table of the access kind, the port
translate_tlb by what the lookup finds, and translate by the segment and the kernel hole. -/
namespace Sys2Proof.Machine

variable {va pa : Word} {kind : Access} {s : State}

/-- A page number above an address's low 12 bits, put together by shift and mask. -/
theorem pageNumber_append_offset (ppn : BitVec 20) (va : Word) :
    ppn ++ va.extractLsb' 0 12 = (ppn.setWidth 32 <<< 12) ||| (va &&& 0x00000FFF) := by
  have low : va &&& 0x00000FFF = (va.extractLsb' 0 12).setWidth 32 := by
    apply BitVec.eq_of_toNat_eq
    rw [BitVec.toNat_and, BitVec.toNat_setWidth_of_le (by decide), BitVec.extractLsb'_toNat, Nat.shiftRight_zero]
    exact Nat.and_two_pow_sub_one_eq_mod va.toNat 12
  rw [low, ← BitVec.setWidth_append_eq_shiftLeft_setWidth_or, BitVec.setWidth_eq]

theorem tlbLookup_of_inRemap (h : inRemap s.params va = true) : tlbLookup va kind s = some (Config.remapFn va) :=
  if_pos h

theorem tlbLookup_of_not_inRemap (h : inRemap s.params va = false) :
    tlbLookup va kind s = (Table.get (pageOf va) (s.lut kind)).map fun ppn => ppn ++ va.extractLsb' 0 12 :=
  if_neg (by simp [h])

/-- R111: the lookup reads neither CP0 (EntryHi, so the ASID) nor the TLB's entries. -/
theorem tlbLookup_withCp0Tlb (va : Word) (kind : Access) (s : State) (c : Cp0) (tlb : Vector TlbEntry 32) :
    tlbLookup va kind { s with cp0 := c, tlb := tlb } = tlbLookup va kind s := by
  cases kind <;> rfl

theorem translateTlb_of_some (h : tlbLookup va kind s = some pa) : translateTlb va kind s = (s, true, pa) := by
  rw [translateTlb, h]

theorem translateTlb_of_none (h : tlbLookup va kind s = none) :
    translateTlb va kind s = (enter (.tlbRefill kind va) s, false, sentinel) := by
  rw [translateTlb, h]

/-- What translate_tlb answers is decided by the lookup alone. -/
theorem translateTlb_snd (va : Word) (kind : Access) (s : State) :
    (translateTlb va kind s).2 = ((tlbLookup va kind s).isSome, (tlbLookup va kind s).getD sentinel) := by
  cases h : tlbLookup va kind s with
  | none => rw [translateTlb_of_none h]; rfl
  | some pa => rw [translateTlb_of_some h]; rfl

theorem translateTlb_hit_iff : (translateTlb va kind s).2 = (true, pa) ↔ tlbLookup va kind s = some pa := by
  rw [translateTlb_snd]
  cases tlbLookup va kind s <;> simp

theorem translateTlb_miss_iff : (translateTlb va kind s).2.1 = false ↔ tlbLookup va kind s = none := by
  simp [translateTlb_snd]

/-- The segments of each mode (R102): kernel all four gigabytes, supervisor kuseg and ksseg, user kuseg. -/
theorem segmentAllowed_iff (m : Mode) (va : Word) :
    segmentAllowed m va = true ↔
      m = .kernel ∨ va.toNat < 0x80000000 ∨ (m = .supervisor ∧ 0xC0000000 ≤ va.toNat ∧ va.toNat < 0xE0000000) := by
  cases m <;> simp [segmentAllowed, BitVec.lt_def, BitVec.le_def]

theorem translateAddress_of_not_allowed (h : ¬segmentAllowed (modeOf s.cp0.status) va = true) :
    translateAddress va kind s = .miss (.addressError kind va) :=
  if_neg h

theorem translateAddress_of_inHole (ha : segmentAllowed (modeOf s.cp0.status) va = true)
    (hh : inHole s.params va = true) : translateAddress va kind s = .hit (va &&& 0x1FFFFFFF) := by
  rw [translateAddress, if_pos ha, if_pos hh]

theorem translateAddress_of_some (ha : segmentAllowed (modeOf s.cp0.status) va = true)
    (hh : inHole s.params va = false) (h : tlbLookup va kind s = some pa) : translateAddress va kind s = .hit pa := by
  rw [translateAddress, if_pos ha, if_neg (by simp [hh]), h]

theorem translateAddress_of_none (ha : segmentAllowed (modeOf s.cp0.status) va = true)
    (hh : inHole s.params va = false) (h : tlbLookup va kind s = none) :
    translateAddress va kind s = .miss (.tlbRefill kind va) := by
  rw [translateAddress, if_pos ha, if_neg (by simp [hh]), h]

/-- Settles O16: the lookup finds the remapped address, the page of a valid cell or nothing, and reads neither EntryHi nor
the TLB's entries. -/
theorem translateTlbHitsOrRefills : Obligations.TranslateTlbHitsOrRefills := by
  intro va kind s
  refine ⟨fun hin => ?_, fun hout ppn hcell => ?_, fun hout hcell => ?_, fun h tlb => ?_⟩
  · exact translateTlb_of_some (tlbLookup_of_inRemap hin)
  · rw [← pageNumber_append_offset]
    exact translateTlb_of_some (by rw [tlbLookup_of_not_inRemap hout, hcell]; rfl)
  · exact translateTlb_of_none (by rw [tlbLookup_of_not_inRemap hout, hcell]; rfl)
  · rw [translateTlb_snd, translateTlb_snd, tlbLookup_withCp0Tlb va kind s _ tlb]

/-- Settles O17: an address outside the mode's segments is an address error; inside them the hole comes before the lookup,
which is what translate_tlb answers. -/
theorem translateChecksSegmentThenMap : Obligations.TranslateChecksSegmentThenMap := by
  intro va kind s
  refine ⟨fun hm hva => ?_, fun hm hva => ?_, fun hseg => ?_⟩
  · exact translateAddress_of_not_allowed (by simp [segmentAllowed_iff, hm, hva])
  · exact translateAddress_of_not_allowed (by simpa [segmentAllowed_iff, hm] using hva)
  · have hallowed := (segmentAllowed_iff _ va).2 hseg
    exact ⟨translateAddress_of_inHole hallowed,
      fun hh _ hpa => translateAddress_of_some hallowed hh (translateTlb_hit_iff.1 hpa),
      fun hh hmiss => translateAddress_of_none hallowed hh (translateTlb_miss_iff.1 hmiss)⟩

end Sys2Proof.Machine
end

section

/-! A load or store whose checks pass (R117, R127, R262, R380): the instruction is its memory access, and the access is one of
plain memory or of a device window (R101). -/
namespace Sys2Proof.Machine

/-! The checks -/

theorem requireCp1_of_usable {s : State} {rest : State → Result} (h : s.cp0.status.getLsbD 29 = true) :
    requireCp1 s rest = rest s :=
  if_pos h

theorem wordAligned_iff (va : Word) : wordAligned va = true ↔ va.toNat % 4 = 0 := by
  simp [wordAligned, ← BitVec.toNat_inj]

theorem dwordAligned_iff (va : Word) : dwordAligned va = true ↔ va.toNat % 8 = 0 := by
  simp [dwordAligned, ← BitVec.toNat_inj]

theorem withDataAddress_of_hit {va pa : Word} {aligned : Bool} {kind : Access} {s : State} {access : Word → Result}
    (haligned : aligned = true) (hhit : translateAddress va kind s = .hit pa) :
    withDataAddress va aligned kind s access = access pa := by
  rw [withDataAddress, dataAddress, if_pos haligned, hhit]

/-! The instructions -/

/-- How an instruction ends whose memory access has been answered. -/
def accessResult : Except Refusal State → Result
  | .ok t => .next t
  | .error e => .refused e

section
variable {s : State} {ft base : RegNum} {offset : Int} {pa : Word} (hcu : s.cp0.status.getLsbD 29 = true)
include hcu

theorem exec_lwc1_of_hit (haligned : (s.effectiveAddress offset base).toNat % 4 = 0)
    (hhit : translateAddress (s.effectiveAddress offset base) .read s = .hit pa) :
    exec (.lwc1 ft offset base) s =
      accessResult ((memReadWord pa s).map fun answer => (answer.1.writeS ft answer.2).advance) := by
  rw [exec, execLwc1, requireCp1_of_usable hcu, withDataAddress_of_hit ((wordAligned_iff _).2 haligned) hhit]
  cases memReadWord pa s <;> rfl

theorem exec_ldc1_of_hit (haligned : (s.effectiveAddress offset base).toNat % 8 = 0)
    (hhit : translateAddress (s.effectiveAddress offset base) .read s = .hit pa) :
    exec (.ldc1 ft offset base) s =
      accessResult ((memReadDword pa s).map fun answer => (answer.1.writeD ft answer.2).advance) := by
  rw [exec, execLdc1, requireCp1_of_usable hcu, withDataAddress_of_hit ((dwordAligned_iff _).2 haligned) hhit]
  cases memReadDword pa s <;> rfl

theorem exec_swc1_of_hit (haligned : (s.effectiveAddress offset base).toNat % 4 = 0)
    (hhit : translateAddress (s.effectiveAddress offset base) .write s = .hit pa) :
    exec (.swc1 ft offset base) s = accessResult ((memWriteWord pa (s.readS ft) s).map State.advance) := by
  rw [exec, execSwc1, requireCp1_of_usable hcu, withDataAddress_of_hit ((wordAligned_iff _).2 haligned) hhit]
  cases memWriteWord pa (s.readS ft) s <;> rfl

theorem exec_sdc1_of_hit (haligned : (s.effectiveAddress offset base).toNat % 8 = 0)
    (hhit : translateAddress (s.effectiveAddress offset base) .write s = .hit pa) :
    exec (.sdc1 ft offset base) s = accessResult ((memWriteDword pa (s.readD ft) s).map State.advance) := by
  rw [exec, execSdc1, requireCp1_of_usable hcu, withDataAddress_of_hit ((dwordAligned_iff _).2 haligned) hhit]
  cases memWriteDword pa (s.readD ft) s <;> rfl

end

/-! The accesses -/

section
variable {s : State} {pa : Word}

theorem memReadWord_of_plain (h : inDeviceWindow s.params pa 4 = false) :
    memReadWord pa s = .ok (s, Memory.readWord s.mem pa) := by
  simp [memReadWord, h]

theorem memReadDword_of_plain (h : inDeviceWindow s.params pa 8 = false) :
    memReadDword pa s = .ok (s, Memory.readDword s.mem pa) := by
  simp [memReadDword, h]

theorem memWriteWord_of_plain {v : Word} (h : inDeviceWindow s.params pa 4 = false) :
    memWriteWord pa v s = .ok { s with mem := Memory.writeWord s.mem pa v } := by
  simp [memWriteWord, h]

theorem memWriteDword_of_plain {v : Dword} (h : inDeviceWindow s.params pa 8 = false) :
    memWriteDword pa v s = .ok { s with mem := Memory.writeDword s.mem pa v } := by
  simp [memWriteDword, h]

theorem memReadWord_of_window (h : inDeviceWindow s.params pa 4 = true) :
    memReadWord pa s = (deviceAccess pa s).map fun answer => (answer.1, answer.2.extractLsb' 0 32) := by
  rw [memReadWord, if_pos h]
  cases deviceAccess pa s <;> rfl

theorem memReadDword_of_window (h : inDeviceWindow s.params pa 8 = true) : memReadDword pa s = deviceAccess pa s :=
  if_pos h

theorem memWriteWord_of_window {v : Word} (h : inDeviceWindow s.params pa 4 = true) :
    memWriteWord pa v s = (deviceAccess pa s).map Prod.fst := by
  rw [memWriteWord, if_pos h]
  cases deviceAccess pa s <;> rfl

theorem memWriteDword_of_window {v : Dword} (h : inDeviceWindow s.params pa 8 = true) :
    memWriteDword pa v s = (deviceAccess pa s).map Prod.fst := by
  rw [memWriteDword, if_pos h]
  cases deviceAccess pa s <;> rfl

theorem deviceAccess_of_no_reply (h : s.deviceReplies = []) : deviceAccess pa s = .error (.deviceReplyMissing pa) := by
  rw [deviceAccess, h]

theorem deviceAccess_of_reply {r : DeviceReply} {rest : List DeviceReply} {t : State} (h : s.deviceReplies = r :: rest)
    (hcalls : applyCalls r.calls { s with mem := Memory.writeBytes s.mem r.dma, deviceReplies := rest } = .ok t) :
    deviceAccess pa s = .ok (t, r.value) := by
  rw [deviceAccess, h]
  simp only [hcalls]

end

/-- The move to the next instruction neither reads nor writes memory. -/
theorem advance_withMem (s : State) (m : List Host.Cell) :
    State.advance { s with mem := m } = { s.advance with mem := m } := by
  unfold State.advance
  split <;> rfl

/-! Instructions at a device window -/

section
variable {s : State} {ft base : RegNum} {offset : Int} {pa : Word} {answer : Except Refusal (State × Dword)}
  (hcu : s.cp0.status.getLsbD 29 = true) (haccess : deviceAccess pa s = answer)
include hcu haccess

/-- A load takes the value the device answers, in the state the device leaves. -/
theorem exec_load_of_window (hhit : translateAddress (s.effectiveAddress offset base) .read s = .hit pa) :
    ((s.effectiveAddress offset base).toNat % 4 = 0 ∧ inDeviceWindow s.params pa 4 = true →
      exec (.lwc1 ft offset base) s =
        accessResult (answer.map fun a => (a.1.writeS ft (a.2.extractLsb' 0 32)).advance)) ∧
    ((s.effectiveAddress offset base).toNat % 8 = 0 ∧ inDeviceWindow s.params pa 8 = true →
      exec (.ldc1 ft offset base) s = accessResult (answer.map fun a => (a.1.writeD ft a.2).advance)) := by
  refine ⟨fun ⟨haligned, hin⟩ => ?_, fun ⟨haligned, hin⟩ => ?_⟩
  · rw [exec_lwc1_of_hit hcu haligned hhit, memReadWord_of_window hin, haccess]
    cases answer <;> rfl
  · rw [exec_ldc1_of_hit hcu haligned hhit, memReadDword_of_window hin, haccess]

/-- A store is done by the device's side effects. -/
theorem exec_store_of_window (hhit : translateAddress (s.effectiveAddress offset base) .write s = .hit pa) :
    ((s.effectiveAddress offset base).toNat % 4 = 0 ∧ inDeviceWindow s.params pa 4 = true →
      exec (.swc1 ft offset base) s = accessResult (answer.map fun a => a.1.advance)) ∧
    ((s.effectiveAddress offset base).toNat % 8 = 0 ∧ inDeviceWindow s.params pa 8 = true →
      exec (.sdc1 ft offset base) s = accessResult (answer.map fun a => a.1.advance)) := by
  refine ⟨fun ⟨haligned, hin⟩ => ?_, fun ⟨haligned, hin⟩ => ?_⟩
  · rw [exec_swc1_of_hit hcu haligned hhit, memWriteWord_of_window hin, haccess]
    cases answer <;> rfl
  · rw [exec_sdc1_of_hit hcu haligned hhit, memWriteDword_of_window hin, haccess]
    cases answer <;> rfl

end

/-! The obligations -/

/-- Settles O56: the access of a load outside the device windows answers what memory holds. -/
theorem loadsComplete : Obligations.LoadsComplete := by
  intro s ft base offset pa hcu va hhit
  refine ⟨fun haligned hplain => ?_, fun haligned hplain => ?_⟩
  · rw [exec_lwc1_of_hit hcu haligned hhit, memReadWord_of_plain hplain]
    rfl
  · rw [exec_ldc1_of_hit hcu haligned hhit, memReadDword_of_plain hplain]
    rfl

/-- Settles O57: the access of a store outside the device windows writes memory alone, whose bytes read by their offset from
the stored address. -/
theorem storesCompleteAndKeepOtherBytes : Obligations.StoresCompleteAndKeepOtherBytes := by
  intro s ft base offset pa hcu va hhit
  refine ⟨fun haligned hplain => ?_, fun haligned hplain => ?_⟩
  · refine ⟨{ s.advance with mem := Memory.writeWord s.mem pa (s.readS ft) }, ?_,
      Memory.readWord_writeWord_same _ _ _, Memory.readByte_writeWord_of_le _ _ _, rfl⟩
    rw [exec_swc1_of_hit hcu haligned hhit, memWriteWord_of_plain hplain, ← advance_withMem]
    rfl
  · refine ⟨{ s.advance with mem := Memory.writeDword s.mem pa (s.readD ft) }, ?_,
      Memory.readDword_writeDword_same _ _ _, Memory.readByte_writeDword_of_le _ _ _, rfl⟩
    rw [exec_sdc1_of_hit hcu haligned hhit, memWriteDword_of_plain hplain, ← advance_withMem]
    rfl

/-- Settles O59: in a device window each instruction ends as its one device access is answered. -/
theorem deviceWindowAccessUsesReply : Obligations.DeviceWindowAccessUsesReply := by
  intro s ft base offset pa hcu
  refine ⟨fun hnone => ?_, fun r rest t hreply hcalls => ?_⟩
  · have haccess := deviceAccess_of_no_reply (pa := pa) hnone
    exact ⟨exec_load_of_window hcu haccess, exec_store_of_window hcu haccess⟩
  · have haccess := deviceAccess_of_reply (pa := pa) hreply hcalls
    exact ⟨exec_load_of_window hcu haccess, exec_store_of_window hcu haccess⟩

end Sys2Proof.Machine
end

section

/-! Decoding and encoding (R151 to R154): the fields of a word of each format, what decode answers for a word of a row, and
which words it takes for an instruction. -/
namespace Sys2Proof

variable {w : Word} {i : Instr}

/-! A word and its fields (R151) -/

/-- Two fields side by side are one field. -/
theorem append_adjacent_fields (w : Word) (start len len' : Nat) :
    w.extractLsb' (start + len) len' ++ w.extractLsb' start len = w.extractLsb' start (len' + len) :=
  BitVec.extractLsb'_append_extractLsb'_eq_extractLsb' rfl

/-- A word is its format M fields. -/
theorem formatM_of_fields {op : BitVec 6} {rs : RegNum} (hop : opcodeField w = op) (hrs : rsField w = rs)
    (hlow : lowField w = 0) : formatM op rs (rtField w) (rdField w) = w := by
  calc formatM op rs (rtField w) (rdField w)
    _ = opcodeField w ++ rsField w ++ rtField w ++ rdField w ++ lowField w := by rw [hop, hrs, hlow]; rfl
    _ = w.extractLsb' 0 32 := by
      rw [opcodeField, rsField, rtField, rdField, lowField, append_adjacent_fields w 21 5 6,
        append_adjacent_fields w 16 5 11, append_adjacent_fields w 11 5 16, append_adjacent_fields w 0 11 21]
    _ = w := BitVec.extractLsb'_eq_self

/-- A word is its format I fields. -/
theorem formatI_of_fields {op : BitVec 6} (hop : opcodeField w = op) :
    formatI op (rsField w) (rtField w) (offsetOf w) = w := by
  calc formatI op (rsField w) (rtField w) (offsetOf w)
    _ = opcodeField w ++ rsField w ++ rtField w ++ offsetField w := by rw [formatI, offsetOf, BitVec.ofInt_toInt, hop]
    _ = w.extractLsb' 0 32 := by
      rw [opcodeField, rsField, rtField, offsetField, append_adjacent_fields w 21 5 6, append_adjacent_fields w 16 5 11,
        append_adjacent_fields w 0 16 16]
    _ = w := BitVec.extractLsb'_eq_self

/-- A word is its format S fields. -/
theorem formatS_of_fields {funct : BitVec 6} (hop : opcodeField w = 0x00) (hfunct : functField w = funct) :
    formatS (codeField w).toNat funct = w := by
  calc formatS (codeField w).toNat funct
    _ = opcodeField w ++ codeField w ++ functField w := by
      rw [formatS, BitVec.ofNat_toNat, BitVec.setWidth_eq, hop, hfunct]; rfl
    _ = w.extractLsb' 0 32 := by
      rw [opcodeField, codeField, functField, append_adjacent_fields w 6 20 6, append_adjacent_fields w 0 6 26]
    _ = w := BitVec.extractLsb'_eq_self

@[simp] theorem rtField_formatM (op : BitVec 6) (rs rt rd : RegNum) : rtField (formatM op rs rt rd) = rt := by
  rw [rtField, formatM, BitVec.extractLsb'_append_eq_of_le (by decide), BitVec.extractLsb'_append_eq_of_le (by decide)]
  exact BitVec.extractLsb'_append_eq_right

@[simp] theorem rdField_formatM (op : BitVec 6) (rs rt rd : RegNum) : rdField (formatM op rs rt rd) = rd := by
  rw [rdField, formatM, BitVec.extractLsb'_append_eq_of_le (by decide)]
  exact BitVec.extractLsb'_append_eq_right

@[simp] theorem rsField_formatI (op : BitVec 6) (base ft : RegNum) (offset : Int) :
    rsField (formatI op base ft offset) = base := by
  rw [rsField, formatI, BitVec.extractLsb'_append_eq_of_le (by decide), BitVec.extractLsb'_append_eq_of_le (by decide)]
  exact BitVec.extractLsb'_append_eq_right

@[simp] theorem rtField_formatI (op : BitVec 6) (base ft : RegNum) (offset : Int) :
    rtField (formatI op base ft offset) = ft := by
  rw [rtField, formatI, BitVec.extractLsb'_append_eq_of_le (by decide)]
  exact BitVec.extractLsb'_append_eq_right

theorem offsetOf_formatI (op : BitVec 6) (base ft : RegNum) {offset : Int} (h : offsetFits offset) :
    offsetOf (formatI op base ft offset) = offset := by
  rw [offsetOf, offsetField, formatI, BitVec.extractLsb'_append_eq_right]
  exact BitVec.toInt_ofInt_eq_self (by decide) h.1 h.2

theorem codeField_formatS {code : Nat} (funct : BitVec 6) (h : codeFits code) :
    (codeField (formatS code funct)).toNat = code := by
  rw [codeField, formatS, BitVec.extractLsb'_append_eq_of_le (by decide)]
  exact (congrArg BitVec.toNat BitVec.extractLsb'_append_eq_right).trans (Nat.mod_eq_of_lt h)

/-! The fields a row pins (R153) -/

/-- A field that lies under a row's mask has the value the row's match has there. -/
theorem extractLsb'_of_masked {mask m : Word} {start len : Nat} (h : w &&& mask = m)
    (hmask : mask.extractLsb' start len = BitVec.allOnes len) : w.extractLsb' start len = m.extractLsb' start len := by
  rw [← h, BitVec.extractLsb'_and, hmask, BitVec.and_allOnes]

theorem fields_of_formatM_row {m : Word} (h : w &&& 0xFFE007FF = m) :
    opcodeField w = opcodeField m ∧ rsField w = rsField m ∧ lowField w = lowField m :=
  ⟨extractLsb'_of_masked h (by decide), extractLsb'_of_masked h (by decide), extractLsb'_of_masked h (by decide)⟩

theorem opcode_of_formatI_row {m : Word} (h : w &&& 0xFC000000 = m) : opcodeField w = opcodeField m :=
  extractLsb'_of_masked h (by decide)

theorem fields_of_formatS_row {m : Word} (h : w &&& 0xFC00003F = m) :
    opcodeField w = opcodeField m ∧ functField w = functField m :=
  ⟨extractLsb'_of_masked h (by decide), extractLsb'_of_masked h (by decide)⟩

/-! From a row to the instruction -/

/-- The instruction of the same row with the operands a word holds (R151). -/
def Instr.withOperandsOf (w : Word) : Instr → Instr
  | .mfc0 _ _ => .mfc0 (rtField w) (rdField w)
  | .dmfc0 _ _ => .dmfc0 (rtField w) (rdField w)
  | .mtc0 _ _ => .mtc0 (rtField w) (rdField w)
  | .dmtc0 _ _ => .dmtc0 (rtField w) (rdField w)
  | .tlbr => .tlbr
  | .tlbwi => .tlbwi
  | .tlbwr => .tlbwr
  | .tlbp => .tlbp
  | .eret => .eret
  | .syscall _ => .syscall (codeField w).toNat
  | .brk _ => .brk (codeField w).toNat
  | .mfc1 _ _ => .mfc1 (rtField w) (rdField w)
  | .dmfc1 _ _ => .dmfc1 (rtField w) (rdField w)
  | .cfc1 _ _ => .cfc1 (rtField w) (rdField w)
  | .mtc1 _ _ => .mtc1 (rtField w) (rdField w)
  | .dmtc1 _ _ => .dmtc1 (rtField w) (rdField w)
  | .ctc1 _ _ => .ctc1 (rtField w) (rdField w)
  | .lwc1 _ _ _ => .lwc1 (rtField w) (offsetOf w) (rsField w)
  | .ldc1 _ _ _ => .ldc1 (rtField w) (offsetOf w) (rsField w)
  | .swc1 _ _ _ => .swc1 (rtField w) (offsetOf w) (rsField w)
  | .sdc1 _ _ _ => .sdc1 (rtField w) (offsetOf w) (rsField w)

@[simp] theorem rowOf_withOperandsOf (w : Word) (i : Instr) : rowOf (i.withOperandsOf w) = rowOf i := by cases i <;> rfl

@[simp] theorem mnemonic_withOperandsOf (w : Word) (i : Instr) : (i.withOperandsOf w).mnemonic = i.mnemonic := by
  cases i <;> rfl

/-- The move rows of opcode 0x10: the exact rows before them do not match a word with a clear low field. -/
theorem decode_of_cop0Move (hop : opcodeField w = 0x10) (hlow : lowField w = 0) :
    decode w =
      if rsField w = 0x00 then .instr (.mfc0 (rtField w) (rdField w))
      else if rsField w = 0x01 then .instr (.dmfc0 (rtField w) (rdField w))
      else if rsField w = 0x04 then .instr (.mtc0 (rtField w) (rdField w))
      else if rsField w = 0x05 then .instr (.dmtc0 (rtField w) (rdField w))
      else .unrecognisedCop0 := by
  have hne {c : Word} (hc : lowField c ≠ 0) : w ≠ c := fun h => hc (h ▸ hlow)
  rw [decode, if_pos hop, decodeCop0, if_neg (hne (by decide)), if_neg (hne (by decide)), if_neg (hne (by decide)),
    if_neg (hne (by decide)), if_neg (hne (by decide)), if_neg (not_not.2 hlow)]

/-- R153: a word that selects a row decodes to the instruction of that row with the word's operands. -/
theorem decode_of_selectsRow (h : selectsRowOf w i) : decode w = .instr (i.withOperandsOf w) := by
  cases i <;> simp only [selectsRowOf, rowOf] at h
  case mfc0 | dmfc0 | mtc0 | dmtc0 =>
    obtain ⟨hop, hrs, hlow⟩ := fields_of_formatM_row h
    rw [decode_of_cop0Move hop hlow, hrs]
    rfl
  case tlbr | tlbwi | tlbwr | tlbp | eret =>
    obtain rfl := BitVec.and_allOnes.symm.trans h
    rfl
  case mfc1 | dmfc1 | cfc1 | mtc1 | dmtc1 | ctc1 =>
    obtain ⟨hop, hrs, hlow⟩ := fields_of_formatM_row h
    rw [decode, hop, decodeCop1, hlow, hrs]
    rfl
  case syscall | brk =>
    obtain ⟨hop, hfunct⟩ := fields_of_formatS_row h
    rw [decode, hop, decodeSpecial, hfunct]
    rfl
  case lwc1 | ldc1 | swc1 | sdc1 =>
    rw [decode, opcode_of_formatI_row h]
    rfl

/-! From the answer of decode to the row -/

/-- The answer `d` for `w` is `other`, or an instruction whose word is `w`. -/
def EncodesOr (w : Word) (other d : Decoded) : Prop :=
  d = other ∨ ∃ i, d = .instr i ∧ i.wellFormed = true ∧ encode i = w

/-- One row of a decoder. -/
theorem EncodesOr.row {c : Prop} [Decidable c] {other rest : Decoded} (hi : c → i.wellFormed = true ∧ encode i = w)
    (hrest : ¬c → EncodesOr w other rest) : EncodesOr w other (if c then .instr i else rest) :=
  iteInduction (fun hc => .inr ⟨i, rfl, hi hc⟩) hrest

theorem EncodesOr.encode {other : Decoded} (h : EncodesOr w other (.instr i)) (hother : .instr i ≠ other) :
    i.wellFormed = true ∧ encode i = w := by
  obtain he | ⟨j, he, hj⟩ := h
  · exact absurd he hother
  · cases he
    exact hj

theorem decodeCop0_encodesOr (hop : opcodeField w = 0x10) : EncodesOr w .unrecognisedCop0 (decodeCop0 w) := by
  refine .row (fun h => ⟨rfl, h.symm⟩) fun _ => .row (fun h => ⟨rfl, h.symm⟩) fun _ =>
    .row (fun h => ⟨rfl, h.symm⟩) fun _ => .row (fun h => ⟨rfl, h.symm⟩) fun _ =>
    .row (fun h => ⟨rfl, h.symm⟩) fun _ => iteInduction (fun _ => .inl rfl) fun hlow => ?_
  have move {rs : RegNum} (hrs : rsField w = rs) : formatM 0x10 rs (rtField w) (rdField w) = w :=
    formatM_of_fields hop hrs (not_not.1 hlow)
  exact .row (fun h => ⟨rfl, move h⟩) fun _ => .row (fun h => ⟨rfl, move h⟩) fun _ =>
    .row (fun h => ⟨rfl, move h⟩) fun _ => .row (fun h => ⟨rfl, move h⟩) fun _ => .inl rfl

theorem decodeCop1_encodesOr (hop : opcodeField w = 0x11) : EncodesOr w .unadmittedCop1 (decodeCop1 w) := by
  refine iteInduction (fun _ => .inl rfl) fun hlow => ?_
  have move {rs : RegNum} (hrs : rsField w = rs) : formatM 0x11 rs (rtField w) (rdField w) = w :=
    formatM_of_fields hop hrs (not_not.1 hlow)
  exact .row (fun h => ⟨rfl, move h⟩) fun _ => .row (fun h => ⟨rfl, move h⟩) fun _ =>
    .row (fun h => ⟨rfl, move h⟩) fun _ => .row (fun h => ⟨rfl, move h⟩) fun _ =>
    .row (fun h => ⟨rfl, move h⟩) fun _ => .row (fun h => ⟨rfl, move h⟩) fun _ => .inl rfl

theorem decodeSpecial_encodesOr (hop : opcodeField w = 0x00) : EncodesOr w .notOfBlock (decodeSpecial w) := by
  have hfits : decide (codeFits (codeField w).toNat) = true := decide_eq_true (codeField w).isLt
  exact .row (fun h => ⟨hfits, formatS_of_fields hop h⟩) fun _ =>
    .row (fun h => ⟨hfits, formatS_of_fields hop h⟩) fun _ => .inl rfl

theorem offsetFits_offsetOf (w : Word) : offsetFits (offsetOf w) := ⟨BitVec.le_toInt _, BitVec.toInt_lt⟩

/-- A decoded instruction has an encoding, and the decoded word is it (R151, R153). -/
theorem encode_of_decode (h : decode w = .instr i) : i.wellFormed = true ∧ encode i = w := by
  unfold decode at h
  split_ifs at h with hop hop hop hop hop hop hop
  · exact (h ▸ decodeCop0_encodesOr hop).encode nofun
  · exact (h ▸ decodeCop1_encodesOr hop).encode nofun
  case pos | pos | pos | pos =>
    cases h
    exact ⟨decide_eq_true (offsetFits_offsetOf w), formatI_of_fields hop⟩
  · exact (h ▸ decodeSpecial_encodesOr hop).encode nofun

/-! The word of an instruction -/

theorem encode_selectsRow (i : Instr) : selectsRowOf (encode i) i := by
  cases i
  case tlbr | tlbwi | tlbwr | tlbp | eret => decide
  case syscall | brk => exact Laws.formatS_masked _ _
  case lwc1 | ldc1 | swc1 | sdc1 => exact Laws.formatI_masked _ _ _ _
  all_goals exact Laws.formatM_masked _ _ _ _

/-- Every operand comes back from its field (R151, R152). -/
theorem withOperandsOf_encode (h : i.wellFormed = true) : i.withOperandsOf (encode i) = i := by
  cases i
  case tlbr | tlbwi | tlbwr | tlbp | eret => rfl
  case syscall | brk => simp only [encode, Instr.withOperandsOf, codeField_formatS _ (of_decide_eq_true h)]
  case lwc1 | ldc1 | swc1 | sdc1 =>
    simp only [encode, Instr.withOperandsOf, rtField_formatI, rsField_formatI,
      offsetOf_formatI _ _ _ (of_decide_eq_true h)]
  all_goals simp only [encode, Instr.withOperandsOf, rtField_formatM, rdField_formatM]

/-- Settles O3: a decoded word is put together again from its fields, and the word of an instruction selects the
instruction's row, so that decode answers that row with the operands the fields hold. -/
theorem decodeAndEncodeAgree : Obligations.DecodeAndEncodeAgree := by
  refine fun w i => ⟨encode_of_decode, ?_⟩
  rintro ⟨hwf, rfl⟩
  rw [decode_of_selectsRow (encode_selectsRow i), withOperandsOf_encode hwf]

/-- Settles O2: a decoded word is the word of its instruction, which selects the row; and what decode answers for a word
of a row has that row and mnemonic, so that two rows of one word are one. -/
theorem wordSelectsItsTableRow : Obligations.WordSelectsItsTableRow := by
  refine ⟨fun w i h => ?_, fun w i h => ?_, fun w i j hi hj => ?_⟩
  · obtain ⟨-, rfl⟩ := encode_of_decode h
    exact encode_selectsRow i
  · exact ⟨i.withOperandsOf w, decode_of_selectsRow h, rowOf_withOperandsOf w i, mnemonic_withOperandsOf w i⟩
  · have hsame : i.withOperandsOf w = j.withOperandsOf w :=
      Decoded.instr.inj ((decode_of_selectsRow hi).symm.trans (decode_of_selectsRow hj))
    rw [← rowOf_withOperandsOf w i, hsame, rowOf_withOperandsOf]

/-- Settles O1: each of the words runs through the decoder. -/
theorem assemblerExamplesDecode : Obligations.AssemblerExamplesDecode := by
  unfold Obligations.AssemblerExamplesDecode
  decide

end Sys2Proof
end

section

/-! Words that select no row (R155, R157): what decode, `runWord` and `run` make of them. -/
namespace Sys2Proof.Machine

variable {w : Word} {s : State}

theorem runWord_of_instr {i : Instr} (h : decode w = .instr i) (s : State) : runWord w s = exec i s := by
  rw [runWord, h]

theorem runWord_of_unrecognisedCop0 (h : decode w = .unrecognisedCop0) (s : State) :
    runWord w s = execUnrecognisedCop0 s := by
  rw [runWord, h]

theorem runWord_of_unadmittedCop1 (h : decode w = .unadmittedCop1) (s : State) :
    runWord w s = .refused (.unadmittedCop1 w) := by
  rw [runWord, h]

section
variable (hrow : ∀ i, ¬selectsRowOf w i)
include hrow

theorem decode_ne_instr_of_no_row (i : Instr) : decode w ≠ .instr i :=
  fun hdecode => hrow i (wordSelectsItsTableRow.1 w i hdecode)

theorem decode_of_cop0_no_row (hop : opcodeField w = 0x10) : decode w = .unrecognisedCop0 := by
  have hdecode : decode w = decodeCop0 w := if_pos hop
  obtain hun | ⟨i, hi, -⟩ := decodeCop0_encodesOr hop
  · exact hdecode.trans hun
  · exact absurd (hdecode.trans hi) (decode_ne_instr_of_no_row hrow i)

theorem decode_of_cop1_no_row (hop : opcodeField w = 0x11) : decode w = .unadmittedCop1 := by
  have hdecode : decode w = decodeCop1 w := by rw [decode, if_neg (by simp [hop]), if_pos hop]
  obtain hun | ⟨i, hi, -⟩ := decodeCop1_encodesOr hop
  · exact hdecode.trans hun
  · exact absurd (hdecode.trans hi) (decode_ne_instr_of_no_row hrow i)

end

theorem execUnrecognisedCop0_of_usable (h : cp0Usable s.cp0.status = true) :
    execUnrecognisedCop0 s = .next s.advance :=
  if_pos h

/-- A run whose next step is refused ends with the refusal recorded (R157, R64). -/
theorem run_of_refused {r : Refusal} (n : Nat) (hstop : s.stop = false) (hstep : step s = .refused r) :
    run (n + 1) s = (recordRefusal r s, .refused r) := by
  simp [run, hstop, hstep]

/-- Settles O4: a word of no row is no instruction, so that decode answers what the opcode leaves. -/
theorem wordsThatMatchNoRow : Obligations.WordsThatMatchNoRow := by
  intro w hrow
  refine ⟨fun hop s husable => ⟨?_, advance_of_not_slot⟩, fun hop => ⟨fun s => ?_, fun s n => run_of_refused n⟩⟩
  · rw [runWord_of_unrecognisedCop0 (decode_of_cop0_no_row hrow hop), execUnrecognisedCop0_of_usable husable]
  · exact runWord_of_unadmittedCop1 (decode_of_cop1_no_row hrow hop) s

end Sys2Proof.Machine
end

section

/-! The port raise_exception (R160, R370, R371): which codes name an exception, and that each names one only. -/
namespace Sys2Proof.Machine

variable {code : BitVec 5} {va : Word} {cop : BitVec 2} {e : Exc}

/-- A code is reserved, or one of the fourteen an exception has (R370, U23). -/
theorem reserved_iff_not_mem : ∀ code : BitVec 5,
    code = 1 ∨ code = 14 ∨ 16 ≤ code.toNat ↔ code ∉ [0, 2, 3, 4, 5, 6, 7, 8, 9, 10, 11, 12, 13, 15] := by decide

theorem ofCode_of_reserved (va : Word) (cop : BitVec 2) (h : code = 1 ∨ code = 14 ∨ 16 ≤ code.toNat) :
    Exc.ofCode code va cop = none := by
  rw [reserved_iff_not_mem] at h
  simp only [List.mem_cons, List.not_mem_nil, or_false, not_or] at h
  simp only [Exc.ofCode, h, if_false]

/-- A code that is not reserved names an exception of that code (R370). -/
theorem ofCode_of_not_reserved (va : Word) (cop : BitVec 2) (h : ¬(code = 1 ∨ code = 14 ∨ 16 ≤ code.toNat)) :
    ∃ e, Exc.ofCode code va cop = some e ∧ e.code = code := by
  rw [reserved_iff_not_mem, not_not] at h
  simp only [List.mem_cons, List.not_mem_nil, or_false] at h
  rcases h with rfl | rfl | rfl | rfl | rfl | rfl | rfl | rfl | rfl | rfl | rfl | rfl | rfl | rfl <;>
    exact ⟨_, rfl, rfl⟩

/-- Where the code of `x` names `x`, a code names `x` just when it is that one. -/
theorem eq_code_iff_eq {x : Exc} (hx : Exc.ofCode x.code va cop = some x) (he : Exc.ofCode code va cop = some e)
    (hcode : e.code = code) : code = x.code ↔ e = x := by
  constructor
  · rintro rfl
    exact Option.some.inj (he.symm.trans hx)
  · rintro rfl
    exact hcode.symm

/-- A coprocessor unusable exception leaves the unit's number in CE (R378). -/
theorem enter_copUnusable_ce (cop : BitVec 2) (s : State) : causeCe (enter (.copUnusable cop) s).cp0.cause = cop := by
  rw [enter_cause]
  split <;> simp [Exc.extra]

/-- Settles O44: a code that is not reserved names one exception, which entry records with its info. -/
theorem raiseExceptionTakesArchitectedCodes : Obligations.RaiseExceptionTakesArchitectedCodes := by
  intro s code va cop
  refine ⟨fun h => by rw [raiseException, ofCode_of_reserved va cop h], fun h => ?_⟩
  obtain ⟨e, he, hcode⟩ := ofCode_of_not_reserved va cop h
  have names (x : Exc) (hx : Exc.ofCode x.code va cop = some x) : code = x.code ↔ e = x := eq_code_iff_eq hx he hcode
  refine ⟨e, by rw [raiseException, he], (enter_excCode e s).trans hcode, names .interrupt rfl,
    names (.tlbRefill .read va) rfl, names (.tlbRefill .write va) rfl, names (.addressError .read va) rfl,
    names (.addressError .write va) rfl, names (.copUnusable cop) rfl, ?_, ?_⟩
  · -- `enter` writes the address it is given to BadVAddr (R376, R377)
    rintro (rfl | rfl | rfl | rfl) <;> cases he <;> rfl
  · rintro rfl
    cases he
    exact enter_copUnusable_ce cop s

end Sys2Proof.Machine
end

section

/-! A step after its boundary (R154, R382, R124): where it fetches, the word each engine mode runs, and the code it holds
then. -/
namespace Sys2Proof.Machine

variable {s t u : State} {pa : Word} {w : Word}

/-! The boundary and the address of the fetch -/

theorem step_of_proceed (hboot : s.faults.boot = false) (h : boundary s = .proceed t) : step s = fetchAndRun t := by
  simp [step, hboot, h]

theorem fetchAddress_of_not_aligned (h : wordAligned s.pc = false) :
    fetchAddress s = .miss (.addressError .read s.pc) := by
  simp [fetchAddress, dataAddress, h]

theorem fetchAddress_of_aligned (h : wordAligned s.pc = true) : fetchAddress s = translateAddress s.pc .read s :=
  if_pos h

theorem fetchAndRun_of_miss {e : Exc} (h : fetchAddress s = .miss e) : fetchAndRun s = .next (enter e s) := by
  rw [fetchAndRun, fetch, h]

theorem fetchAndRun_of_word (hhit : fetchAddress s = .hit pa) (h : fetchWord pa s = .ok (t, w)) :
    fetchAndRun s = runWord w t := by
  simp only [fetchAndRun, fetch, hhit, h]

theorem fetchAndRun_of_refused {r : Refusal} (hhit : fetchAddress s = .hit pa) (h : fetchWord pa s = .error r) :
    fetchAndRun s = .refused r := by
  simp only [fetchAndRun, fetch, hhit, h]

/-! The fetch of each engine mode -/

theorem fetchWord_of_pure (h : s.params.engineMode = .pureInterpreter) : fetchWord pa s = memReadWord pa s := by
  rw [fetchWord, h]

theorem fetchWord_of_compiled (h : s.params.engineMode ≠ .pureInterpreter) : fetchWord pa s = fetchCompiled pa s := by
  cases hmode : s.params.engineMode with
  | pureInterpreter => exact absurd hmode h
  | cachedInterpreter => rw [fetchWord, hmode]
  | dynamicRecompiler => rw [fetchWord, hmode]

/-- What the engine holds once the word `w` at the pc of `s` is read, in `u`, and compiled. -/
def heldAfterCompile (s u : State) (w : Word) : List (Nat × Word) :=
  compileWords (Config.freeBlockLength s.draws) (s.pc + 4) u (holdWord s.pc w u.heldCode)

theorem fetchCompiled_of_held (h : Table.get s.pc.toNat (useInvalidateDraw s).heldCode = some w) :
    fetchCompiled pa s = .ok (useInvalidateDraw s, w) := by
  simp only [fetchCompiled, h]

section
variable (hnone : Table.get s.pc.toNat (useInvalidateDraw s).heldCode = none)
include hnone

theorem fetchCompiled_of_read (h : memReadWord pa (useInvalidateDraw s) = .ok (u, w)) :
    fetchCompiled pa s = .ok ({ u with heldCode := heldAfterCompile s u w }, w) := by
  simp only [fetchCompiled, hnone, h, heldAfterCompile]

theorem fetchCompiled_of_read_refused {r : Refusal} (h : memReadWord pa (useInvalidateDraw s) = .error r) :
    fetchCompiled pa s = .error r := by
  simp only [fetchCompiled, hnone, h]

end

/-! The held code -/

/-- Where nothing is held, what a compilation holds is what memory holds there (R124). -/
theorem get_compileWords_of_not_held {n : Nat} {va : Word} {held : List (Nat × Word)} {a : Nat} {v : Word}
    (hnone : Table.get a held = none) (h : Table.get a (compileWords n va s held) = some v) :
    ∃ va q : Word, va.toNat = a ∧ translateAddress va .read s = .hit q ∧ v = Memory.readWord s.mem q := by
  induction n generalizing va held with
  | zero => exact absurd (hnone.symm.trans h) nofun
  | succ n ih =>
    unfold compileWords at h
    split at h
    case h_1 => exact absurd (hnone.symm.trans h) nofun
    case h_2 q hq =>
      split at h
      · exact absurd (hnone.symm.trans h) nofun
      · by_cases ha : a = va.toNat
        · have hheld : Table.get a (holdWord va (Memory.readWord s.mem q) held) = some (Memory.readWord s.mem q) := by
            rw [get_holdWord, if_pos ha, hnone]
            rfl
          exact ⟨va, q, ha.symm, hq, Option.some.inj (h.symm.trans (get_compileWords_of_held hheld))⟩
        · exact ih (by rw [get_holdWord, if_neg ha, hnone]) h

theorem get_heldAfterCompile_pc (h : Table.get s.pc.toNat u.heldCode = none) :
    Table.get s.pc.toNat (heldAfterCompile s u w) = some w :=
  get_compileWords_of_held (by rw [get_holdWord, if_pos rfl, h]; rfl)

/-- The invalidation a free value stands for drops the word at the pc and no other (R442). -/
theorem get_useInvalidateDraw (s : State) (a : Nat) :
    Table.get a (useInvalidateDraw s).heldCode =
      if Config.freeInvalidated s.draws = true ∧ a = s.pc.toNat then none else Table.get a s.heldCode := by
  simp only [useInvalidateDraw]
  split
  case isTrue h => simp only [Table.get_erase, h, true_and]
  case isFalse h => rw [if_neg fun hp => h hp.1]

/-- A device access puts no word into the held code: its calls only drop words. -/
theorem get_heldCode_deviceAccess {a : Nat} {v : Dword} (hnone : Table.get a s.heldCode = none)
    (h : deviceAccess pa s = .ok (u, v)) : Table.get a u.heldCode = none := by
  have calls : KeptByCalls fun s => Table.get a s.heldCode = none :=
    { setIp := fun s k level h => by unfold setIp; split <;> exact h
      schedule := fun s type delta _ h => by
        obtain ⟨-, e⟩ | ⟨-, e⟩ := schedule_cases type delta s <;> rw [e] <;> exact h
      cancel := fun _ _ _ h => h
      invalidateRange := fun s lo hi h => by rw [invalidateRange, get_invalidateRanges, h, ite_self] }
  exact calls.deviceAccess (fun _ _ _ h => h) hnone h

/-- The held code after a fetch of `w` from plain memory in `s`: `w` at the pc, every other word that was held, and
besides what memory holds (R124, R442). -/
structure HeldByFetch (s : State) (w : Word) (held : List (Nat × Word)) : Prop where
  fetched : Table.get s.pc.toNat held = some w
  kept : ∀ a v, a ≠ s.pc.toNat → Table.get a s.heldCode = some v → Table.get a held = some v
  compiled : ∀ a v, a ≠ s.pc.toNat → Table.get a s.heldCode = none → Table.get a held = some v →
    ∃ va q : Word, va.toNat = a ∧ translateAddress va .read s = .hit q ∧ v = Memory.readWord s.mem q

/-- The word a fetch from plain memory gives in the compiled modes: the held one unless it has been invalidated. -/
def compiledWord (s : State) (pa : Word) : Word :=
  if Config.freeInvalidated s.draws then Memory.readWord s.mem pa
  else (Table.get s.pc.toNat s.heldCode).getD (Memory.readWord s.mem pa)

theorem compiledWord_eq (s : State) (pa : Word) :
    compiledWord s pa = (Table.get s.pc.toNat (useInvalidateDraw s).heldCode).getD (Memory.readWord s.mem pa) := by
  rw [get_useInvalidateDraw, compiledWord]
  split
  case isTrue h => rw [if_pos ⟨h, rfl⟩]; rfl
  case isFalse h => rw [if_neg fun hp => h hp.1]

theorem fetchCompiled_of_plain (hplain : inDeviceWindow s.params pa 4 = false) :
    ∃ held, fetchCompiled pa s = .ok ({ s with draws := s.draws + 1, heldCode := held }, compiledWord s pa) ∧
      HeldByFetch s (compiledWord s pa) held := by
  have other (a : Nat) (ha : a ≠ s.pc.toNat) : Table.get a (useInvalidateDraw s).heldCode = Table.get a s.heldCode := by
    rw [get_useInvalidateDraw, if_neg fun h => ha h.2]
  rw [compiledWord_eq]
  cases hheld : Table.get s.pc.toNat (useInvalidateDraw s).heldCode with
  | some w =>
    refine ⟨(useInvalidateDraw s).heldCode, fetchCompiled_of_held hheld, hheld, fun a v ha h => ?_,
      fun a v ha hnone h => ?_⟩
    · rw [other a ha, h]
    · exact absurd ((other a ha).trans hnone ▸ h) nofun
  | none =>
    have hread : memReadWord pa (useInvalidateDraw s) = .ok (useInvalidateDraw s, Memory.readWord s.mem pa) :=
      memReadWord_of_plain hplain
    refine ⟨heldAfterCompile s (useInvalidateDraw s) (Memory.readWord s.mem pa), fetchCompiled_of_read hheld hread,
      get_heldAfterCompile_pc hheld, fun a v ha h => ?_, fun a v ha hnone h => ?_⟩
    · exact get_compileWords_of_held (by rw [get_holdWord, if_neg ha, other a ha, h])
    · have hnew : Table.get a (holdWord s.pc (Memory.readWord s.mem pa) (useInvalidateDraw s).heldCode) = none := by
        rw [get_holdWord, if_neg ha, other a ha, hnone]
      exact get_compileWords_of_not_held (s := useInvalidateDraw s) hnew h

/-! Invalidations -/

theorem codeInRange_iff (a : Nat) (range : Word × Word) :
    codeInRange a range = true ↔ range.1.toNat < a + 4 ∧ a ≤ range.2.toNat := by
  simp [codeInRange]

theorem get_invalidateRange (lo hi : Word) (s : State) (a : Nat) :
    Table.get a (invalidateRange lo hi s).heldCode =
      if lo.toNat < a + 4 ∧ a ≤ hi.toNat then none else Table.get a s.heldCode := by
  rw [invalidateRange, get_invalidateRanges]
  simp only [List.any_cons, List.any_nil, Bool.or_false, codeInRange_iff]

/-- R234: a TLB write invalidates the ranges of the populated halves of the old and the new entry. -/
theorem get_tlbWrite (i : Fin 32) (s : State) (a : Nat) :
    Table.get a (tlbWrite i s).heldCode =
      if (invalidatedRanges s.params s.tlb[i] (entryFromRegs s.cp0)).any (codeInRange a) then none
      else Table.get a s.heldCode := by
  rw [tlbWrite_heldCode, Table.get_filter_key fun k => !(invalidatedRanges _ _ _).any (codeInRange k)]
  cases List.any _ _ <;> rfl

theorem any_invalidatedRanges_iff (p : Params) (old new : TlbEntry) (a : Nat) :
    (invalidatedRanges p old new).any (codeInRange a) = true ↔
      ∃ r ∈ [half old false, half old true, half new false, half new true],
        r.v = true ∧ populatable p r = true ∧ r.start.toNat < a + 4 ∧ a ≤ r.stop.toNat := by
  simp only [invalidatedRanges, List.any_map, List.any_filter, List.any_eq_true, Function.comp_apply, Bool.and_eq_true,
    populates, codeInRange_iff, and_assoc]

/-! The obligation -/

section
variable (hstep : step s = fetchAndRun t) (hhit : fetchAddress t = .hit pa)
include hstep hhit

/-- The pure interpreter runs the word memory or a device's reply holds at the pc's address. -/
theorem step_of_pure (hmode : t.params.engineMode = .pureInterpreter) :
    (inDeviceWindow t.params pa 4 = false → step s = runWord (Memory.readWord t.mem pa) t) ∧
    (inDeviceWindow t.params pa 4 = true →
      (∀ u v, deviceAccess pa t = .ok (u, v) → step s = runWord (v.extractLsb' 0 32) u) ∧
      (∀ e, deviceAccess pa t = .error e → step s = .refused e)) := by
  have hfetch := fetchWord_of_pure (pa := pa) hmode
  rw [hstep]
  refine ⟨fun hplain => ?_, fun hin => ⟨fun u v h => ?_, fun e h => ?_⟩⟩
  · exact fetchAndRun_of_word hhit (hfetch.trans (memReadWord_of_plain hplain))
  · exact fetchAndRun_of_word hhit (by rw [hfetch, memReadWord_of_window hin, h]; rfl)
  · exact fetchAndRun_of_refused hhit (by rw [hfetch, memReadWord_of_window hin, h]; rfl)

variable (hmode : t.params.engineMode ≠ .pureInterpreter)
include hmode

theorem step_of_compiled_held (h : Table.get t.pc.toNat (useInvalidateDraw t).heldCode = some w) :
    step s = runWord w (useInvalidateDraw t) := by
  rw [hstep]
  exact fetchAndRun_of_word hhit ((fetchWord_of_compiled hmode).trans (fetchCompiled_of_held h))

/-- With nothing held for the pc, a compiled mode runs a device's reply and holds it. -/
theorem step_of_compiled_window (hin : inDeviceWindow t.params pa 4 = true)
    (hnone : Table.get t.pc.toNat (useInvalidateDraw t).heldCode = none) :
    (∀ u v, deviceAccess pa (useInvalidateDraw t) = .ok (u, v) → ∃ held,
      step s = runWord (v.extractLsb' 0 32) { u with heldCode := held } ∧
      Table.get t.pc.toNat held = some (v.extractLsb' 0 32)) ∧
    (∀ e, deviceAccess pa (useInvalidateDraw t) = .error e → step s = .refused e) := by
  have hread : memReadWord pa (useInvalidateDraw t) = _ := memReadWord_of_window hin
  refine ⟨fun u v h => ⟨heldAfterCompile t u (v.extractLsb' 0 32), ?_, ?_⟩, fun e h => ?_⟩
  · rw [hstep]
    refine fetchAndRun_of_word hhit ((fetchWord_of_compiled hmode).trans (fetchCompiled_of_read hnone ?_))
    rw [hread, h]
    rfl
  · exact get_heldAfterCompile_pc (get_heldCode_deviceAccess hnone h)
  · rw [hstep]
    refine fetchAndRun_of_refused hhit ((fetchWord_of_compiled hmode).trans (fetchCompiled_of_read_refused hnone ?_))
    rw [hread, h]
    rfl

theorem step_of_compiled_plain (hplain : inDeviceWindow t.params pa 4 = false) :
    ∃ held, step s = runWord (compiledWord t pa) { t with draws := t.draws + 1, heldCode := held } ∧
      HeldByFetch t (compiledWord t pa) held := by
  obtain ⟨held, hfetch, hheld⟩ := fetchCompiled_of_plain hplain
  rw [hstep]
  exact ⟨held, fetchAndRun_of_word hhit ((fetchWord_of_compiled hmode).trans hfetch), hheld⟩

end

/-- Settles O6: after the boundary a step is the fetch, by its address and the engine mode, and an invalidation filters
the held code by its ranges. -/
theorem stepRunsTheDecodedInstruction : Obligations.StepRunsTheDecodedInstruction := by
  refine ⟨fun w i u h => runWord_of_instr h u, fun s t hboot hproceed => ?_, get_invalidateRange, fun i s a => ?_⟩
  · have hstep := step_of_proceed hboot hproceed
    refine ⟨fun hmis => ?_, fun haligned => ?_⟩
    · rw [hstep, fetchAndRun_of_miss (fetchAddress_of_not_aligned hmis)]
    have haddr := fetchAddress_of_aligned haligned
    refine ⟨fun e hmiss => ?_, fun pa hhit hmode => ?_, fun pa hhit hmode => ⟨fun hin => ?_, fun hplain => ?_⟩⟩
    · rw [hstep, fetchAndRun_of_miss (haddr.trans hmiss)]
    · obtain ⟨plain, window⟩ := step_of_pure hstep (haddr.trans hhit) hmode
      exact ⟨fun h => ⟨plain h, fun i hi => (plain h).trans (runWord_of_instr hi t)⟩, window⟩
    · intro x
      split
      case h_1 w hheld => exact step_of_compiled_held hstep (haddr.trans hhit) hmode hheld
      case h_2 hnone => exact step_of_compiled_window hstep (haddr.trans hhit) hmode hin hnone
    · obtain ⟨held, hrun, fetched, kept, compiled⟩ := step_of_compiled_plain hstep (haddr.trans hhit) hmode hplain
      exact ⟨held, hrun, fun i hi => hrun.trans (runWord_of_instr hi _), fetched, kept, compiled⟩
  · intro dropped halves
    rw [get_tlbWrite]
    refine ⟨fun h => if_pos ((any_invalidatedRanges_iff _ _ _ a).2 h), fun h => if_neg fun hany => ?_⟩
    obtain ⟨r, hr, hdropped⟩ := (any_invalidatedRanges_iff _ _ _ a).1 hany
    exact h r hr hdropped

end Sys2Proof.Machine
end

section

/-! The moves to and from CP0 (R181, R183, R204, R205, R402): the instruction by its usability, the register a number names, and
what CP0Read and CP0Write do to the state. -/
namespace Sys2Proof.Machine

variable {s : State} {rt rd : RegNum} {r : Cp0Reg} {i : Instr}

/-! The instructions -/

theorem requireCp0_of_usable {rest : State → Result} (h : cp0Usable s.cp0.status = true) : requireCp0 s rest = rest s :=
  if_pos h

theorem requireCp0_of_unusable {rest : State → Result} (h : cp0Usable s.cp0.status = false) :
    requireCp0 s rest = .next (enter (.copUnusable 0) s) :=
  if_neg (by simp [h])

/-- A move given as a function of its operands. -/
theorem move_of_mk {mk mk₁ mk₂ : RegNum → RegNum → Instr} (h : mk = mk₁ ∨ mk = mk₂) :
    mk rt rd = mk₁ rt rd ∨ mk rt rd = mk₂ rt rd :=
  h.imp (congrFun₂ · rt rd) (congrFun₂ · rt rd)

theorem exec_fromCp0 (hi : i = .mfc0 rt rd ∨ i = .dmfc0 rt rd) (s : State) :
    exec i s = requireCp0 s fun s => .next (moveFromCp0 rt rd s).advance := by
  obtain rfl | rfl := hi <;> rfl

theorem exec_fromCp0_of_usable (hi : i = .mfc0 rt rd ∨ i = .dmfc0 rt rd) (h : cp0Usable s.cp0.status = true) :
    exec i s = .next (moveFromCp0 rt rd s).advance :=
  (exec_fromCp0 hi s).trans (requireCp0_of_usable h)

theorem exec_toCp0_of_usable (hi : i = .mtc0 rt rd ∨ i = .dmtc0 rt rd) (h : cp0Usable s.cp0.status = true) :
    exec i s = .next (moveToCp0 rt rd s).advance := by
  obtain rfl | rfl := hi <;> exact if_pos h

/-! The register a number names (R36, R59) -/

/-- The number of a register (R36). -/
def Cp0Reg.number : Cp0Reg → RegNum
  | .index => 0
  | .random => 1
  | .entryLo0 => 2
  | .entryLo1 => 3
  | .context => 4
  | .pageMask => 5
  | .wired => 6
  | .badVAddr => 8
  | .count => 9
  | .entryHi => 10
  | .compare => 11
  | .status => 12
  | .cause => 13
  | .epc => 14
  | .prId => 15
  | .config => 16
  | .llAddr => 17
  | .watchLo => 18
  | .watchHi => 19
  | .xContext => 20
  | .tagLo => 28
  | .tagHi => 29
  | .errorEpc => 30

theorem number_of_ofNumber (h : Cp0Reg.ofNumber rd = some r) : rd = r.number := by
  have inverse : ∀ n, (Cp0Reg.ofNumber n).all (fun q => n = q.number) = true := by decide
  have hn := inverse rd
  rw [h] at hn
  exact of_decide_eq_true hn

/-- R59: the numbers that name no register. -/
theorem ofNumber_eq_none : ∀ rd : RegNum, rd = 7 ∨ (21 ≤ rd.toNat ∧ rd.toNat ≤ 27) ∨ rd = 31 →
    Cp0Reg.ofNumber rd = none := by decide

theorem moveFromCp0_of_named (h : Cp0Reg.ofNumber rd = some r) :
    moveFromCp0 rt rd s = (cp0Read r s).1.writeX rt (sext64 (cp0Read r s).2) := by
  rw [moveFromCp0, h]

theorem moveFromCp0_of_unnamed (h : Cp0Reg.ofNumber rd = none) : moveFromCp0 rt rd s = s := by
  rw [moveFromCp0, h]

theorem moveToCp0_of_named (h : Cp0Reg.ofNumber rd = some r) :
    moveToCp0 rt rd s = cp0Write r (low32 (s.readX rt)) s := by
  rw [moveToCp0, h]

theorem moveToCp0_of_unnamed (h : Cp0Reg.ofNumber rd = none) : moveToCp0 rt rd s = s := by
  rw [moveToCp0, h]

/-! Moving on -/

/-- The move to the next instruction changes no CP0 register but Count (R390). -/
theorem advance_cp0 (s : State) : s.advance.cp0 = { s.cp0 with count := s.advance.cp0.count } := by
  unfold State.advance
  split <;> rfl

@[simp] theorem readX_advance (s : State) (q : RegNum) : s.advance.readX q = s.readX q := by
  simp [State.readX]

/-- Outside a delay slot the move to the next instruction samples nothing. -/
theorem sameTime_advance {u : State} (hslot : u.inDelaySlot = false) (h : sameTime s u) : sameTime s u.advance := by
  rw [advance_of_not_slot hslot]
  exact h

end Sys2Proof.Machine
end

section

/-! MFC0 and DMFC0: the value of each register (R182) and what they leave unchanged (R180). -/
namespace Sys2Proof.Machine

variable {s u : State} {rt rd : RegNum} {r : Cp0Reg} {i : Instr}

/-- R38: a draw is at least min(Wired[5:0], 31). -/
theorem randomLow_le_drawRandom (s : State) : randomLow s.cp0.wired ≤ (drawRandom s).2.val := Nat.le_add_right _ _

/-- Bits 5:0 as a field and under a mask. -/
theorem toNat_and_3F (v : Word) : (v &&& 0x3F).toNat = (v.extractLsb' 0 6).toNat := by
  simp only [BitVec.toNat_and, BitVec.extractLsb'_toNat, Nat.shiftRight_zero]
  exact Nat.and_two_pow_sub_one_eq_mod _ 6

/-- A small value is its own sign extension. -/
theorem sext64_ofNat {v : Nat} (h : v ≤ 31) : sext64 (BitVec.ofNat 32 v) = BitVec.ofNat 64 v := by
  have small : ∀ v : Fin 32, sext64 (BitVec.ofNat 32 v) = BitVec.ofNat 64 v := by decide
  exact small ⟨v, by omega⟩

/-- Settles O19: by the usability test and the register the number names, whose CP0Read is its clause of R182. -/
theorem moveFromCp0ReadsEachRegister : Obligations.MoveFromCp0ReadsEachRegister := by
  intro mk hmk s rt
  refine ⟨fun hunusable rd => (exec_fromCp0 (move_of_mk hmk) s).trans (requireCp0_of_unusable hunusable), fun husable => ?_⟩
  have read {rd : RegNum} (r : Cp0Reg) (hrd : Cp0Reg.ofNumber rd = some r) :
      exec (mk rt rd) s = .next ((cp0Read r s).1.writeX rt (sext64 (cp0Read r s).2)).advance := by
    rw [exec_fromCp0_of_usable (move_of_mk hmk) husable, moveFromCp0_of_named hrd]
  have random : ∃ v : Nat, min (s.cp0.wired &&& 0x3F).toNat 31 ≤ v ∧ v ≤ 31 ∧
      exec (mk rt 1) s = .next (({ s with draws := s.draws + 1 } : State).writeX rt (BitVec.ofNat 64 v)).advance := by
    refine ⟨(drawRandom s).2.val, ?_, Fin.is_le _, ?_⟩
    · rw [toNat_and_3F]
      exact randomLow_le_drawRandom s
    · rw [← sext64_ofNat (Fin.is_le (drawRandom s).2)]
      exact read .random rfl
  refine ⟨read .index rfl, random, read .entryLo0 rfl, read .entryLo1 rfl, read .context rfl, read .pageMask rfl,
    read .wired rfl, read .badVAddr rfl, read .count rfl, read .entryHi rfl, read .compare rfl, read .status rfl,
    read .cause rfl, read .epc rfl, read .prId rfl, read .config rfl, read .llAddr rfl, read .watchLo rfl,
    read .watchHi rfl, read .xContext rfl, read .tagLo rfl, read .tagHi rfl, read .errorEpc rfl, fun rd hrd => ?_⟩
  rw [exec_fromCp0_of_usable (move_of_mk hmk) husable, moveFromCp0_of_unnamed (ofNumber_eq_none rd hrd)]

/-! What a move to a general register leaves -/

theorem withCount_eq (h : sameCp0ButCount s u) (n : Word) : { u.cp0 with count := n } = { s.cp0 with count := n } := by
  rw [show u.cp0 = _ from h]

/-- `t` differs from `s` in x[rt], Count, block time, the sample reference, the draws and where the pc stands, at most. -/
structure OnlyGprAndTime (rt : RegNum) (s t : State) : Prop where
  gprs : sameGprsBut rt s t
  fpu : sameFpu s t
  tlb : sameTlb s t
  memory : sameMemory s t
  heldCode : sameHeldCode s t
  queueAndStack : sameQueueAndStack s t
  cp0 : sameCp0ButCount s t
  rest : sameRest s t

namespace OnlyGprAndTime

theorem refl (rt : RegNum) (s : State) : OnlyGprAndTime rt s s :=
  ⟨⟨fun _ _ => rfl, rfl, rfl⟩, ⟨rfl, rfl⟩, ⟨rfl, rfl, rfl⟩, fun _ => rfl, rfl, ⟨rfl, rfl, rfl⟩, rfl,
    ⟨rfl, rfl, rfl, rfl, rfl, rfl⟩⟩

section
variable (h : OnlyGprAndTime rt s u)
include h

theorem countSample (p : Word) : OnlyGprAndTime rt s (countSample p u) :=
  { h with cp0 := withCount_eq h.cp0 _ }

theorem advance : OnlyGprAndTime rt s u.advance := by
  unfold State.advance
  split
  · exact { h.countSample (u.pc + 4) with }
  · exact { h with }

theorem writeX (v : Dword) : OnlyGprAndTime rt s (u.writeX rt v) := by
  by_cases hrt : rt = 0
  · rw [hrt, writeX_zero, ← hrt]
    exact h
  · obtain ⟨hother, hhi, hlo⟩ := h.gprs
    refine { h with gprs := ⟨fun q hq => ?_, hhi, hlo⟩ }
    rw [readX_writeX u q v hrt, if_neg hq]
    exact hother q hq

end

theorem cp0Read (rt : RegNum) (r : Cp0Reg) (s : State) : OnlyGprAndTime rt s (cp0Read r s).1 := by
  cases r
  case count | compare => exact (refl rt s).countSample s.pc
  case random => exact { refl rt s with }
  all_goals exact refl rt s

end OnlyGprAndTime

/-- Only a read of Count or Compare samples (R182). -/
theorem sameTime_cp0Read (hcount : r ≠ .count) (hcompare : r ≠ .compare) : sameTime s (cp0Read r s).1 := by
  cases r
  case count => exact absurd rfl hcount
  case compare => exact absurd rfl hcompare
  all_goals exact ⟨rfl, rfl, rfl⟩

@[simp] theorem cp0Read_inDelaySlot (r : Cp0Reg) (s : State) : (cp0Read r s).1.inDelaySlot = s.inDelaySlot := by
  cases r <;> rfl

/-- What an instruction does before it moves on, when it writes x[rt] and samples at most if `samples` holds. -/
structure WritesGpr (rt : RegNum) (samples : Prop) (s u : State) : Prop where
  frame : OnlyGprAndTime rt s u
  slot : u.inDelaySlot = s.inDelaySlot
  time : ¬samples → sameTime s u

theorem WritesGpr.refl (rt : RegNum) (samples : Prop) (s : State) : WritesGpr rt samples s s :=
  ⟨.refl rt s, rfl, fun _ => ⟨rfl, rfl, rfl⟩⟩

theorem WritesGpr.writeX {samples : Prop} (h : WritesGpr rt samples s u) (v : Dword) :
    WritesGpr rt samples s (u.writeX rt v) :=
  ⟨h.frame.writeX v, h.slot, h.time⟩

theorem writesGpr_moveFromCp0 (rt rd : RegNum) (s : State) : WritesGpr rt (rd = 9 ∨ rd = 11) s (moveFromCp0 rt rd s) := by
  cases hrd : Cp0Reg.ofNumber rd with
  | none =>
    rw [moveFromCp0_of_unnamed hrd]
    exact .refl rt _ s
  | some r =>
    rw [moveFromCp0_of_named hrd]
    refine WritesGpr.writeX ⟨.cp0Read rt r s, cp0Read_inDelaySlot r s, fun hother => ?_⟩ _
    obtain rfl := number_of_ofNumber hrd
    refine sameTime_cp0Read ?_ ?_ <;> rintro rfl
    · exact hother (.inl rfl)
    · exact hother (.inr rfl)

theorem exec_fromCop1_of_usable (hi : i = .mfc1 rt rd ∨ i = .dmfc1 rt rd ∨ i = .cfc1 rt rd)
    (h : cp1Usable s.cp0.status = true) : ∃ u, exec i s = .next u.advance ∧ WritesGpr rt False s u := by
  have base := WritesGpr.refl rt False s
  obtain rfl | rfl | rfl := hi
  · exact ⟨_, if_pos h, base.writeX _⟩
  · exact ⟨_, if_pos h, base.writeX _⟩
  · refine ⟨_, if_pos h, ?_⟩
    unfold moveFromControl
    split
    · exact base.writeX _
    · exact base

/-- Settles O25: each of the five instructions writes x[rt] and moves on. -/
theorem frameOfMovesToGpr : Obligations.FrameOfMovesToGpr := by
  intro s t rt r i hmove h
  have effect : ∃ u, exec i s = .next u.advance ∧
      WritesGpr rt ((i = .mfc0 rt r ∨ i = .dmfc0 rt r) ∧ (r = 9 ∨ r = 11)) s u := by
    obtain ⟨hi, husable⟩ | ⟨hi, husable⟩ := hmove
    · obtain ⟨frame, slot, time⟩ := writesGpr_moveFromCp0 rt r s
      exact ⟨_, exec_fromCp0_of_usable hi husable, frame, slot, fun hother => time fun hr => hother ⟨hi, hr⟩⟩
    · obtain ⟨u, hu, frame, slot, time⟩ := exec_fromCop1_of_usable hi husable
      exact ⟨u, hu, frame, slot, fun _ => time id⟩
  obtain ⟨u, hu, frame, slot, time⟩ := effect
  cases hu.symm.trans h
  obtain ⟨gprs, fpu, tlb, memory, heldCode, queueAndStack, cp0, rest⟩ := frame.advance
  exact ⟨gprs, rfl, fpu, tlb, memory, heldCode, queueAndStack, cp0, rest, fun hslot hother =>
    sameTime_advance (slot.trans hslot) (time hother)⟩

end Sys2Proof.Machine
end

section

/-! MTC0 and DMTC0: the plain stores under a write mask (R185 to R191, R197 to R202), the Status write (R195, R196) and a Wired
write followed by a read of Random (R190). -/
namespace Sys2Proof.Machine

variable {s : State} {rt rd : RegNum}

/-- The write of a named register by either move, for a move given as a function of its operands. -/
theorem exec_toCp0_of_named {mk : RegNum → RegNum → Instr} (hmk : mk = .mtc0 ∨ mk = .dmtc0)
    (husable : cp0Usable s.cp0.status = true) (r : Cp0Reg) (hrd : Cp0Reg.ofNumber rd = some r) :
    exec (mk rt rd) s = .next (cp0Write r ((s.readX rt).extractLsb' 0 32) s).advance := by
  rw [exec_toCp0_of_usable (move_of_mk hmk) husable, moveToCp0_of_named hrd, low32]

/-- The numbers whose write changes nothing name a read-only register or none (R198 to R202, R59). -/
theorem moveToCp0_of_readOnly (h : rd = 1 ∨ rd = 8 ∨ rd = 15 ∨ rd = 20 ∨ rd = 29 ∨ rd = 7 ∨
    (21 ≤ rd.toNat ∧ rd.toNat ≤ 27) ∨ rd = 31) : moveToCp0 rt rd s = s := by
  obtain rfl | rfl | rfl | rfl | rfl | hunnamed := h
  · exact moveToCp0_of_named (r := .random) rfl
  · exact moveToCp0_of_named (r := .badVAddr) rfl
  · exact moveToCp0_of_named (r := .prId) rfl
  · exact moveToCp0_of_named (r := .xContext) rfl
  · exact moveToCp0_of_named (r := .tagHi) rfl
  · exact moveToCp0_of_unnamed (ofNumber_eq_none rd hunnamed)

/-! Software interrupts (R197, R385) -/

/-- The lines that are both up and enabled are a field of Cause and Status together. -/
theorem causeIp_and_statusIm (cause status : Word) :
    causeIp cause &&& statusIm status = (cause &&& status).extractLsb' 8 8 :=
  (BitVec.extractLsb'_and ..).symm

/-- Bits 9:8 lie in the field of the interrupt lines. -/
theorem extractLsb'_ne_zero_of_and_0300 {w : Word} (h : w &&& 0x00000300 ≠ 0) : w.extractLsb' 8 8 ≠ 0 := by
  have mask : ∀ k : Fin 32, (0x00000300 : Word).getLsbD k = decide (8 ≤ k.val ∧ k.val ≤ 9) := by decide
  contrapose! h
  apply BitVec.eq_of_getLsbD_eq
  intro j hj
  rw [BitVec.getLsbD_and, mask ⟨j, hj⟩]
  by_cases hline : 8 ≤ j ∧ j ≤ 9
  · have hfield : (w.extractLsb' 8 8).getLsbD (j - 8) = w.getLsbD j := by
      rw [BitVec.getLsbD_extractLsb', show 8 + (j - 8) = j by omega]
      simp [show j - 8 < 8 by omega]
    rw [← hfield, h]
    simp
  · simp [hline]

/-- Under its own mask a merge is the value written. -/
theorem merge_and_and_mask (mask old v w : Word) : merge mask old v &&& w &&& mask = v &&& w &&& mask := by
  apply BitVec.eq_of_getLsbD_eq
  intro j _
  simp only [BitVec.getLsbD_and, merge_getLsbD]
  cases mask.getLsbD j <;> simp

/-- A software line the write raises and Status enables is pending (R385). -/
theorem interruptPending_of_softwareLine {cause status v : Word} (hline : v &&& status &&& 0x00000300 ≠ 0)
    (hie : statusIe status = true) (hexl : statusExl status = false) (herl : statusErl status = false) :
    interruptPending (merge 0x00000300 cause v) status = true := by
  have hlines : causeIp (merge 0x00000300 cause v) &&& statusIm status ≠ 0 := by
    rw [causeIp_and_statusIm]
    refine extractLsb'_ne_zero_of_and_0300 ?_
    rwa [merge_and_and_mask]
  rw [interruptPending, hie, hexl, herl, decide_eq_true hlines]
  rfl

/-- Settles O20: each number by the register it names, whose CP0Write is the store of its clause. -/
theorem moveToCp0StoresUnderMask : Obligations.MoveToCp0StoresUnderMask := by
  intro mk hmk s rt husable v
  have write {rd : RegNum} (r : Cp0Reg) (hrd : Cp0Reg.ofNumber rd = some r) :
      exec (mk rt rd) s = .next (cp0Write r v s).advance := exec_toCp0_of_named hmk husable r hrd
  refine ⟨write .index rfl, write .entryLo0 rfl, write .entryLo1 rfl, write .context rfl, write .pageMask rfl,
    write .wired rfl, write .entryHi rfl, write .cause rfl, write .epc rfl, write .config rfl, write .llAddr rfl,
    write .watchLo rfl, write .watchHi rfl, write .tagLo rfl, write .errorEpc rfl, fun rd hrd => ?_,
    fun t ht hline hie hexl herl => ?_⟩
  · rw [exec_toCp0_of_usable (move_of_mk hmk) husable, moveToCp0_of_readOnly hrd]
  · cases (write .cause rfl).symm.trans ht
    refine if_pos ?_
    rw [State.interruptDue, advance_cp0]
    exact interruptPending_of_softwareLine hline hie hexl herl

/-- Settles O23: the new FR is bit 26 of the value, which the mask keeps, and the reshuffle goes by the old and the new. -/
theorem statusWriteReshufflesOnFrChange : Obligations.StatusWriteReshufflesOnFrChange := by
  intro mk hmk s rt husable v
  have hfr : statusFr (v &&& statusMask) = v.getLsbD 26 := by
    simp [statusFr, bit, statusMask]
  refine ⟨reshuffle (statusFr s.cp0.status) (statusFr (v &&& statusMask)) s.fpr,
    exec_toCp0_of_named hmk husable .status rfl, ?_, ?_, ?_⟩ <;> rw [hfr]
  · exact fun hsame => if_pos hsame.symm
  · intro hold hnew
    rw [show statusFr s.cp0.status = true from hold, hnew]
    rfl
  · intro hold hnew
    rw [show statusFr s.cp0.status = false from hold, hnew]
    rfl

/-- Settles O24: the Wired write is the lower bound of the draw that follows. -/
theorem wiredWriteBoundsRandom : Obligations.WiredWriteBoundsRandom := by
  intro s rt r husable hr v
  obtain ⟨t, ht, hcp0⟩ : ∃ t : State, exec (.mtc0 rt 6) s = .next t ∧
      t.cp0 = { s.cp0 with wired := (s.readX rt).extractLsb' 0 32 &&& 0x3F, count := t.cp0.count } :=
    ⟨_, exec_toCp0_of_named (.inl rfl) husable .wired rfl, advance_cp0 _⟩
  have hwired : t.cp0.wired = (s.readX rt).extractLsb' 0 32 &&& 0x3F := by rw [hcp0]
  have hv : t.cp0.wired.toNat = v := by
    rw [hwired, toNat_and_3F, extractLsb'_extractLsb'_add _ (by decide)]
  have hlow6 : t.cp0.wired &&& 0x3F = t.cp0.wired := by
    rw [hwired, BitVec.and_assoc, BitVec.and_self]
  have htusable : cp0Usable t.cp0.status = true := by rwa [hcp0]
  obtain ⟨-, ⟨w, hlow, hhigh, hu⟩, -⟩ := (moveFromCp0ReadsEachRegister .mfc0 (.inl rfl) t r).2 htusable
  have hread (u : State) : ((u.writeX r (BitVec.ofNat 64 w)).advance.readX r).toNat = w := by
    rw [readX_advance, readX_writeX _ _ _ hr, if_pos rfl, BitVec.toNat_ofNat, Nat.mod_eq_of_lt (by omega)]
  refine ⟨t, _, ht, hv, hu, ?_, ?_, ?_⟩
  · rwa [hread, ← hv, ← hlow6]
  · rwa [hread]
  · rw [advance_cp0]
    rfl

end Sys2Proof.Machine
end

section

/-! The Count and Compare writes (R192 to R194): the COMPARE node leaves the queue and comes back at its new distance. -/
namespace Sys2Proof.Machine

variable {s : State} {rt : RegNum}

/-- The queue with its COMPARE nodes replaced by one. -/
def Queue.replaceCompare (due : Nat) (q : List Node) : List Node :=
  Queue.insert ⟨.compare, due⟩ (Queue.without .compare q)

theorem Queue.replaceCompare_perm (due : Nat) (q : List Node) :
    (Queue.replaceCompare due q).Perm (⟨.compare, due⟩ :: q.filter fun n => n.type ≠ .compare) :=
  Queue.insert_perm _ _

/-- Every other node keeps its place and due time (R193). -/
theorem Queue.filter_replaceCompare (due : Nat) (q : List Node) :
    ((Queue.replaceCompare due q).filter fun n => n.type ≠ .compare) = q.filter fun n => n.type ≠ .compare := by
  rw [Queue.replaceCompare, Queue.filter_insert_of_not (by simp), Queue.without, List.filter_filter]
  simp

theorem Queue.wf_replaceCompare (due : Nat) {q : List Node} (hroom : (Queue.without .compare q).length < queueCap)
    (h : Queue.wf q) : Queue.wf (Queue.replaceCompare due q) :=
  Queue.wf_insert _ hroom (Queue.wf_without _ h)

/-- With room in the pool, resched_compare enters its node (R392). -/
theorem reschedCompare_of_room {s : State} (h : s.queue.length < queueCap) :
    reschedCompare s =
      { s with queue := Queue.insert ⟨.compare, s.time + compareDelta s.cp0.compare s.cp0.count⟩ s.queue } := by
  obtain ⟨hfull, -⟩ | ⟨-, heq⟩ := reschedCompare_cases s
  · omega
  · exact heq

/-- The state a Count or Compare write leaves: the sample's, with the registers written and the COMPARE node at their
distance. -/
def withTimer (c : Cp0) (s : State) : State :=
  { countSample s.pc s with
    cp0 := c
    queue := Queue.replaceCompare ((countSample s.pc s).time + compareDelta c.compare c.count) s.queue }

section
variable (hroom : (Queue.without .compare s.queue).length < queueCap)
include hroom

theorem writeCount_of_room (v : Word) : writeCount v s = withTimer { s.cp0 with count := v } s :=
  reschedCompare_of_room (s := { cancel .compare (countSample s.pc s) with cp0 := _ }) hroom

theorem writeCompare_of_room (v : Word) :
    writeCompare v s =
      withTimer { (countSample s.pc s).cp0 with compare := v, cause := putIp s.cp0.cause 7 false } s :=
  reschedCompare_of_room (s := { cancel .compare (countSample s.pc s) with cp0 := _ }) hroom

end

/-- Settles O21: the Count write replaces the COMPARE node of the sampled state. -/
theorem countWriteReschedulesCompare : Obligations.CountWriteReschedulesCompare := by
  intro mk hmk s rt husable hroom v
  refine ⟨withTimer { s.cp0 with count := v } s, ?_, rfl, rfl, rfl, Queue.replaceCompare_perm _ _,
    Queue.filter_replaceCompare _ _, Queue.wf_replaceCompare _ hroom, rfl⟩
  rw [← writeCount_of_room hroom]
  exact exec_toCp0_of_named hmk husable .count rfl

/-- Settles O22: the Compare write replaces the COMPARE node of the sampled state and clears bit 15 of Cause. -/
theorem compareWriteAcknowledgesTimer : Obligations.CompareWriteAcknowledgesTimer := by
  intro mk hmk s rt husable hroom v count
  refine ⟨withTimer { (countSample s.pc s).cp0 with compare := v, cause := putIp s.cp0.cause 7 false } s, ?_, rfl, rfl, rfl,
    Queue.replaceCompare_perm _ _, Queue.filter_replaceCompare _ _, Queue.wf_replaceCompare _ hroom, rfl⟩
  rw [← writeCompare_of_room hroom]
  exact exec_toCp0_of_named hmk husable .compare rfl

end Sys2Proof.Machine
end

section

/-! What the moves to CP0 leave unchanged (R183, R184, R186, R203). -/
namespace Sys2Proof.Machine

variable {s u : State} {rt rd : RegNum} {r q : Cp0Reg}

/-- A move to CP0 is the write of the register its number names, or nothing. -/
theorem moveToCp0_cases (rt rd : RegNum) (s : State) :
    moveToCp0 rt rd s = s ∨ ∃ r v, rd = Cp0Reg.number r ∧ moveToCp0 rt rd s = cp0Write r v s := by
  cases hrd : Cp0Reg.ofNumber rd with
  | none => exact .inl (moveToCp0_of_unnamed hrd)
  | some r => exact .inr ⟨r, _, number_of_ofNumber hrd, moveToCp0_of_named hrd⟩

/-- What no CP0 write changes. -/
structure SameOutsideCp0 (s t : State) : Prop where
  gprs : sameGprs s t
  fcr31 : t.fcr31 = s.fcr31
  tlb : sameTlb s t
  memory : sameMemory s t
  heldCode : sameHeldCode s t
  xs : t.xs = s.xs
  rest : sameRest s t
  draws : t.draws = s.draws

namespace SameOutsideCp0

theorem refl (s : State) : SameOutsideCp0 s s :=
  ⟨⟨fun _ => rfl, rfl, rfl⟩, rfl, ⟨rfl, rfl, rfl⟩, fun _ => rfl, rfl, rfl, ⟨rfl, rfl, rfl, rfl, rfl, rfl⟩, rfl⟩

theorem advance (h : SameOutsideCp0 s u) : SameOutsideCp0 s u.advance := by
  unfold State.advance
  split <;> exact { h with }

theorem reschedCompare (h : SameOutsideCp0 s u) : SameOutsideCp0 s (reschedCompare u) := by
  obtain ⟨-, e⟩ | ⟨-, e⟩ := reschedCompare_cases u <;> rw [e] <;> exact { h with }

theorem cp0Write (r : Cp0Reg) (v : Word) (s : State) : SameOutsideCp0 s (cp0Write r v s) := by
  cases r
  case count | compare =>
    exact reschedCompare (u := { cancel .compare (countSample s.pc s) with cp0 := _ }) { refl s with }
  all_goals exact { refl s with }

theorem moveToCp0 (rt rd : RegNum) (s : State) : SameOutsideCp0 s (moveToCp0 rt rd s) := by
  obtain heq | ⟨r, v, -, heq⟩ := moveToCp0_cases rt rd s <;> rw [heq]
  · exact refl s
  · exact cp0Write r v s

end SameOutsideCp0

/-- R203, R196: only a Status write reaches the FPU bank. -/
theorem cp0Write_fpr (h : r ≠ .status) (v : Word) (s : State) : (cp0Write r v s).fpr = s.fpr := by
  cases r
  case status => exact absurd rfl h
  case count | compare => exact reschedCompare_fpr _
  all_goals rfl

/-- What a write of neither Count nor Compare leaves: the queue, the fault flags, the delay slot, and what a sample writes. -/
structure SameTimer (s t : State) : Prop where
  queue : t.queue = s.queue
  faults : t.faults = s.faults
  slot : t.inDelaySlot = s.inDelaySlot
  time : sameTime s t

theorem SameTimer.cp0Write (hcount : r ≠ .count) (hcompare : r ≠ .compare) (v : Word) (s : State) :
    SameTimer s (cp0Write r v s) := by
  cases r
  case count => exact absurd rfl hcount
  case compare => exact absurd rfl hcompare
  all_goals exact ⟨rfl, rfl, rfl, rfl, rfl, rfl⟩

/-- The stored value of a register, 0 for those that hold no state (R36, log 25). -/
def Cp0Reg.stored (c : Cp0) : Cp0Reg → Word
  | .index => c.index
  | .random => 0
  | .entryLo0 => c.entryLo0
  | .entryLo1 => c.entryLo1
  | .context => c.context
  | .pageMask => c.pageMask
  | .wired => c.wired
  | .badVAddr => c.badVAddr
  | .count => c.count
  | .entryHi => c.entryHi
  | .compare => c.compare
  | .status => c.status
  | .cause => c.cause
  | .epc => c.epc
  | .prId => 0
  | .config => c.config
  | .llAddr => c.llAddr
  | .watchLo => c.watchLo
  | .watchHi => c.watchHi
  | .xContext => c.xContext
  | .tagLo => c.tagLo
  | .tagHi => 0
  | .errorEpc => c.errorEpc

theorem stored_withCount (hq : q ≠ .count) (c : Cp0) (n : Word) : q.stored { c with count := n } = q.stored c := by
  cases q
  case count => exact absurd rfl hq
  all_goals rfl

theorem writeCount_cp0 (v : Word) (s : State) : (writeCount v s).cp0 = { s.cp0 with count := v } := reschedCompare_cp0 _

theorem writeCompare_cp0 (v : Word) (s : State) :
    (writeCompare v s).cp0 =
      { s.cp0 with compare := v, cause := putIp s.cp0.cause 7 false, count := (countSample s.pc s).cp0.count } :=
  reschedCompare_cp0 _

/-- R184: a write reaches no stored register but its own; Count aside, which a sample writes, and Cause by a Compare write. -/
theorem stored_cp0Write_of_ne (hq : q ≠ r) (hcount : q ≠ .count) (hcause : q = .cause → r ≠ .compare) (v : Word)
    (s : State) : q.stored (cp0Write r v s).cp0 = q.stored s.cp0 := by
  cases r
  case count => rw [cp0Write, writeCount_cp0, stored_withCount hcount]
  case compare =>
    rw [cp0Write, writeCompare_cp0, stored_withCount hcount]
    cases q
    case count => exact absurd rfl hcount
    all_goals simp [Cp0Reg.stored] at hq hcause ⊢
  all_goals cases q <;> simp [cp0Write, writeStatus, Cp0Reg.stored] at hq ⊢

/-- A move to CP0 leaves every stored register but the one its number names, Count and by a Compare write Cause aside. -/
theorem stored_moveToCp0 (hq : rd ≠ q.number) (hcount : q ≠ .count) (hcause : q = .cause → rd ≠ 11) (rt : RegNum)
    (s : State) : q.stored (moveToCp0 rt rd s).cp0 = q.stored s.cp0 := by
  obtain heq | ⟨r, v, rfl, heq⟩ := moveToCp0_cases rt rd s <;> rw [heq]
  exact stored_cp0Write_of_ne (fun e => hq (congrArg Cp0Reg.number e.symm)) hcount
    (fun hc => mt (congrArg Cp0Reg.number) (hcause hc)) v s

theorem moveToCp0_fpr (h : rd ≠ 12) (rt : RegNum) (s : State) : (moveToCp0 rt rd s).fpr = s.fpr := by
  obtain heq | ⟨r, v, rfl, heq⟩ := moveToCp0_cases rt rd s <;> rw [heq]
  exact cp0Write_fpr (mt (congrArg Cp0Reg.number) h) v s

theorem SameTimer.moveToCp0 (hcount : rd ≠ 9) (hcompare : rd ≠ 11) (rt : RegNum) (s : State) :
    SameTimer s (moveToCp0 rt rd s) := by
  obtain heq | ⟨r, v, rfl, heq⟩ := moveToCp0_cases rt rd s <;> rw [heq]
  · exact ⟨rfl, rfl, rfl, rfl, rfl, rfl⟩
  · exact .cp0Write (mt (congrArg Cp0Reg.number) hcount) (mt (congrArg Cp0Reg.number) hcompare) v s

/-- Settles O26: the write reaches the register its number names, and moving on reaches Count, block time and the pc. -/
theorem frameOfMovesToCp0 : Obligations.FrameOfMovesToCp0 := by
  intro s t rt rd i hi husable h
  cases (exec_toCp0_of_usable hi husable).symm.trans h
  obtain ⟨gprs, fcr31, tlb, memory, heldCode, xs, rest, draws⟩ := (SameOutsideCp0.moveToCp0 rt rd s).advance
  have kept (q : Cp0Reg) (hq : rd ≠ q.number) (hcount : q ≠ .count) (hcause : q = .cause → rd ≠ 11) :
      q.stored (moveToCp0 rt rd s).advance.cp0 = q.stored s.cp0 := by
    rw [advance_cp0, stored_withCount hcount, stored_moveToCp0 hq hcount hcause]
  have plain (q : Cp0Reg) (hplain : q ≠ .count ∧ q ≠ .cause) (hq : rd ≠ q.number) :
      q.stored (moveToCp0 rt rd s).advance.cp0 = q.stored s.cp0 := kept q hq hplain.1 fun h => absurd h hplain.2
  have queue (hcount : rd ≠ 9) (hcompare : rd ≠ 11) : sameQueueAndStack s (moveToCp0 rt rd s).advance := by
    have timer := SameTimer.moveToCp0 hcount hcompare rt s
    exact ⟨(advance_queue _).trans timer.queue, xs, (advance_faults _).trans timer.faults⟩
  have time (hslot : s.inDelaySlot = false) (hcount : rd ≠ 9) (hcompare : rd ≠ 11) :
      sameTime s (moveToCp0 rt rd s).advance := by
    have timer := SameTimer.moveToCp0 hcount hcompare rt s
    exact sameTime_advance (timer.slot.trans hslot) timer.time
  have readOnly (q : Cp0Reg) (hq : q = .badVAddr ∨ q = .xContext) :
      q.stored (moveToCp0 rt rd s).advance.cp0 = q.stored s.cp0 := by
    by_cases hrd : rd = q.number
    · obtain rfl | rfl := hq <;> subst hrd <;>
        rw [moveToCp0_of_readOnly (by decide), advance_cp0, stored_withCount (by decide)]
    · obtain rfl | rfl := hq <;> exact plain _ (by decide) hrd
  exact ⟨gprs, fcr31, fun h => (advance_fpr _).trans (moveToCp0_fpr h rt s), tlb, memory, heldCode, xs, queue, rest, draws,
    time, readOnly .badVAddr (.inl rfl), readOnly .xContext (.inr rfl), plain .status (by decide),
    fun h hcompare => kept .cause h (by decide) fun _ => hcompare, plain .epc (by decide), plain .compare (by decide),
    plain .entryHi (by decide), plain .context (by decide), plain .errorEpc (by decide), plain .index (by decide),
    plain .wired (by decide), plain .entryLo0 (by decide), plain .entryLo1 (by decide), plain .pageMask (by decide),
    plain .config (by decide), plain .llAddr (by decide), plain .watchLo (by decide), plain .watchHi (by decide),
    plain .tagLo (by decide)⟩

end Sys2Proof.Machine
end

section

/-! The lookup tables under Map and Unmap (R225 to R227, R233): which addresses an entry reaches in the table of an access kind,
what their cells hold afterwards, and when two states map to the same one. -/
namespace Sys2Proof.Machine

variable {e : TlbEntry} {s t u : State} {kind : Access} {va : Word}

/-! The halves (R225) -/

theorem half_phys_toNat (e : TlbEntry) (odd : Bool) :
    (half e odd).phys.toNat = (if odd then e.pfn1 else e.pfn0).toNat * 4096 := by
  have := (if odd then e.pfn1 else e.pfn0).isLt
  simp only [half, BitVec.toNat_shiftLeft, BitVec.toNat_setWidth, Nat.shiftLeft_eq]
  omega

/-- Settles O30: the pair is `2 * halfPages e` pages from page `pairPage e` on, and they lie below page 2^20. -/
theorem halvesNeverWrap : Obligations.HalvesNeverWrap := by
  intro e size base
  have fits := pair_fits e
  have hsize : size = halfPages e * 4096 := rfl
  have hbase : base = pairPage e * 4096 := (Nat.mul_assoc _ 2 4096).symm
  have start := half_start_toNat e
  have stop := half_stop_toNat e
  simp only [Bool.forall_bool, firstPage, Bool.false_eq_true, if_true, if_false] at start stop
  exact ⟨by omega, by omega, by omega, by omega, by omega, half_phys_toNat e false, half_phys_toNat e true, rfl, rfl, rfl,
    rfl⟩

/-! The cells an entry reaches -/

/-- Map and Unmap write the half in the table of the access kind: the read table takes a populating half, the write table a dirty
one (R226, R227). -/
def writesTable (p : Params) (kind : Access) (r : HalfRange) : Bool := populates p r && (kind = .read || r.d)

/-- The address lies in a half that Map and Unmap write in the table of the access kind. -/
abbrev Reaches (p : Params) (kind : Access) (r : HalfRange) (va : Word) : Prop :=
  writesTable p kind r = true ∧ r.start.toNat ≤ va.toNat ∧ va.toNat ≤ r.stop.toNat

theorem lut_mapHalf (r : HalfRange) (kind : Access) (s : State) :
    (mapHalf r s).lut kind = if writesTable s.params kind r then fillPages r (s.lut kind) else s.lut kind := by
  cases hp : populates s.params r <;> cases kind <;> simp [mapHalf, writesTable, State.lut, hp]

theorem lut_unmapHalf (r : HalfRange) (kind : Access) (s : State) :
    (unmapHalf r s).lut kind = if writesTable s.params kind r then clearPages r (s.lut kind) else s.lut kind := by
  cases hp : populates s.params r <;> cases kind <;> simp [unmapHalf, writesTable, State.lut, hp]

theorem get_mapHalf (e : TlbEntry) (odd : Bool) (kind : Access) (va : Word) (s : State) :
    Table.get (pageOf va) ((mapHalf (half e odd) s).lut kind) =
      if Reaches s.params kind (half e odd) va then some (cellOf (half e odd) va)
      else Table.get (pageOf va) (s.lut kind) := by
  rw [lut_mapHalf, ite_and]
  split
  · exact get_fillPages e odd va _
  · rfl

theorem get_unmapHalf (e : TlbEntry) (odd : Bool) (kind : Access) (va : Word) (s : State) :
    Table.get (pageOf va) ((unmapHalf (half e odd) s).lut kind) =
      if Reaches s.params kind (half e odd) va then none else Table.get (pageOf va) (s.lut kind) := by
  rw [lut_unmapHalf, ite_and]
  split
  · exact get_clearPages e odd va _
  · rfl

/-- The even half ends before the odd half starts. -/
theorem halves_disjoint (e : TlbEntry) : (half e false).stop.toNat < (half e true).start.toNat := by
  have hpages : 1 ≤ halfPages e := Nat.le_add_left ..
  rw [half_start_toNat, half_stop_toNat]
  simp only [firstPage, Bool.false_eq_true, if_true, if_false]
  omega

/-- R226: the cell of an address Map reaches. -/
theorem get_mapEntry_of_reaches {odd : Bool} (h : Reaches s.params kind (half e odd) va) :
    Table.get (pageOf va) ((mapEntry e s).lut kind) = some (cellOf (half e odd) va) := by
  rw [mapEntry, get_mapHalf, mapHalf_params]
  cases odd
  · have disjoint := halves_disjoint e
    rw [if_neg fun hodd => by omega, get_mapHalf, if_pos h]
  · rw [if_pos h]

/-- R226: the cell of an address Map does not reach. -/
theorem get_mapEntry_of_not_reaches (h : ∀ odd, ¬Reaches s.params kind (half e odd) va) :
    Table.get (pageOf va) ((mapEntry e s).lut kind) = Table.get (pageOf va) (s.lut kind) := by
  rw [mapEntry, get_mapHalf, mapHalf_params, if_neg (h true), get_mapHalf, if_neg (h false)]

/-- R227: the cell of an address Unmap reaches, whatever it held. -/
theorem get_unmapEntry_of_reaches {odd : Bool} (h : Reaches s.params kind (half e odd) va) :
    Table.get (pageOf va) ((unmapEntry e s).lut kind) = none := by
  rw [unmapEntry, get_unmapHalf, unmapHalf_params]
  cases odd
  · rw [get_unmapHalf, if_pos h, ite_self]
  · rw [if_pos h]

/-- R227: the cell of an address Unmap does not reach. -/
theorem get_unmapEntry_of_not_reaches (h : ∀ odd, ¬Reaches s.params kind (half e odd) va) :
    Table.get (pageOf va) ((unmapEntry e s).lut kind) = Table.get (pageOf va) (s.lut kind) := by
  rw [unmapEntry, get_unmapHalf, unmapHalf_params, if_neg (h true), get_unmapHalf, if_neg (h false)]

/-! The rest of the state -/

/-- `t` with the lookup tables of `s`. -/
def State.withTablesOf (t s : State) : State := { t with lutR := s.lutR, lutW := s.lutW }

/-- `t` differs from `s` in the lookup tables, at most. -/
abbrev SameButTables (s t : State) : Prop := t.withTablesOf s = s

theorem SameButTables.trans (hst : SameButTables s t) (htu : SameButTables t u) : SameButTables s u :=
  (congrArg (State.withTablesOf · s) htu).trans hst

theorem SameButTables.symm (h : SameButTables s t) : SameButTables t s := (congrArg (State.withTablesOf · t) h).symm

theorem SameButTables.params_eq (h : SameButTables s t) : t.params = s.params := (congrArg State.params h :)

theorem SameButTables.eq_of_lut (hframe : SameButTables s t) (h : ∀ kind, t.lut kind = s.lut kind) : t = s := by
  have hR : t.lutR = s.lutR := h .read
  have hW : t.lutW = s.lutW := h .write
  rw [SameButTables, State.withTablesOf, ← hR, ← hW] at hframe
  exact hframe

theorem sameButTables_mapEntry (e : TlbEntry) (s : State) : SameButTables s (mapEntry e s) := by
  have mapHalf (r : HalfRange) (s : State) : SameButTables s (mapHalf r s) := by
    unfold mapHalf; split <;> rfl
  exact (mapHalf _ s).trans (mapHalf _ _)

theorem sameButTables_unmapEntry (e : TlbEntry) (s : State) : SameButTables s (unmapEntry e s) := by
  have unmapHalf (r : HalfRange) (s : State) : SameButTables s (unmapHalf r s) := by
    unfold unmapHalf; split <;> rfl
  exact (unmapHalf _ s).trans (unmapHalf _ _)

/-! Tables as equal data (R233) -/

/-- Canonical tables with the same cell for every address are the same data. -/
theorem Lut.ext_of_wf {l m : List (Nat × BitVec 20)} (hl : Lut.wf l) (hm : Lut.wf m)
    (h : ∀ va, Table.get (pageOf va) l = Table.get (pageOf va) m) : l = m := by
  refine Table.ext_of_sorted hl.1 hm.1 fun page => ?_
  by_cases hpage : page < 1048576
  · have hva : pageOf (BitVec.ofNat 32 (page * 4096)) = page := by
      rw [pageOf_eq, BitVec.toNat_ofNat]
      omega
    exact hva ▸ h _
  · have absent {l : List (Nat × BitVec 20)} (hl : Lut.wf l) : Table.get page l = none :=
      Option.eq_none_iff_forall_ne_some.2 fun ppn hppn => hpage (hl.2 _ (Table.mem_of_get hppn))
    rw [absent hl, absent hm]

theorem wf_lut_mapEntry (e : TlbEntry) (h : Lut.wf (s.lut kind)) : Lut.wf ((mapEntry e s).lut kind) := by
  have mapHalf (r : HalfRange) {s : State} (h : Lut.wf (s.lut kind)) : Lut.wf ((mapHalf r s).lut kind) := by
    rw [lut_mapHalf]
    split
    · exact Lut.wf_fillPages r h
    · exact h
  exact mapHalf _ (mapHalf _ h)

theorem wf_lut_unmapEntry (e : TlbEntry) (h : Lut.wf (s.lut kind)) : Lut.wf ((unmapEntry e s).lut kind) := by
  have unmapHalf (r : HalfRange) {s : State} (h : Lut.wf (s.lut kind)) : Lut.wf ((unmapHalf r s).lut kind) := by
    rw [lut_unmapHalf]
    split
    · exact Lut.wf_clearPages r h
    · exact h
  exact unmapHalf _ (unmapHalf _ h)

/-- Map forgets what the cells it reaches held before. -/
theorem mapEntry_eq_of_agree (hframe : SameButTables s t) (hs : ∀ kind, Lut.wf (s.lut kind))
    (ht : ∀ kind, Lut.wf (t.lut kind))
    (h : ∀ kind va, (∀ odd, ¬Reaches s.params kind (half e odd) va) →
      Table.get (pageOf va) (t.lut kind) = Table.get (pageOf va) (s.lut kind)) :
    mapEntry e t = mapEntry e s := by
  have hparams := hframe.params_eq
  have hmapped : SameButTables (mapEntry e s) (mapEntry e t) :=
    (sameButTables_mapEntry e s).symm.trans (hframe.trans (sameButTables_mapEntry e t))
  refine hmapped.eq_of_lut fun kind => Lut.ext_of_wf (wf_lut_mapEntry e (ht kind)) (wf_lut_mapEntry e (hs kind)) fun va => ?_
  by_cases hreach : ∃ odd, Reaches s.params kind (half e odd) va
  · obtain ⟨odd, hodd⟩ := hreach
    rw [get_mapEntry_of_reaches hodd, get_mapEntry_of_reaches (hparams ▸ hodd)]
  · have hnot := not_exists.1 hreach
    rw [get_mapEntry_of_not_reaches hnot, get_mapEntry_of_not_reaches (hparams ▸ hnot), h kind va hnot]

/-! The obligations -/

theorem populatable_iff (p : Params) (r : HalfRange) : populatable p r = true ↔ r.start.toNat < r.stop.toNat ∧
    ¬(p.kernelHole.lo ≤ r.start.toNat ∧ r.stop.toNat < p.kernelHole.hi) ∧ r.phys.toNat < p.physCeiling := by
  simp [populatable, BitVec.lt_def, and_assoc, imp_iff_not_or]

theorem reaches_read_iff (p : Params) (r : HalfRange) (va : Word) :
    Reaches p .read r va ↔
      r.v = true ∧ populatable p r = true ∧ r.start.toNat ≤ va.toNat ∧ va.toNat ≤ r.stop.toNat := by
  simp [Reaches, writesTable, populates, and_assoc]

theorem reaches_write_iff (p : Params) (r : HalfRange) (va : Word) :
    Reaches p .write r va ↔
      (r.v = true ∧ populatable p r = true ∧ r.start.toNat ≤ va.toNat ∧ va.toNat ≤ r.stop.toNat) ∧ r.d = true := by
  simp [Reaches, writesTable, populates, and_assoc, and_comm, and_left_comm]

/-- Settles O31: the cells Map reaches hold what the offset in the half gives, and the others are kept. -/
theorem mapEntersExactlyTheValidHalves : Obligations.MapEntersExactlyTheValidHalves := by
  intro e s va covers
  refine ⟨populatable_iff s.params, fun odd h => ⟨?_, fun hd => ?_⟩, fun h => ?_, fun h => ?_, sameButTables_mapEntry e s⟩
  · exact get_mapEntry_of_reaches (kind := .read) ((reaches_read_iff ..).2 h)
  · exact get_mapEntry_of_reaches (kind := .write) ((reaches_write_iff ..).2 ⟨h, hd⟩)
  · exact get_mapEntry_of_not_reaches (kind := .read) fun odd => mt (reaches_read_iff ..).1 (h odd)
  · exact get_mapEntry_of_not_reaches (kind := .write) fun odd => mt (reaches_write_iff ..).1 (h odd)

/-- Settles O32: the cells Unmap reaches are invalid, and the others are kept. -/
theorem unmapClearsExactlyWhatMapEntered : Obligations.UnmapClearsExactlyWhatMapEntered := by
  intro e s va covers
  refine ⟨fun odd h => ⟨?_, fun hd => ?_⟩, fun h => ?_, fun h => ?_, sameButTables_unmapEntry e s⟩
  · exact get_unmapEntry_of_reaches (kind := .read) ((reaches_read_iff ..).2 h)
  · exact get_unmapEntry_of_reaches (kind := .write) ((reaches_write_iff ..).2 ⟨h, hd⟩)
  · exact get_unmapEntry_of_not_reaches (kind := .read) fun odd => mt (reaches_read_iff ..).1 (h odd)
  · exact get_unmapEntry_of_not_reaches (kind := .write) fun odd => mt (reaches_write_iff ..).1 (h odd)

/-- Settles O33: neither a Map nor an Unmap of the entry changes a cell its Map does not reach. -/
theorem unmapThenMapRestoresTheTables : Obligations.UnmapThenMapRestoresTheTables := by
  intro e s hR hW
  have hwf (kind : Access) : Lut.wf (s.lut kind) := by
    cases kind
    · exact hR
    · exact hW
  constructor
  · exact mapEntry_eq_of_agree (sameButTables_mapEntry e s) hwf (fun kind => wf_lut_mapEntry e (hwf kind))
      fun _ _ => get_mapEntry_of_not_reaches
  · intro hmapped
    have hunmap : mapEntry e (unmapEntry e s) = mapEntry e s :=
      mapEntry_eq_of_agree (sameButTables_unmapEntry e s) hwf (fun kind => wf_lut_unmapEntry e (hwf kind))
        fun _ _ => get_unmapEntry_of_not_reaches
    exact hunmap.trans hmapped

end Sys2Proof.Machine
end

section

/-! TLBR, TLBWI, TLBWR and TLBP (R220 to R224, R230 to R232): the entry Index names, the registers an entry fills, the entry a
probe finds, and what the four instructions leave unchanged. -/
namespace Sys2Proof.Machine

variable {s t u : State} {i : Instr}

/-! The instructions -/

theorem exec_tlbr_of_usable (h : cp0Usable s.cp0.status = true) : exec .tlbr s = .next (readIndexed s).advance :=
  if_pos h

theorem exec_tlbwi_of_usable (h : cp0Usable s.cp0.status = true) : exec .tlbwi s = .next (writeIndexed s).advance :=
  if_pos h

theorem exec_tlbwr_of_usable (h : cp0Usable s.cp0.status = true) : exec .tlbwr s = .next (writeRandom s).advance :=
  if_pos h

theorem exec_tlbp_of_usable (h : cp0Usable s.cp0.status = true) : exec .tlbp s = .next (probe s).advance :=
  if_pos h

/-! The entry Index names (R221) -/

theorem indexedEntry_of_lt {index : Word} (h : (index &&& 0x3F).toNat < 32) :
    indexedEntry index = some ⟨(index &&& 0x3F).toNat, h⟩ := by
  simp only [toNat_and_3F] at h ⊢
  exact dif_pos h

theorem indexedEntry_of_le {index : Word} (h : 32 ≤ (index &&& 0x3F).toNat) : indexedEntry index = none := by
  rw [toNat_and_3F] at h
  exact dif_neg (Nat.not_lt.2 h)

theorem readIndexed_of_le (h : 32 ≤ (s.cp0.index &&& 0x3F).toNat) : readIndexed s = s := by
  rw [readIndexed, indexedEntry_of_le h]

theorem readIndexed_of_lt (h : (s.cp0.index &&& 0x3F).toNat < 32) :
    readIndexed s = { s with cp0 := regsFromEntry s.tlb[(s.cp0.index &&& 0x3F).toNat] s.cp0 } := by
  rw [readIndexed, indexedEntry_of_lt h]
  rfl

theorem writeIndexed_of_le (h : 32 ≤ (s.cp0.index &&& 0x3F).toNat) : writeIndexed s = s := by
  rw [writeIndexed, indexedEntry_of_le h]

theorem writeIndexed_of_lt (h : (s.cp0.index &&& 0x3F).toNat < 32) :
    writeIndexed s = tlbWrite ⟨(s.cp0.index &&& 0x3F).toNat, h⟩ s := by
  rw [writeIndexed, indexedEntry_of_lt h]

/-! TLBWI and TLBWR (R221 to R224) -/

@[simp] theorem tlbWrite_tlb (i : Fin 32) (s : State) : (tlbWrite i s).tlb = s.tlb.set i (entryFromRegs s.cp0) := by
  simp [tlbWrite]

/-- Settles O34: the indexed entry is written with `entryFromRegs`. -/
theorem tlbwiWritesTheIndexedEntry : Obligations.TlbwiWritesTheIndexedEntry := by
  intro s husable i
  refine ⟨fun hi => ⟨?_, ?_⟩, fun hi =>
    ⟨entryFromRegs s.cp0, ?_, rfl, rfl, rfl, rfl, rfl, rfl, rfl, rfl, rfl, rfl, rfl, rfl⟩⟩
  · rw [exec_tlbwi_of_usable husable, writeIndexed_of_le hi]
  · rw [exec_tlbr_of_usable husable, readIndexed_of_le hi]
  · rw [exec_tlbwi_of_usable husable, writeIndexed_of_lt hi, tlbWrite, unmapEntry_tlb]
    rfl

/-- Settles O35: the entry is the draw, which is at least min(Wired, 31). -/
theorem tlbwrWritesAnEntryAboveWired : Obligations.TlbwrWritesAnEntryAboveWired := by
  intro s husable
  refine ⟨(drawRandom s).2, ?_, exec_tlbwr_of_usable husable, fun t ht j hj => ?_⟩
  · rw [toNat_and_3F]
    exact randomLow_le_drawRandom s
  · cases (exec_tlbwr_of_usable husable).symm.trans ht
    rw [advance_tlb, writeRandom]
    simp only [tlbWrite_tlb, drawRandom_tlb]
    exact Vector.getElem_set_ne _ _ fun hval => hj (Fin.ext hval.symm)

/-! TLBR (R231) -/

theorem entryLoWord_eq_append (pfn : BitVec 20) (c : BitVec 3) (d v g : Bool) :
    entryLoWord pfn c d v g = 0#6 ++ pfn ++ c ++ BitVec.ofBool d ++ BitVec.ofBool v ++ BitVec.ofBool g := by
  rw [← BitVec.setWidth_eq (0#6 ++ pfn ++ c ++ BitVec.ofBool d ++ BitVec.ofBool v ++ BitVec.ofBool g)]
  simp only [BitVec.setWidth_append_eq_shiftLeft_setWidth_or, BitVec.shiftLeft_or_distrib, ← BitVec.shiftLeft_add]
  simp [entryLoWord]

/-- The fields of an entry lie side by side in the registers it fills. -/
theorem regsFromEntry_eq_append (e : TlbEntry) (c : Cp0) :
    regsFromEntry e c =
      { c with
        pageMask := 0#7 ++ e.mask ++ 0#13
        entryHi := e.vpn2 ++ 0#5 ++ e.asid
        entryLo0 := 0#6 ++ e.pfn0 ++ e.c0 ++ BitVec.ofBool e.d0 ++ BitVec.ofBool e.v0 ++ BitVec.ofBool e.g
        entryLo1 := 0#6 ++ e.pfn1 ++ e.c1 ++ BitVec.ofBool e.d1 ++ BitVec.ofBool e.v1 ++ BitVec.ofBool e.g } := by
  have pageMask : e.mask.setWidth 32 <<< 13 = 0#7 ++ e.mask ++ 0#13 := by
    rw [← BitVec.setWidth_eq (0#7 ++ e.mask ++ 0#13)]
    simp only [BitVec.setWidth_append_eq_shiftLeft_setWidth_or]
    simp
  have entryHi : (e.vpn2.setWidth 32 <<< 13) ||| e.asid.setWidth 32 = e.vpn2 ++ 0#5 ++ e.asid := by
    rw [← BitVec.setWidth_eq (e.vpn2 ++ 0#5 ++ e.asid)]
    simp only [BitVec.setWidth_append_eq_shiftLeft_setWidth_or]
    simp [← BitVec.shiftLeft_add]
  rw [regsFromEntry, pageMask, entryHi, entryLoWord_eq_append, entryLoWord_eq_append]

/-- Settles O36: the four registers hold the indexed entry's fields. -/
theorem tlbrReadsTheIndexedEntry : Obligations.TlbrReadsTheIndexedEntry := by
  intro s husable i
  refine ⟨fun hi => ?_, fun hi => ?_⟩
  · rw [exec_tlbr_of_usable husable, readIndexed_of_le hi]
  · rw [exec_tlbr_of_usable husable, readIndexed_of_lt hi, regsFromEntry_eq_append]

/-! TLBP (R232) -/

theorem probeMatches_iff (entryHi : Word) (e : TlbEntry) :
    probeMatches entryHi e = true ↔
      e.vpn2 &&& ~~~(e.mask.setWidth 19) = entryHi.extractLsb' 13 19 &&& ~~~(e.mask.setWidth 19) ∧
        (e.g = true ∨ e.asid = entryHi.extractLsb' 0 8) := by
  simp [probeMatches]

theorem probeIndex_of_lowest {c : Cp0} {tlb : Vector TlbEntry 32} {i : Fin 32} (h : probeMatches c.entryHi tlb[i] = true)
    (hlow : ∀ j < i, ¬probeMatches c.entryHi tlb[j] = true) : probeIndex c tlb = BitVec.ofNat 32 i := by
  have found : tlb.toList.findIdx? (probeMatches c.entryHi) = some i.val :=
    List.findIdx?_eq_some_iff_getElem.2 ⟨by simp, h, fun j hj => hlow ⟨j, hj.trans i.isLt⟩ hj⟩
  rw [probeIndex, found]

theorem probeIndex_of_none {c : Cp0} {tlb : Vector TlbEntry 32} (h : ∀ i : Fin 32, ¬probeMatches c.entryHi tlb[i] = true) :
    probeIndex c tlb = c.index ||| 0x80000000 := by
  have missed : tlb.toList.findIdx? (probeMatches c.entryHi) = none := by
    rw [List.findIdx?_eq_none_iff]
    intro e he
    obtain ⟨i, hi, rfl⟩ := Vector.getElem_of_mem (Vector.mem_toList_iff.1 he)
    exact Bool.not_eq_true _ ▸ h ⟨i, hi⟩
  rw [probeIndex, missed]
  rfl

/-- Settles O37: a probe takes the first entry that matches, or sets P. -/
theorem tlbpFindsTheLowestMatch : Obligations.TlbpFindsTheLowestMatch := by
  intro s husable hit
  have hit_iff (i : Fin 32) : probeMatches s.cp0.entryHi s.tlb[i] = true ↔ hit i := probeMatches_iff _ _
  refine ⟨fun i hi hlow => ?_, fun hnone => ?_⟩
  · rw [exec_tlbp_of_usable husable, probe, probeIndex_of_lowest ((hit_iff i).2 hi) fun j hj => mt (hit_iff j).1 (hlow j hj)]
  · rw [exec_tlbp_of_usable husable, probe, probeIndex_of_none fun i => mt (hit_iff i).1 (hnone i)]

/-! What the four instructions leave (R220) -/

/-- What no TLB instruction changes. -/
structure SameOutsideTlbAndCp0 (s t : State) : Prop where
  gprs : sameGprs s t
  fpu : sameFpu s t
  memory : sameMemory s t
  xs : t.xs = s.xs
  rest : sameRest s t

namespace SameOutsideTlbAndCp0

theorem refl (s : State) : SameOutsideTlbAndCp0 s s :=
  ⟨⟨fun _ => rfl, rfl, rfl⟩, ⟨rfl, rfl⟩, fun _ => rfl, rfl, ⟨rfl, rfl, rfl, rfl, rfl, rfl⟩⟩

theorem advance (h : SameOutsideTlbAndCp0 s u) : SameOutsideTlbAndCp0 s u.advance := by
  unfold State.advance
  split <;> exact { h with }

theorem tlbWrite (i : Fin 32) (s : State) : SameOutsideTlbAndCp0 s (tlbWrite i s) where
  gprs := ⟨fun r => by simp [State.readX], tlbWrite_hi i s, tlbWrite_lo i s⟩
  fpu := ⟨tlbWrite_fpr i s, tlbWrite_fcr31 i s⟩
  memory a := by rw [tlbWrite_mem]
  xs := tlbWrite_xs i s
  rest := by simp [sameRest]

end SameOutsideTlbAndCp0

theorem SameTimer.refl (s : State) : SameTimer s s := ⟨rfl, rfl, rfl, rfl, rfl, rfl⟩

theorem SameTimer.tlbWrite (i : Fin 32) (s : State) : SameTimer s (tlbWrite i s) where
  queue := tlbWrite_queue i s
  faults := tlbWrite_faults i s
  slot := tlbWrite_inDelaySlot i s
  time := by simp [sameTime]

/-- A TLB instruction is an effect on the TLB, the tables, the held code and CP0, and the move to the next instruction. -/
theorem exec_tlb_of_usable (hi : i = .tlbr ∨ i = .tlbwi ∨ i = .tlbwr ∨ i = .tlbp) (h : cp0Usable s.cp0.status = true) :
    ∃ u, exec i s = .next u.advance ∧ SameOutsideTlbAndCp0 s u ∧ SameTimer s u := by
  obtain rfl | rfl | rfl | rfl := hi
  · refine ⟨_, exec_tlbr_of_usable h, ?_⟩
    unfold readIndexed
    split
    · exact ⟨{ SameOutsideTlbAndCp0.refl s with }, { SameTimer.refl s with }⟩
    · exact ⟨.refl s, .refl s⟩
  · refine ⟨_, exec_tlbwi_of_usable h, ?_⟩
    unfold writeIndexed
    split
    · exact ⟨.tlbWrite _ s, .tlbWrite _ s⟩
    · exact ⟨.refl s, .refl s⟩
  · refine ⟨_, exec_tlbwr_of_usable h, ?_⟩
    exact ⟨{ SameOutsideTlbAndCp0.tlbWrite _ (drawRandom s).1 with }, { SameTimer.tlbWrite _ (drawRandom s).1 with }⟩
  · exact ⟨_, exec_tlbp_of_usable h, { SameOutsideTlbAndCp0.refl s with }, { SameTimer.refl s with }⟩

/-- TLBR and TLBP reach CP0 alone (R231, R232). -/
theorem exec_tlbRead_of_usable (hi : i = .tlbr ∨ i = .tlbp) (h : cp0Usable s.cp0.status = true) :
    ∃ c, exec i s = .next { s with cp0 := c }.advance := by
  obtain rfl | rfl := hi
  · have hread : readIndexed s = { s with cp0 := (readIndexed s).cp0 } := by unfold readIndexed; split <;> rfl
    exact ⟨_, hread ▸ exec_tlbr_of_usable h⟩
  · exact ⟨_, exec_tlbp_of_usable h⟩

theorem readIndexed_cp0 (s : State) :
    (readIndexed s).cp0 =
      { s.cp0 with
        pageMask := (readIndexed s).cp0.pageMask, entryHi := (readIndexed s).cp0.entryHi
        entryLo0 := (readIndexed s).cp0.entryLo0, entryLo1 := (readIndexed s).cp0.entryLo1 } := by
  unfold readIndexed
  split <;> rfl

theorem writeIndexed_cp0 (s : State) : (writeIndexed s).cp0 = s.cp0 := by
  unfold writeIndexed
  split
  · exact tlbWrite_cp0 _ s
  · rfl

theorem writeRandom_cp0 (s : State) : (writeRandom s).cp0 = s.cp0 := tlbWrite_cp0 _ _

theorem sameCp0ButCount_advance (h : u.cp0 = s.cp0) : sameCp0ButCount s u.advance :=
  (advance_cp0 u).trans (by rw [h])

/-- Settles O38: the effect reaches the TLB, the tables and the held code, or CP0, and moving on reaches Count, block time and the
pc. -/
theorem frameOfTlbInstructions : Obligations.FrameOfTlbInstructions := by
  intro s t i hi husable h
  obtain ⟨u, hu, kept, timer⟩ := exec_tlb_of_usable hi husable
  obtain rfl : u.advance = t := Host.Outcome.next.inj (hu.symm.trans h)
  obtain ⟨gprs, fpu, memory, xs, rest⟩ := kept.advance
  have queueAndStack : sameQueueAndStack s u.advance :=
    ⟨(advance_queue u).trans timer.queue, xs, (advance_faults u).trans timer.faults⟩
  refine ⟨gprs, fpu, memory, queueAndStack, rest, fun hslot => sameTime_advance (timer.slot.trans hslot) timer.time,
    fun hread => ?tables, fun hwrite => ?cp0, fun hprobe => ?index, fun hread => ?filled⟩
  case tables =>
    obtain ⟨c, hc⟩ := exec_tlbRead_of_usable hread husable
    rw [Host.Outcome.next.inj (hu.symm.trans hc)]
    exact ⟨⟨advance_tlb _, advance_lutR _, advance_lutW _⟩, advance_heldCode _⟩
  case cp0 =>
    obtain rfl | rfl := hwrite
    · rw [Host.Outcome.next.inj (hu.symm.trans (exec_tlbwi_of_usable husable))]
      exact sameCp0ButCount_advance (writeIndexed_cp0 s)
    · rw [Host.Outcome.next.inj (hu.symm.trans (exec_tlbwr_of_usable husable))]
      exact sameCp0ButCount_advance (writeRandom_cp0 s)
  case index =>
    subst hprobe
    rw [Host.Outcome.next.inj (hu.symm.trans (exec_tlbp_of_usable husable)), advance_cp0]
    rfl
  case filled =>
    subst hread
    rw [Host.Outcome.next.inj (hu.symm.trans (exec_tlbr_of_usable husable)), advance_cp0, readIndexed_cp0]

end Sys2Proof.Machine
end

section

/-! The FPU bank (R261 to R268): the slot and half a register number addresses in each view, and the place pack and unpack give
each half of a register. -/
namespace Sys2Proof.Machine

variable {s : State}

/-! Slots and halves (R264) -/

theorem slotOf_toNat (fr : Bool) (i : RegNum) : (slotOf fr i).toNat = if fr then i.toNat else i.toNat / 2 := by
  cases fr
  · exact Nat.shiftRight_eq_div_pow i.toNat 1
  · rfl

theorem halfOf_false (i : RegNum) : halfOf false i = decide (i.toNat % 2 = 1) :=
  Nat.testBit_zero i.toNat

theorem slotHalf_parity (v : Dword) (n : Nat) : slotHalf v (decide (n % 2 = 1)) = v.extractLsb' (32 * (n % 2)) 32 := by
  obtain h | h := Nat.mod_two_eq_zero_or_one n <;> rw [h] <;> rfl

theorem slotHalf_append (hi lo : Word) (high : Bool) : slotHalf (hi ++ lo) high = if high then hi else lo := by
  cases high
  · exact BitVec.extractLsb'_append_eq_right
  · exact BitVec.extractLsb'_append_eq_left

/-- A slot is its two halves. -/
theorem slotHalf_append_slotHalf (v : Dword) : slotHalf v true ++ slotHalf v false = v :=
  (BitVec.extractLsb'_append_extractLsb'_eq_extractLsb' rfl).trans BitVec.extractLsb'_eq_self

theorem slotHalf_ext {v w : Dword} (h : ∀ high, slotHalf v high = slotHalf w high) : v = w := by
  rw [← slotHalf_append_slotHalf v, h, h, slotHalf_append_slotHalf]

/-- A bank is the halves of its slots. -/
theorem bank_ext {f g : Vector Dword 32} (h : ∀ (k : Fin 32) high, slotHalf f[k] high = slotHalf g[k] high) : f = g :=
  Vector.ext fun n hn => slotHalf_ext (h ⟨n, hn⟩)

/-! The two views (R264) -/

theorem readS_of_fr (h : s.fr = true) (i : RegNum) : s.readS i = slotHalf s.fpr[i.toNat] false := by
  simp only [State.readS, h]
  rfl

theorem readS_of_not_fr (h : s.fr = false) (i : RegNum) :
    s.readS i = slotHalf s.fpr[i.toNat / 2] (decide (i.toNat % 2 = 1)) := by
  simp only [State.readS, h, halfOf_false, slotOf_toNat]
  rfl

/-- Settles O51: a register's slot and half for each value of FR. -/
theorem viewsOfTheFpuBank : Obligations.ViewsOfTheFpuBank := by
  intro s i v w
  refine ⟨fun hfr => ?_, fun hfr => ?_⟩ <;> replace hfr : s.fr = _ := hfr
  · refine ⟨readS_of_fr hfr i, ?_, ?_, ?_⟩ <;> simp only [State.readD, State.writeS, State.writeD, hfr] <;> rfl
  · refine ⟨(readS_of_not_fr hfr i).trans (slotHalf_parity _ _), ?_, ?_, ?_⟩ <;>
      simp [State.readD, State.writeS, State.writeD, hfr, slotOf_toNat, halfOf_false, putSlotHalf]

/-! The reshuffles (R266 to R268) -/

/-- The slot of the packed bank that holds a half of register `i`: a visible one for the low half, a shadow one for the high. -/
def packedSlot (i : Fin 32) (high : Bool) : Fin 32 := ⟨if high then 16 + i.val / 2 else i.val / 2, by split <;> omega⟩

/-- The half of that slot: the high one for an odd register. -/
def packedHalf (i : Fin 32) : Bool := decide (i.val % 2 = 1)

/-- Every half of the packed bank is the place of a register's half. -/
theorem exists_packed (k : Fin 32) (odd : Bool) : ∃ i high, packedSlot i high = k ∧ packedHalf i = odd := by
  have hodd := odd.toNat_lt
  refine ⟨⟨2 * (k.val % 16) + odd.toNat, by omega⟩, decide (16 ≤ k.val), Fin.ext ?_, ?_⟩
  · simp only [packedSlot, decide_eq_true_eq]
    split <;> omega
  · cases odd <;> simp [packedHalf]

variable (f : Vector Dword 32) (i : Fin 32) (high : Bool)

/-- R266: a packed slot holds the halves of an even register and the next odd one. -/
theorem packSlots_packedSlot :
    (packSlots f)[packedSlot i high] =
      slotHalf f[2 * (i.val / 2) + 1] high ++ slotHalf f[2 * (i.val / 2)] high := by
  have hval : (packedSlot i high).val = 16 * high.toNat + i.val / 2 := by cases high <;> simp [packedSlot]
  have hhigh := high.toNat_lt
  have hrow : (packedSlot i high).val < 16 ↔ high = false := by rw [← Bool.toNat_eq_zero]; omega
  have heven : 2 * (packedSlot i high).val % 32 = 2 * (i.val / 2) := by omega
  have hodd : (2 * (packedSlot i high).val + 1) % 32 = 2 * (i.val / 2) + 1 := by omega
  simp only [packSlots, Fin.getElem_fin, Vector.getElem_ofFn, heven, hodd, hrow]
  cases high <;> rfl

/-- R266: pack puts each half of a register at its place. -/
theorem slotHalf_packSlots : slotHalf (packSlots f)[packedSlot i high] (packedHalf i) = slotHalf f[i] high := by
  rw [packSlots_packedSlot, slotHalf_append, packedHalf]
  obtain h | h := Nat.mod_two_eq_zero_or_one i.val
  · have hi : 2 * (i.val / 2) = i.val := by omega
    simp [h, hi]
  · have hi : 2 * (i.val / 2) + 1 = i.val := by omega
    simp [h, hi]

/-- R267: unpack takes each half of a register from its place. -/
theorem slotHalf_unpackSlots : slotHalf (unpackSlots f)[i] high = slotHalf f[packedSlot i high] (packedHalf i) := by
  simp only [unpackSlots, Fin.getElem_fin, Vector.getElem_ofFn, slotHalf_append]
  cases high <;> rfl

/-- Settles O52: pack and unpack keep the half of each place, and the 32-bit view reads the place of a low half. -/
theorem reshuffleMovesEachHalf : Obligations.ReshuffleMovesEachHalf := by
  intro f i
  refine ⟨(slotHalf_parity _ _).symm.trans (slotHalf_packSlots f i false),
    (slotHalf_parity _ _).symm.trans (slotHalf_packSlots f i true), ?_, ?_⟩
  · rw [← slotHalf_append_slotHalf (unpackSlots f)[i], slotHalf_unpackSlots, slotHalf_unpackSlots, ← slotHalf_parity,
      ← slotHalf_parity]
    rfl
  · rintro s rfl r
    refine ⟨fun hs t ht hpack => ?_, fun hs t ht hunpack => ?_⟩
    · rw [readS_of_fr hs, readS_of_not_fr ht, hpack]
      exact slotHalf_packSlots s.fpr r.toFin false
    · rw [readS_of_not_fr hs, readS_of_fr ht, hunpack]
      exact slotHalf_unpackSlots s.fpr r.toFin false

/-- Settles O53: the place of a half is read back where it was written, and every half has one place. -/
theorem reshufflesAreInverse : Obligations.ReshufflesAreInverse := by
  intro f
  refine ⟨bank_ext fun i high => ?_, bank_ext fun k odd => ?_⟩
  · rw [slotHalf_unpackSlots, slotHalf_packSlots]
  · obtain ⟨i, high, rfl, rfl⟩ := exists_packed k odd
    rw [slotHalf_packSlots, slotHalf_unpackSlots]

end Sys2Proof.Machine
end

section

/-! The COP1 instructions (R262, R270 to R275, R280, R281): each tests usability first; what follows in a move, and what a write
of the FPU leaves. -/
namespace Sys2Proof.Machine

variable {s : State} {rt fs : RegNum} {offset : Int} {i : Instr}

/-! Usability (R262) -/

/-- The ten COP1 instructions, the moves first. -/
def cop1Instrs (rt fs : RegNum) (offset : Int) : List Instr :=
  [.mfc1 rt fs, .mtc1 rt fs, .dmfc1 rt fs, .dmtc1 rt fs, .cfc1 rt fs, .ctc1 rt fs, .lwc1 rt offset fs,
    .ldc1 rt offset fs, .swc1 rt offset fs, .sdc1 rt offset fs]

theorem exec_cop1_of_unusable (hi : i ∈ cop1Instrs rt fs offset) (h : s.cp0.status.getLsbD 29 = false) :
    exec i s = .next (enter (.copUnusable 1) s) := by
  simp only [cop1Instrs, List.mem_cons, List.not_mem_nil, or_false] at hi
  obtain rfl | rfl | rfl | rfl | rfl | rfl | rfl | rfl | rfl | rfl := hi <;> exact if_neg (ne_true_of_eq_false h)

/-- Settles O28: each COP1 instruction is the usability test before anything else. -/
theorem unusableCop1IsTakenFirst : Obligations.UnusableCop1IsTakenFirst := by
  refine ⟨fun s rt r offset h o ho => ⟨?_, enter_copUnusable_ce 1 s⟩, fun s rest => requireCp1_of_usable⟩
  obtain ⟨i, hi, rfl⟩ : ∃ i ∈ cop1Instrs rt r offset, exec i s = o := List.mem_map.1 ho
  exact exec_cop1_of_unusable hi h

/-! The register moves (R270 to R275) -/

theorem moveFromControl_of_unnamed (hzero : fs ≠ 0) (hlast : fs ≠ 31) : moveFromControl rt fs s = s := by
  rw [moveFromControl, controlRead, if_neg hzero, if_neg hlast]

theorem moveToControl_of_ne (h : fs ≠ 31) : moveToControl rt fs s = s :=
  if_neg h

section
variable (h : s.cp0.status.getLsbD 29 = true)
include h

theorem exec_mtc1_of_usable : exec (.mtc1 rt fs) s = .next (s.writeS fs (low32 (s.readX rt))).advance := if_pos h

theorem exec_dmtc1_of_usable : exec (.dmtc1 rt fs) s = .next (s.writeD fs (s.readX rt)).advance := if_pos h

theorem exec_cfc1_of_usable : exec (.cfc1 rt fs) s = .next (moveFromControl rt fs s).advance := if_pos h

theorem exec_ctc1_of_usable : exec (.ctc1 rt fs) s = .next (moveToControl rt fs s).advance := if_pos h

end

/-- Settles O54: past the usability test each move is its one transfer. -/
theorem cop1MovesComplete : Obligations.Cop1MovesComplete := by
  refine ⟨fun s rt fs h i hi => exec_cop1_of_unusable (offset := 0) (List.mem_of_mem_take (i := 6) hi) h,
    fun s rt fs h => ⟨if_pos h, exec_mtc1_of_usable h, if_pos h, exec_dmtc1_of_usable h, exec_cfc1_of_usable h,
      exec_cfc1_of_usable h, fun hzero hlast => ?_, exec_ctc1_of_usable h, fun hlast => ?_⟩⟩
  · rw [exec_cfc1_of_usable h, moveFromControl_of_unnamed hzero hlast]
  · rw [exec_ctc1_of_usable h, moveToControl_of_ne hlast]

/-! What a write of the FPU leaves (R260) -/

/-- The state with another bank and another FCR31. -/
def State.withFpu (s : State) (fpr : Vector Dword 32) (fcr31 : Word) : State := { s with fpr, fcr31 }

/-- A write of the bank through either view: a state with another value in the addressed slot. -/
theorem exec_bankWrite (hcu : s.cp0.status.getLsbD 29 = true)
    (hi : i = .mtc1 rt fs ∨ i = .dmtc1 rt fs ∨ ∃ pa, translateAddress (s.effectiveAddress offset rt) .read s = .hit pa ∧
      ((i = .lwc1 fs offset rt ∧ wordAligned (s.effectiveAddress offset rt) = true ∧
          inDeviceWindow s.params pa 4 = false) ∨
        (i = .ldc1 fs offset rt ∧ dwordAligned (s.effectiveAddress offset rt) = true ∧
          inDeviceWindow s.params pa 8 = false))) :
    ∃ v, exec i s = .next (s.withFpu (s.fpr.set (slotOf s.fr fs).toNat v) s.fcr31).advance := by
  obtain rfl | rfl | ⟨pa, hhit, ⟨rfl, haligned, hplain⟩ | ⟨rfl, haligned, hplain⟩⟩ := hi
  · exact ⟨_, exec_mtc1_of_usable hcu⟩
  · exact ⟨_, exec_dmtc1_of_usable hcu⟩
  · exact ⟨_, (loadsComplete s fs rt offset pa hcu hhit).1 ((wordAligned_iff _).1 haligned) hplain⟩
  · exact ⟨_, (loadsComplete s fs rt offset pa hcu hhit).2 ((dwordAligned_iff _).1 haligned) hplain⟩

/-- R275: CTC1 leaves the bank. -/
theorem exec_ctc1_eq_withFpu (hcu : s.cp0.status.getLsbD 29 = true) :
    ∃ c, exec (.ctc1 rt fs) s = .next (s.withFpu s.fpr c).advance := by
  obtain rfl | hfs := eq_or_ne fs 31
  · exact ⟨_, exec_ctc1_of_usable hcu⟩
  · refine ⟨s.fcr31, ?_⟩
    rw [exec_ctc1_of_usable hcu, moveToControl_of_ne hfs]
    rfl

/-- Settles O55: each instruction writes one slot of the bank or FCR31, and moving on reaches Count, block time and the pc. -/
theorem frameOfFpuWrites : Obligations.FrameOfFpuWrites := by
  intro s t rt r offset i hcu hi h
  have effect : ∃ f c, exec i s = .next (s.withFpu f c).advance ∧ (i = .ctc1 r rt → f = s.fpr) ∧
      (i ≠ .ctc1 r rt → c = s.fcr31) ∧ ∀ k : Fin 32, k.val ≠ (slotOf s.fr rt).toNat → f[k] = s.fpr[k] := by
    by_cases hctc : i = .ctc1 r rt
    · subst hctc
      obtain ⟨c, hc⟩ := exec_ctc1_eq_withFpu hcu
      exact ⟨_, c, hc, fun _ => rfl, fun hne => absurd rfl hne, fun _ _ => rfl⟩
    · obtain ⟨v, hv⟩ := exec_bankWrite hcu (hi.imp_right (Or.imp_right (Or.resolve_left · hctc)))
      exact ⟨_, _, hv, fun heq => absurd heq hctc, fun _ => rfl, fun k hk => Vector.getElem_set_ne _ _ hk.symm⟩
  obtain ⟨f, c, hexec, hbank, hcontrol, hslots⟩ := effect
  obtain rfl : (s.withFpu f c).advance = t := Host.Outcome.next.inj (hexec.symm.trans h)
  have kept : SameOutsideCp0 { s with fcr31 := c } (s.withFpu f c) := { SameOutsideCp0.refl _ with }
  obtain ⟨gprs, fcr31, tlb, memory, heldCode, xs, rest, -⟩ := kept.advance
  exact ⟨gprs, tlb, memory, heldCode, ⟨advance_queue _, xs, advance_faults _⟩, sameCp0ButCount_advance rfl, rest,
    fun hslot => sameTime_advance hslot ⟨rfl, rfl, rfl⟩, fun hi => (advance_fpr _).trans (hbank hi),
    fun hi => fcr31.trans (hcontrol hi), fun k hk => by rw [advance_fpr, ← hslots k (by rwa [slotOf_toNat])]; rfl⟩

end Sys2Proof.Machine
end

section

/-! The queue's operations (R311 to R314): each is a filter of a queue whose due times do not fall. -/
namespace Sys2Proof.Machine

/-- Settles O45: the two answers of `schedule`, the inserted node standing between the nodes not later and the later ones. -/
theorem scheduleInsertsInDueOrder : Obligations.ScheduleInsertsInDueOrder := by
  intro s type delta hwf
  obtain ⟨hfull, heq⟩ | ⟨hroom, heq⟩ := schedule_cases type delta s <;> rw [heq]
  · exact ⟨fun hlt => absurd hfull (Nat.not_le.2 hlt), fun _ => ⟨rfl, rfl, rfl⟩⟩
  · exact ⟨fun _ => ⟨rfl, Queue.wf_insert _ hroom hwf, Queue.insert_eq _ hwf.2, rfl⟩, fun hcap => absurd hcap hroom.ne⟩

/-- Settles O46: in a sorted queue the due heads are the due nodes, and `cancel` is a filter by type. -/
theorem popAndCancelRemoveExactly : Obligations.PopAndCancelRemoveExactly := fun _ now type hwf =>
  ⟨Queue.dueNodes_eq_filter now hwf.2, Queue.afterPop_eq_filter now hwf.2, Queue.wf_afterPop now hwf, rfl,
    Queue.wf_without type hwf⟩

end Sys2Proof.Machine
end

section

/-! The calls of a device (R315, R316, R384, R386): which are refused, what the accepted ones leave of the timer, and that the
handlers' calls are one list, whatever calls are left for later nodes. -/
namespace Sys2Proof.Machine

variable {s t : State} {calls : List DeviceCall} {type : EventType}

/-! The types a call may name (R316, U25) -/

theorem eventTypeKnown_iff (p : Params) (type : EventType) : eventTypeKnown p type = true ↔
    type = .compare ∨ type = .vi ∨ type = .si ∨ ∃ n, type = .device n ∧ n < p.deviceEventTypes := by
  cases type <;> simp [eventTypeKnown]

theorem applyCalls_schedule_compare (delta : Nat) (calls : List DeviceCall) (s : State) :
    applyCalls (.schedule .compare delta :: calls) s = .error .compareFromOutside := rfl

theorem applyCalls_cancel_compare (calls : List DeviceCall) (s : State) :
    applyCalls (.cancel .compare :: calls) s = .error .compareFromOutside := rfl

theorem applyCalls_schedule_of_known (hne : type ≠ .compare) (hknown : eventTypeKnown s.params type = true) (delta : Nat)
    (calls : List DeviceCall) : applyCalls (.schedule type delta :: calls) s = applyCalls calls (schedule type delta s).1 := by
  rw [applyCalls, if_neg hne, if_pos hknown]

theorem applyCalls_cancel_of_known (hne : type ≠ .compare) (hknown : eventTypeKnown s.params type = true)
    (calls : List DeviceCall) : applyCalls (.cancel type :: calls) s = applyCalls calls (cancel type s) := by
  rw [applyCalls, if_neg hne, if_pos hknown]

theorem ne_compare_of_unknown {p : Params} (h : eventTypeKnown p type = false) : type ≠ .compare := by
  rintro rfl
  cases h

theorem applyCalls_schedule_of_unknown (h : eventTypeKnown s.params type = false) (delta : Nat)
    (calls : List DeviceCall) : applyCalls (.schedule type delta :: calls) s = .error (.unknownEventType type) := by
  rw [applyCalls, if_neg (ne_compare_of_unknown h), if_neg (ne_true_of_eq_false h)]

theorem applyCalls_cancel_of_unknown (h : eventTypeKnown s.params type = false)
    (calls : List DeviceCall) : applyCalls (.cancel type :: calls) s = .error (.unknownEventType type) := by
  rw [applyCalls, if_neg (ne_compare_of_unknown h), if_neg (ne_true_of_eq_false h)]

/-- Accepted calls hold no call that is refused in every state. -/
theorem not_mem_of_applyCalls {c : DeviceCall} {e : Refusal} (h : applyCalls calls s = .ok t)
    (hc : ∀ rest u, applyCalls (c :: rest) u = .error e) : c ∉ calls := by
  intro hmem
  obtain ⟨before, after, rfl⟩ := List.append_of_mem hmem
  rw [applyCalls_append] at h
  cases hu : applyCalls before s with
  | error _ => simp [hu, Except.bind] at h
  | ok u => simp [hu, Except.bind, hc] at h

/-! What accepted calls leave (R316, R384) -/

/-- What the calls of a device leave of the timer: the COMPARE nodes, block time, every CP0 register but Cause and every bit of
Cause but the external lines. -/
structure LeavesTimer (s t : State) : Prop where
  nodes : compareNodes t.queue = compareNodes s.queue
  cp0 : t.cp0 = { s.cp0 with cause := t.cp0.cause }
  cause : t.cp0.cause &&& 0xFFFF83FF = s.cp0.cause &&& 0xFFFF83FF
  time : t.time = s.time

theorem LeavesTimer.refl (s : State) : LeavesTimer s s := ⟨rfl, rfl, rfl, rfl⟩

/-- The lines a device drives are bits 10 to 14 of Cause. -/
theorem putIp_and_not_external (cause : Word) {k : Nat} (level : Bool) (hk : 2 ≤ k ∧ k ≤ 6) :
    putIp cause k level &&& 0xFFFF83FF = cause &&& 0xFFFF83FF := by
  have clear : ∀ k : Fin 7, 2 ≤ k.val → (0xFFFF83FF : Word).getLsbD (8 + k) = false := by decide
  exact putBit_and_of_clear level (by omega) (clear ⟨k, by omega⟩ hk.1)

theorem compareNodes_schedule (hne : type ≠ .compare) (delta : Nat) (s : State) :
    compareNodes (schedule type delta s).1.queue = compareNodes s.queue := by
  obtain ⟨-, heq⟩ | ⟨-, heq⟩ := schedule_cases type delta s <;> rw [heq]
  exact Queue.filter_insert_of_not (by simpa using hne) s.queue

theorem compareNodes_without (hne : type ≠ .compare) (q : List Node) :
    compareNodes (Queue.without type q) = compareNodes q := by
  rw [compareNodes, Queue.without, List.filter_filter]
  refine List.filter_congr fun n _ => ?_
  by_cases hn : n.type = .compare
  · simp [hn, hne.symm]
  · simp [hn]

theorem keptByCalls_leavesTimer (s : State) : KeptByCalls (LeavesTimer s) where
  setIp u k level h := by
    unfold setIp
    split
    case isTrue hk =>
      exact
        { h with
          cp0 := congrArg (fun c : Cp0 => { c with cause := putIp u.cp0.cause k level }) h.cp0
          cause := (putIp_and_not_external _ level hk).trans h.cause }
    case isFalse => exact h
  schedule u type delta hne h :=
    { nodes := (compareNodes_schedule hne delta u).trans h.nodes
      cp0 := by rw [schedule_cp0]; exact h.cp0
      cause := by rw [schedule_cp0]; exact h.cause
      time := (schedule_time type delta u).trans h.time }
  cancel u _ hne h := { h with nodes := (compareNodes_without hne u.queue).trans h.nodes }
  invalidateRange _ _ _ h := { h with }

/-! One line (R384) -/

theorem setIp_of_external {k : Nat} (hk : 2 ≤ k ∧ k ≤ 6) (level : Bool) (s : State) :
    setIp k level s = { s with cp0 := { s.cp0 with cause := putIp s.cp0.cause k level } } := if_pos hk

/-! The handlers (R386) -/

/-- Calls neither read nor change the calls that later handlers will make. -/
theorem applyCalls_withHandlerCalls (calls : List DeviceCall) (later : List (List DeviceCall)) (s : State) :
    applyCalls calls { s with handlerCalls := later } =
      (applyCalls calls s).map fun t => { t with handlerCalls := later } := by
  induction calls generalizing s with
  | nil => rfl
  | cons c calls ih =>
    cases c with
    | setIp k level =>
      rw [applyCalls, applyCalls, ← ih]
      unfold setIp
      split <;> rfl
    | schedule type delta =>
      rw [applyCalls, applyCalls]
      split
      · rfl
      · split
        · rw [← ih]
          unfold schedule
          split <;> rfl
        · rfl
    | cancel type =>
      rw [applyCalls, applyCalls]
      split
      · rfl
      · split
        · exact ih (cancel type s)
        · rfl
    | invalidateRange lo hi => exact ih (invalidateRange lo hi s)

theorem runHandlers_cons_of_no_entry (n : Node) (nodes : List Node) (h : s.handlerCalls = []) :
    runHandlers (n :: nodes) s = runHandlers nodes s := by
  rw [runHandlers, h]

theorem runHandlers_cons_of_entry {later : List (List DeviceCall)} (n : Node) (nodes : List Node)
    (h : s.handlerCalls = calls :: later) :
    runHandlers (n :: nodes) s = (applyCalls calls { s with handlerCalls := later }).bind (runHandlers nodes) := by
  simp only [runHandlers, h]
  cases applyCalls calls { s with handlerCalls := later } <;> rfl

/-- The handlers of the dispatched nodes make the calls of as many entries, one list after the other. -/
theorem runHandlers_eq_applyCalls (nodes : List Node) (s : State) :
    runHandlers nodes s =
      applyCalls (s.handlerCalls.take nodes.length).flatten
        { s with handlerCalls := s.handlerCalls.drop nodes.length } := by
  induction nodes generalizing s with
  | nil => rfl
  | cons n nodes ih =>
    cases hcalls : s.handlerCalls with
    | nil =>
      rw [runHandlers_cons_of_no_entry n nodes hcalls, ih, hcalls, List.take_nil, List.drop_nil, List.take_nil,
        List.drop_nil]
    | cons first later =>
      rw [runHandlers_cons_of_entry n nodes hcalls, List.length_cons, List.take_succ_cons, List.drop_succ_cons,
        List.flatten_cons, applyCalls_append, applyCalls_withHandlerCalls first later s,
        applyCalls_withHandlerCalls first (later.drop nodes.length) s]
      cases applyCalls first s with
      | error e => rfl
      | ok t => exact ih { t with handlerCalls := later }

/-- Settles O50: the refused calls by the type they name, the timer by what each accepted call leaves, the handlers by the list
of their calls. -/
theorem deviceCallsLeaveTheTimer : Obligations.DeviceCallsLeaveTheTimer := by
  intro calls s
  refine ⟨fun t h => ?_, fun k b => ⟨fun hk => ⟨_, setIp_of_external hk b s, fun j => ?_⟩, fun hk => if_neg hk⟩, rfl,
    fun _ _ => rfl, fun _ _ => rfl, fun type delta => ⟨?_, fun hne hknown => ?_, fun hunknown => ?_, ?_⟩,
    fun nodes => runHandlers_eq_applyCalls nodes s⟩
  · obtain ⟨nodes, cp0, cause, time⟩ := (keptByCalls_leavesTimer s).applyCalls (.refl s) h
    exact ⟨nodes, cp0, cause, time, fun d => not_mem_of_applyCalls h (applyCalls_schedule_compare d),
      not_mem_of_applyCalls h applyCalls_cancel_compare⟩
  · exact putIp_getLsbD _ _ _ _ (by omega)
  · rintro rfl
    exact ⟨rfl, rfl⟩
  · exact ⟨applyCalls_schedule_of_known hne hknown delta calls, applyCalls_cancel_of_known hne hknown calls⟩
  · exact ⟨applyCalls_schedule_of_unknown hunknown delta calls, applyCalls_cancel_of_unknown hunknown calls⟩
  · exact eventTypeKnown_iff s.params type

end Sys2Proof.Machine
end

section

/-! The timer invariant (R318, R394): ticks keep it, a device leaves it, and wherever the block takes its COMPARE node out of the
queue it enters one at the next match. -/
namespace Sys2Proof.Machine

variable {s t : State}

/-- The timer invariant on a well-formed queue. -/
structure TimerInvariant (s : State) : Prop where
  queue : Queue.wf s.queue
  coherent : s.TimerCoherent

/-! The COMPARE node leaves and comes back -/

/-- Rescheduling into a queue without a COMPARE node and with room for one sets the timer (R392). -/
theorem timerInvariant_reschedCompare (hwf : Queue.wf s.queue) (hroom : s.queue.length < queueCap)
    (hnone : compareNodes s.queue = []) : TimerInvariant (reschedCompare s) := by
  rw [reschedCompare_of_room hroom]
  refine ⟨Queue.wf_insert _ hroom hwf, _, Queue.filter_insert_of_nil (by simp) hnone, ?_⟩
  have hmatch := count_add_compareDelta s.cp0.compare s.cp0.count
  show (s.cp0.compare.toNat + s.time) % _ = (s.cp0.count.toNat + (s.time + compareDelta s.cp0.compare s.cp0.count)) % _
  omega

theorem compareNodes_without_compare (q : List Node) : compareNodes (Queue.without .compare q) = [] := by
  simp [compareNodes, Queue.without, List.filter_filter]

/-- A cancelled COMPARE node leaves room for the new one. -/
theorem length_without_compare_lt {q : List Node} {c : Node} (hwf : Queue.wf q) (h : compareNodes q = [c]) :
    (Queue.without .compare q).length < queueCap := by
  have hsplit := List.length_eq_length_filter_add (l := q) fun n => n.type = .compare
  have hone : (q.filter fun n => n.type = .compare).length = 1 := congrArg List.length h
  have hcap := hwf.1
  simp only [Queue.without, ne_eq, decide_not]
  omega

/-- A popped node leaves room for the new one. -/
theorem length_afterPop_lt {q : List Node} {now : Nat} (hwf : Queue.wf q) (h : Queue.dueNodes now q ≠ []) :
    (Queue.afterPop now q).length < queueCap := by
  have hsplit : (Queue.dueNodes now q).length + (Queue.afterPop now q).length = q.length := by
    rw [← List.length_append, Queue.dueNodes, Queue.afterPop, List.takeWhile_append_dropWhile]
  have hpos := List.length_pos_iff.2 h
  have hcap := hwf.1
  omega

/-- COMPARE fires once for each of its nodes (R315). -/
theorem fireCompares_eq_foldl (nodes : List Node) (s : State) :
    fireCompares nodes s = (compareNodes nodes).foldl (fun u _ => compareFire u) s := by
  induction nodes generalizing s with
  | nil => rfl
  | cons n nodes ih =>
    rw [fireCompares, ih]
    by_cases hn : n.type = .compare <;> simp [compareNodes, hn]

theorem compareNodes_pop (now : Nat) (q : List Node) :
    compareNodes (Queue.dueNodes now q) ++ compareNodes (Queue.afterPop now q) = compareNodes q := by
  rw [compareNodes, compareNodes, ← List.filter_append, Queue.dueNodes, Queue.afterPop, List.takeWhile_append_dropWhile]
  rfl

namespace TimerInvariant

/-- Ticks move block time and Count together (R390, R394). -/
theorem ticked {d : Nat} (h : TimerInvariant s) (hqueue : t.queue = s.queue) (hcompare : t.cp0.compare = s.cp0.compare)
    (htime : t.time = s.time + d) (hcount : t.cp0.count = s.cp0.count + BitVec.ofNat 32 d) : TimerInvariant t := by
  obtain ⟨hwf, due, hnodes, hmatch⟩ := h
  refine ⟨hqueue ▸ hwf, due, hqueue ▸ hnodes, ?_⟩
  rw [hcompare, htime, hcount, BitVec.toNat_add, BitVec.toNat_ofNat]
  omega

/-- What leaves the timer keeps it coherent. -/
theorem of_leavesTimer (h : TimerInvariant s) (hwf : Queue.wf t.queue) (hleaves : LeavesTimer s t) : TimerInvariant t := by
  obtain ⟨-, due, hnodes, hmatch⟩ := h
  obtain ⟨nodes, cp0, -, time⟩ := hleaves
  refine ⟨hwf, due, nodes.trans hnodes, ?_⟩
  rw [cp0, time]
  exact hmatch

variable (h : TimerInvariant s)
include h

theorem countSample (p : Word) : TimerInvariant (countSample p s) := h.ticked rfl rfl rfl rfl

theorem enter (e : Exc) : TimerInvariant (enter e s) :=
  (h.countSample s.pc).ticked (d := 0) rfl (by cases e <;> rfl) rfl (by cases e <;> exact (BitVec.add_zero _).symm)

theorem returnFromException : TimerInvariant (returnFromException s) := { h.countSample (s.pc + 4) with }

theorem advance : TimerInvariant s.advance := by
  unfold State.advance
  split
  · exact { h.countSample (s.pc + 4) with }
  · exact { h with }

/-- A Count or Compare write reschedules after the cancel (R193, R194, R318). -/
theorem reschedCompare_cancel {c : Cp0} : TimerInvariant (reschedCompare { cancel .compare s with cp0 := c }) := by
  obtain ⟨hwf, due, hnodes, -⟩ := h
  exact timerInvariant_reschedCompare (Queue.wf_without _ hwf) (length_without_compare_lt hwf hnodes)
    (compareNodes_without_compare s.queue)

theorem cp0Write (r : Cp0Reg) (v : Word) : TimerInvariant (cp0Write r v s) := by
  cases r
  case count | compare => exact (h.countSample s.pc).reschedCompare_cancel
  all_goals exact { h with }

theorem tlbWrite (i : Fin 32) : TimerInvariant (tlbWrite i s) :=
  h.ticked (d := 0) (by simp) (by simp) (by simp) (by simp)

/-- The dispatch pops the COMPARE node and reschedules it, or leaves it (R315, R393). -/
theorem dispatchEvents : TimerInvariant (dispatchEvents s).1 := by
  obtain ⟨hwf, due, hnodes, hmatch⟩ := h
  have hpopped := Queue.wf_afterPop s.time hwf
  show TimerInvariant (fireCompares (Queue.dueNodes s.time s.queue) (popDue s.time s).1)
  rw [fireCompares_eq_foldl]
  obtain ⟨hdue, hrest⟩ | ⟨hdue, hrest⟩ :=
    List.append_eq_singleton_iff.1 ((compareNodes_pop s.time s.queue).trans hnodes) <;> rw [hdue]
  · exact ⟨hpopped, due, hrest, hmatch⟩
  · have hsome : Queue.dueNodes s.time s.queue ≠ [] := fun hnil => by simp [hnil, compareNodes] at hdue
    exact timerInvariant_reschedCompare hpopped (length_afterPop_lt hwf hsome) hrest

end TimerInvariant

theorem keptByCalls_timerInvariant : KeptByCalls TimerInvariant where
  setIp s k level h :=
    h.of_leavesTimer (by simpa using h.queue) ((keptByCalls_leavesTimer s).setIp s k level (.refl s))
  schedule s type delta hne h :=
    h.of_leavesTimer (wf_schedule type delta h.queue) ((keptByCalls_leavesTimer s).schedule s type delta hne (.refl s))
  cancel s type hne h :=
    h.of_leavesTimer (Queue.wf_without type h.queue) ((keptByCalls_leavesTimer s).cancel s type hne (.refl s))
  invalidateRange _ _ _ h := { h with }

theorem keptByOperations_timerInvariant : KeptByOperations TimerInvariant where
  sample s h := h.countSample s.pc
  enter e _ h := h.enter e
  eret _ h := h.returnFromException
  undefined _ h := { h with }
  advance _ h := h.advance
  writeX _ _ _ h := { h with }
  writeS _ _ _ h := { h with }
  writeD _ _ _ h := { h with }
  fcr31 _ _ h := { h with }
  cp0Write r v _ h := h.cp0Write r v
  draw _ h := { h with }
  held _ _ _ h := { h with }
  tlbRead _ _ h := { h with }
  probe _ h := { h with }
  tlbWrite i _ h := h.tlbWrite i
  memWord _ _ _ h := { h with }
  memDword _ _ _ h := { h with }
  device _ _ _ _ hs h := keptByCalls_timerInvariant.deviceAccess (fun _ _ _ h => { h with }) hs h
  service s _ hs h :=
    keptByCalls_timerInvariant.runHandlers (fun _ _ h => { h with }) (hs.countSample s.pc).dispatchEvents h

/-- Settles O9: the timer invariant is kept, on a well-formed queue, by every operation a step is made of. -/
theorem stepKeepsTimerCoherent : Obligations.StepKeepsTimerCoherent := fun _ _ hwf hs h =>
  (keptByOperations_timerInvariant.step ⟨hwf, hs⟩ h).coherent

end Sys2Proof.Machine
end

section

/-! The boundary (R386, R411, R441): where the engine polls, what it does there, and what a step and a run make of it. -/
namespace Sys2Proof.Machine

variable {s : State}

/-! Where the engine polls (R441) -/

theorem pollsHere_iff (s : State) : pollsHere s = true ↔ s.inDelaySlot = false ∧
    (s.params.engineMode = .pureInterpreter ∨ s.lastPc = s.pc ∨ Config.freePoll s.draws = true) := by
  cases hmode : s.params.engineMode <;> simp [pollsHere, blockEnded, hmode]

theorem usePollDraw_eq (s : State) :
    usePollDraw s = if s.params.engineMode = .pureInterpreter then s else { s with draws := s.draws + 1 } := by
  cases hmode : s.params.engineMode <;> simp [usePollDraw, hmode]

theorem pollsHere_of_slot (h : s.inDelaySlot = true) : pollsHere s = false := by simp [pollsHere, h]

/-- Inside a block of a compiled mode the free value decides (U27, log 5). -/
theorem pollsHere_of_inBlock (hslot : s.inDelaySlot = false) (hmode : s.params.engineMode ≠ .pureInterpreter)
    (hblock : s.lastPc ≠ s.pc) : pollsHere s = Config.freePoll s.draws := by
  rw [Bool.eq_iff_iff, pollsHere_iff]
  simp [hslot, hmode, hblock]

/-! The boundary (R386) -/

theorem boundary_of_not_polls (h : ¬pollsHere s = true) : boundary s = .proceed (usePollDraw s) := if_neg h

theorem boundary_of_polls (h : pollsHere s = true) :
    boundary s =
      match serviceEvents (usePollDraw s) with
      | .ok t => if t.interruptDue then .interrupted (enter .interrupt t) else .proceed t
      | .error e => .refused e := by
  rw [boundary, if_pos h]
  cases serviceEvents (usePollDraw s) with
  | error e => rfl
  | ok t => cases hdue : t.interruptDue <;> simp [checkInterrupt, hdue]

theorem step_of_interrupted {t : State} (hboot : s.faults.boot = false) (h : boundary s = .interrupted t) :
    step s = .next t := by
  simp [step, hboot, h]

theorem step_of_boundary_refused {e : Refusal} (hboot : s.faults.boot = false) (h : boundary s = .refused e) :
    step s = .refused e := by
  simp [step, hboot, h]

/-! The run (R411) -/

theorem run_of_stopped (n : Nat) (hstop : s.stop = true) (hpolls : pollsHere s = true) : run (n + 1) s = (s, .stopped) :=
  if_pos (by rw [hstop, hpolls]; rfl)

/-- A run goes on with a step where the flag is clear, and where it is not looked at. -/
theorem run_of_not_stopped (n : Nat) (h : s.stop = false ∨ pollsHere s = false) :
    run (n + 1) s =
      match step s with
      | .next t => run n t
      | .fault f => (s, .faulted f)
      | .refused e => (recordRefusal e s, .refused e) := by
  have hgo : ¬(s.stop && pollsHere s) = true := by obtain h | h := h <;> simp [h]
  exact if_neg hgo

/-- Settles O7: the boundary, the step and the run by whether the engine polls. -/
theorem boundaryStepOrder : Obligations.BoundaryStepOrder := by
  refine ⟨fun s => ?_, fun s hboot => ⟨fun t => step_of_interrupted hboot, fun e => step_of_boundary_refused hboot⟩,
    fun s => ⟨rfl, rfl⟩, fun s n => ⟨fun hstop => run_of_not_stopped n (.inl hstop),
      fun hslot => run_of_not_stopped n (.inr (pollsHere_of_slot hslot)), fun hstop hslot => ⟨fun hblock => ?_,
      fun hmode hblock => ?_⟩⟩⟩
  · dsimp only
    rw [← pollsHere_iff, ← usePollDraw_eq]
    exact ⟨boundary_of_not_polls, boundary_of_polls⟩
  · exact run_of_stopped n hstop ((pollsHere_iff s).2 ⟨hslot, hblock.imp_right .inl⟩)
  · have hfree := pollsHere_of_inBlock hslot hmode hblock
    split
    case isTrue hpoll => exact run_of_stopped n hstop (hfree.trans hpoll)
    case isFalse hpoll => exact run_of_not_stopped n (.inr (hfree.trans (eq_false_of_ne_true hpoll)))

end Sys2Proof.Machine
end

section

/-! ERET, SYSCALL and BREAK (R340, R342, R343): the whole state after a return, and what entry for an exception of an
instruction leaves. -/
namespace Sys2Proof.Machine

variable {s : State} {e : Exc}

/-! ERET (R340) -/

/-- In a delay slot F_UNDEFINED is set, and nothing else (U2). -/
theorem faultUndefined_if_slot (s : State) :
    (if s.inDelaySlot then s.faultUndefined else s) =
      { s with faults := { s.faults with undefined := s.faults.undefined || s.inDelaySlot } } := by
  split
  case isTrue h =>
    have undefined : (s.faults.undefined || s.inDelaySlot) = true := by rw [h, Bool.or_true]
    rw [undefined]
    rfl
  case isFalse h =>
    have undefined : (s.faults.undefined || s.inDelaySlot) = s.faults.undefined := by
      rw [eq_false_of_ne_true h, Bool.or_false]
    rw [undefined]

theorem exec_eret_of_usable (h : cp0Usable s.cp0.status = true) :
    exec .eret s =
      .next (returnFromException { s with faults := { s.faults with undefined := s.faults.undefined || s.inDelaySlot } }) := by
  rw [← faultUndefined_if_slot]
  exact if_pos h

/-- A return clears one level bit: ERL where it is set, else EXL. -/
theorem returnFromException_status (s : State) :
    (returnFromException s).cp0.status =
      s.cp0.status &&& (if statusErl s.cp0.status then 0xFFFFFFFB else 0xFFFFFFFD) := by
  show putBit s.cp0.status (if statusErl s.cp0.status then 2 else 1) false = _
  cases statusErl s.cp0.status <;> rfl

/-- A return writes Status alone and its sample Count: the popped triple restores nothing. -/
theorem returnFromException_cp0 (s : State) :
    (returnFromException s).cp0 =
      { s.cp0 with
        count := (countSample (s.pc + 4) s).cp0.count
        status := s.cp0.status &&& (if statusErl s.cp0.status then 0xFFFFFFFB else 0xFFFFFFFD) } := by
  rw [← returnFromException_status]
  rfl

/-- Settles O42: the return's CP0 is `returnFromException_cp0`; the rest is read off `returnFromException`. -/
theorem eretReturnsFromException : Obligations.EretReturnsFromException := by
  intro s husable
  refine ⟨_, exec_eret_of_usable husable, rfl, returnFromException_cp0 _, rfl, rfl, rfl, rfl, rfl, rfl,
    ⟨fun _ => rfl, rfl, rfl⟩, ⟨rfl, rfl⟩, ⟨rfl, rfl, rfl⟩, fun _ => rfl, rfl, rfl, rfl, rfl, rfl⟩

/-! SYSCALL and BREAK (R342, R343) -/

/-- An exception of an instruction restarts at it, or at the branch before its delay slot with BD set (R371). -/
theorem restart_of_ne_interrupt (h : e ≠ .interrupt) (s : State) :
    e.restart s = (if s.inDelaySlot then s.pc - 4 else s.pc, s.inDelaySlot) := by
  have hrestart : e.restart s = if s.inDelaySlot then (s.pc - 4, true) else (s.pc, false) := by
    cases e
    case interrupt => exact absurd rfl h
    all_goals rfl
  rw [hrestart]
  cases s.inDelaySlot <;> rfl

theorem vectorOf_general (status : Word) (exlBefore : Bool) :
    vectorOf status false exlBefore = if status.getLsbD 22 = true then 0xBFC00380#32 else 0x80000180#32 := by
  show (if status.getLsbD 22 = true then _ else _) + 0x180#32 = _
  split <;> rfl

/-- Entry for an exception of an instruction that is no refill: EPC and BD are its restart unless EXL was set, and the vector
is the general one (R372, R374). -/
theorem enter_of_general (hne : e ≠ .interrupt) (hrefill : e.isRefill = false) (s : State) :
    (s.cp0.status.getLsbD 1 = false →
      (enter e s).cp0.epc = (if s.inDelaySlot then s.pc - 4 else s.pc) ∧
        (enter e s).cp0.cause.getLsbD 31 = s.inDelaySlot) ∧
    (s.cp0.status.getLsbD 1 = true →
      (enter e s).cp0.epc = s.cp0.epc ∧ (enter e s).cp0.cause.getLsbD 31 = s.cp0.cause.getLsbD 31) ∧
    (enter e s).cp0.status = s.cp0.status ||| 0x00000002 ∧
    (enter e s).pc = (if s.cp0.status.getLsbD 22 = true then 0xBFC00380#32 else 0x80000180#32) := by
  have hepc := enter_epc e s
  have hbd := enter_bd e s
  rw [restart_of_ne_interrupt hne] at hepc hbd
  refine ⟨fun hexl => ?clear, fun hexl => ⟨hepc.trans (if_pos hexl), hbd.trans (if_pos hexl)⟩, enter_status e s, ?vector⟩
  case clear =>
    have hclear : ¬statusExl s.cp0.status = true := ne_true_of_eq_false hexl
    exact ⟨hepc.trans (if_neg hclear), hbd.trans (if_neg hclear)⟩
  case vector =>
    rw [enter_pc, hrefill]
    exact vectorOf_general _ _

/-- Settles O43: both traps are entries for an exception of an instruction with the general vector, whatever the code. -/
theorem syscallAndBreakTrap : Obligations.SyscallAndBreakTrap := by
  intro s code
  refine ⟨_, _, rfl, rfl, rfl, rfl, enter_excCode .syscall s, enter_excCode .breakpoint s, fun x hx => ?_⟩
  obtain rfl | hx := List.mem_cons.1 hx
  · exact enter_of_general (by decide) rfl s
  · obtain rfl := List.mem_singleton.1 hx
    exact enter_of_general (by decide) rfl s

end Sys2Proof.Machine
end

section

/-! How a step ends (R382, R386, R154): the boundary and the fetch keep Status and a raised timer line, and what follows them is
an exception entry, an instruction or nothing more. -/
namespace Sys2Proof.Machine

variable {s t u : State} {i : Instr} {rest : State → Result}

/-! What most of a step leaves of Status and of Cause.IP7 -/

/-- Status is kept, and the timer line stays up where it is up: what every operation of a step keeps but an exception entry, a
return, and a move to Status or Compare. -/
structure KeepsStatusAndTimerLine (s t : State) : Prop where
  status : t.cp0.status = s.cp0.status
  line : s.cp0.cause.getLsbD 15 = true → t.cp0.cause.getLsbD 15 = true

namespace KeepsStatusAndTimerLine

theorem refl (s : State) : KeepsStatusAndTimerLine s s := ⟨rfl, id⟩

theorem of_cp0_eq (h : t.cp0 = s.cp0) : KeepsStatusAndTimerLine s t := by
  constructor <;> rw [h]
  exact id

theorem of_sameCp0ButCount (h : sameCp0ButCount s t) : KeepsStatusAndTimerLine s t := by
  rw [sameCp0ButCount] at h
  constructor <;> rw [h]
  exact id

theorem trans (hst : KeepsStatusAndTimerLine s t) (htu : KeepsStatusAndTimerLine t u) : KeepsStatusAndTimerLine s u :=
  ⟨htu.status.trans hst.status, htu.line ∘ hst.line⟩

theorem advance (h : KeepsStatusAndTimerLine s u) : KeepsStatusAndTimerLine s u.advance :=
  h.trans (of_sameCp0ButCount (advance_cp0 u))

theorem compareFire (h : KeepsStatusAndTimerLine s u) : KeepsStatusAndTimerLine s (compareFire u) := by
  constructor <;> rw [Machine.compareFire, reschedCompare_cp0]
  · exact h.status
  · exact fun _ => (putIp_getLsbD _ 7 15 true (by decide)).trans (if_pos rfl)

end KeepsStatusAndTimerLine

theorem keptByCalls_statusAndTimerLine (s : State) : KeptByCalls (KeepsStatusAndTimerLine s) where
  setIp u k level h := by
    unfold setIp
    split
    case isTrue hk =>
      refine ⟨h.status, fun hline => ?_⟩
      rw [putIp_getLsbD _ _ _ _ (by omega), if_neg (by omega)]
      exact h.line hline
    case isFalse => exact h
  schedule u type delta _ h := by
    constructor <;> rw [schedule_cp0]
    · exact h.status
    · exact h.line
  cancel _ _ _ h := { h with }
  invalidateRange _ _ _ h := { h with }

theorem KeepsStatusAndTimerLine.deviceAccess {pa : Word} {v : Dword} (hu : KeepsStatusAndTimerLine s u)
    (h : deviceAccess pa u = .ok (t, v)) : KeepsStatusAndTimerLine s t :=
  (keptByCalls_statusAndTimerLine s).deviceAccess (fun _ _ _ h => { h with }) hu h

theorem KeepsStatusAndTimerLine.serviceEvents (hu : KeepsStatusAndTimerLine s u) (h : serviceEvents u = .ok t) :
    KeepsStatusAndTimerLine s t :=
  (keptByCalls_statusAndTimerLine s).serviceEvents (fun _ h => { h with }) (fun _ _ h => { h with })
    (fun _ h => h.compareFire) (fun _ _ h => { h with }) hu h

/-! Memory accesses (R101) -/

section
variable {pa : Word}

/-- What a device window answers comes from a device access. -/
theorem keeps_of_window {α : Type} {f : State × Dword → α} {a : α} (h : (deviceAccess pa s).map f = .ok a) :
    ∃ answer, f answer = a ∧ KeepsStatusAndTimerLine s answer.1 := by
  cases haccess : deviceAccess pa s with
  | error r => cases haccess ▸ h
  | ok answer =>
    rw [haccess] at h
    exact ⟨answer, Except.ok.inj h, (KeepsStatusAndTimerLine.refl s).deviceAccess haccess⟩

theorem keeps_memReadWord {v : Word} (h : memReadWord pa s = .ok (t, v)) : KeepsStatusAndTimerLine s t := by
  cases hwindow : inDeviceWindow s.params pa 4
  · cases (memReadWord_of_plain hwindow).symm.trans h
    exact .refl s
  · obtain ⟨answer, hanswer, hkept⟩ := keeps_of_window ((memReadWord_of_window hwindow).symm.trans h)
    cases hanswer
    exact hkept

theorem keeps_memReadDword {v : Dword} (h : memReadDword pa s = .ok (t, v)) : KeepsStatusAndTimerLine s t := by
  cases hwindow : inDeviceWindow s.params pa 8
  · cases (memReadDword_of_plain hwindow).symm.trans h
    exact .refl s
  · exact (KeepsStatusAndTimerLine.refl s).deviceAccess ((memReadDword_of_window hwindow).symm.trans h)

theorem keeps_memWriteWord {v : Word} (h : memWriteWord pa v s = .ok t) : KeepsStatusAndTimerLine s t := by
  cases hwindow : inDeviceWindow s.params pa 4
  · cases (memWriteWord_of_plain hwindow).symm.trans h
    exact { KeepsStatusAndTimerLine.refl s with }
  · obtain ⟨answer, rfl, hkept⟩ := keeps_of_window ((memWriteWord_of_window hwindow).symm.trans h)
    exact hkept

theorem keeps_memWriteDword {v : Dword} (h : memWriteDword pa v s = .ok t) : KeepsStatusAndTimerLine s t := by
  cases hwindow : inDeviceWindow s.params pa 8
  · cases (memWriteDword_of_plain hwindow).symm.trans h
    exact { KeepsStatusAndTimerLine.refl s with }
  · obtain ⟨answer, rfl, hkept⟩ := keeps_of_window ((memWriteDword_of_window hwindow).symm.trans h)
    exact hkept

/-! The boundary and the fetch -/

theorem keeps_fetchWord {w : Word} (h : fetchWord pa s = .ok (t, w)) : KeepsStatusAndTimerLine s t := by
  by_cases hmode : s.params.engineMode = .pureInterpreter
  · rw [fetchWord_of_pure hmode] at h
    exact keeps_memReadWord h
  · rw [fetchWord_of_compiled hmode] at h
    have hdraw : KeepsStatusAndTimerLine s (useInvalidateDraw s) := { KeepsStatusAndTimerLine.refl s with }
    obtain ⟨-, rfl⟩ | ⟨-, u, hread, rfl⟩ := fetchCompiled_cases h
    · exact hdraw
    · exact { hdraw.trans (keeps_memReadWord hread) with }

end

theorem keeps_usePollDraw (s : State) : KeepsStatusAndTimerLine s (usePollDraw s) := by
  rw [usePollDraw_eq]
  split
  · exact .refl s
  · exact { KeepsStatusAndTimerLine.refl s with }

/-- The boundary goes on from, or takes an interrupt in, a state that keeps Status and a raised timer line. -/
theorem boundary_keeps (s : State) :
    (∃ u, boundary s = .proceed u ∧ KeepsStatusAndTimerLine s u) ∨
    (∃ u, boundary s = .interrupted (enter .interrupt u) ∧ KeepsStatusAndTimerLine s u) ∨
    ∃ r, boundary s = .refused r := by
  have hdraw := keeps_usePollDraw s
  by_cases hpolls : pollsHere s = true
  · rw [boundary_of_polls hpolls]
    cases hservice : serviceEvents (usePollDraw s) with
    | error r => exact .inr (.inr ⟨r, rfl⟩)
    | ok u =>
      have hu := hdraw.serviceEvents hservice
      cases hdue : u.interruptDue
      · exact .inl ⟨u, by simp [hdue], hu⟩
      · exact .inr (.inl ⟨u, by simp [hdue], hu⟩)
  · exact .inl ⟨_, boundary_of_not_polls hpolls, hdraw⟩

/-! The instructions -/

/-- What an effect on `s` that ends in `t` does to Status and the timer line. -/
inductive Ending (s t : State) : Prop where
  /-- nothing but, perhaps, raising the line -/
  | keeps (h : KeepsStatusAndTimerLine s t)
  /-- exception entry -/
  | enters (e : Exc) (h : t = enter e s)
  /-- ERET, which leaves the line -/
  | returns (h : exec .eret s = .next t) (hline : t.cp0.cause.getLsbD 15 = s.cp0.cause.getLsbD 15)
  /-- a move to Status, which leaves the line -/
  | writesStatus (rt : RegNum) (h : exec (.mtc0 rt 12) s = .next t ∨ exec (.dmtc0 rt 12) s = .next t)
    (hline : t.cp0.cause.getLsbD 15 = s.cp0.cause.getLsbD 15)
  /-- a move to Compare, which leaves Status -/
  | writesCompare (rt : RegNum) (h : exec (.mtc0 rt 11) s = .next t ∨ exec (.dmtc0 rt 11) s = .next t)
    (hstatus : t.cp0.status = s.cp0.status)

theorem Ending.of_advance (hu : KeepsStatusAndTimerLine s u) (h : Host.Outcome.next u.advance = (.next t : Result)) :
    Ending s t := by
  cases h
  exact .keeps hu.advance

theorem Ending.of_requireCp0 (h : requireCp0 s rest = .next t) (hrest : rest s = .next t → Ending s t) : Ending s t := by
  unfold requireCp0 at h
  split at h
  · exact hrest h
  · cases h
    exact .enters _ rfl

theorem Ending.of_requireCp1 (h : requireCp1 s rest = .next t) (hrest : rest s = .next t → Ending s t) : Ending s t := by
  unfold requireCp1 at h
  split at h
  · exact hrest h
  · cases h
    exact .enters _ rfl

theorem Ending.of_withDataAddress {va : Word} {aligned : Bool} {kind : Access} {access : Word → Result}
    (h : withDataAddress va aligned kind s access = .next t) (haccess : ∀ pa, access pa = .next t → Ending s t) :
    Ending s t := by
  unfold withDataAddress at h
  split at h
  · exact haccess _ h
  · cases h
    exact .enters _ rfl

theorem moveToCp0_status {rd : RegNum} (h : rd ≠ 12) (rt : RegNum) (s : State) :
    (moveToCp0 rt rd s).cp0.status = s.cp0.status :=
  stored_moveToCp0 (q := .status) h (by decide) nofun rt s

/-- Only a Compare write clears the timer line: a Cause write does not reach it (R194, R197). -/
theorem moveToCp0_timerLine {rd : RegNum} (h : rd ≠ 11) (rt : RegNum) (s : State) :
    (moveToCp0 rt rd s).cp0.cause.getLsbD 15 = s.cp0.cause.getLsbD 15 := by
  by_cases hcause : rd = 13
  · subst hcause
    exact merge_getLsbD ..
  · exact congrArg (·.getLsbD 15) (stored_moveToCp0 (q := .cause) hcause (by decide) (fun _ => h) rt s)

theorem ending_of_moveToCp0 {rt rd : RegNum} (hi : i = .mtc0 rt rd ∨ i = .dmtc0 rt rd) (h : exec i s = .next t) :
    Ending s t := by
  have hmove : exec (.mtc0 rt rd) s = .next t ∨ exec (.dmtc0 rt rd) s = .next t := by
    obtain rfl | rfl := hi
    · exact .inl h
    · exact .inr h
  have hrequire : requireCp0 s (fun s => .next (moveToCp0 rt rd s).advance) = .next t := by
    obtain h | h := hmove <;> exact h
  refine .of_requireCp0 hrequire fun hdone => ?_
  have hcp0 : t.cp0 = { (moveToCp0 rt rd s).cp0 with count := t.cp0.count } := by
    cases hdone
    exact advance_cp0 _
  by_cases hstatus : rd = 12
  · subst hstatus
    refine .writesStatus rt hmove ?_
    rw [hcp0]
    exact moveToCp0_timerLine (by decide) rt s
  by_cases hcompare : rd = 11
  · subst hcompare
    refine .writesCompare rt hmove ?_
    rw [hcp0]
    exact moveToCp0_status hstatus rt s
  · exact .of_advance ⟨moveToCp0_status hstatus rt s, (moveToCp0_timerLine hcompare rt s).trans⟩ hdone

theorem ending_of_exec (h : exec i s = .next t) : Ending s t := by
  cases i
  case eret =>
    have heret : execEret s = .next t := h
    refine .of_requireCp0 heret fun hdone => .returns h ?_
    cases hdone
    split <;> rfl
  case mtc0 rt rd => exact ending_of_moveToCp0 (.inl rfl) h
  case dmtc0 rt rd => exact ending_of_moveToCp0 (.inr rfl) h
  all_goals simp only [exec] at h
  case syscall | brk =>
    cases h
    exact .enters _ rfl
  case mfc0 rt rd | dmfc0 rt rd =>
    exact .of_requireCp0 h (.of_advance (.of_sameCp0ButCount (writesGpr_moveFromCp0 rt rd s).frame.cp0))
  case tlbr =>
    refine .of_requireCp0 h (.of_advance ?_)
    constructor <;> rw [readIndexed_cp0]
    exact id
  case tlbwi => exact .of_requireCp0 h (.of_advance (.of_cp0_eq (writeIndexed_cp0 s)))
  case tlbwr => exact .of_requireCp0 h (.of_advance (.of_cp0_eq (writeRandom_cp0 s)))
  case tlbp => exact .of_requireCp0 h (.of_advance ⟨rfl, id⟩)
  case mfc1 | dmfc1 | mtc1 | dmtc1 => exact .of_requireCp1 h (.of_advance (.of_cp0_eq rfl))
  case cfc1 rt fs =>
    refine .of_requireCp1 h (.of_advance (.of_cp0_eq ?_))
    unfold moveFromControl
    split <;> rfl
  case ctc1 rt fs =>
    refine .of_requireCp1 h (.of_advance (.of_cp0_eq ?_))
    unfold moveToControl
    split <;> rfl
  case lwc1 =>
    refine .of_requireCp1 h fun h => .of_withDataAddress h fun pa h => ?_
    split at h
    case h_1 hread =>
      refine .of_advance ?_ h
      exact { keeps_memReadWord hread with }
    case h_2 => cases h
  case ldc1 =>
    refine .of_requireCp1 h fun h => .of_withDataAddress h fun pa h => ?_
    split at h
    case h_1 hread =>
      refine .of_advance ?_ h
      exact { keeps_memReadDword hread with }
    case h_2 => cases h
  case swc1 =>
    refine .of_requireCp1 h fun h => .of_withDataAddress h fun pa h => ?_
    split at h
    case h_1 hwrite => exact .of_advance (keeps_memWriteWord hwrite) h
    case h_2 => cases h
  case sdc1 =>
    refine .of_requireCp1 h fun h => .of_withDataAddress h fun pa h => ?_
    split at h
    case h_1 hwrite => exact .of_advance (keeps_memWriteDword hwrite) h
    case h_2 => cases h

theorem ending_of_runWord {w : Word} (h : runWord w s = .next t) : Ending s t := by
  unfold runWord at h
  split at h
  case h_1 => exact ending_of_exec h
  case h_2 => exact .of_requireCp0 h (.of_advance (.refl s))
  all_goals cases h

/-! The step -/

/-- A step ends as an exception entry or the fetched word's effect does, from a state with Status and a raised timer line
kept. -/
theorem step_ending (h : step s = .next t) : ∃ u, KeepsStatusAndTimerLine s u ∧ Ending u t := by
  have hboot : s.faults.boot = false := by
    cases hfailed : s.faults.boot
    · rfl
    · simp [step, hfailed] at h
  obtain ⟨u, hb, hu⟩ | ⟨u, hb, hu⟩ | ⟨r, hb⟩ := boundary_keeps s
  · rw [step_of_proceed hboot hb] at h
    cases haddr : fetchAddress u with
    | miss e =>
      cases (fetchAndRun_of_miss haddr).symm.trans h
      exact ⟨u, hu, .enters e rfl⟩
    | hit pa =>
      cases hword : fetchWord pa u with
      | error r => cases (fetchAndRun_of_refused haddr hword).symm.trans h
      | ok answer =>
        obtain ⟨v, w⟩ := answer
        exact ⟨v, hu.trans (keeps_fetchWord hword), ending_of_runWord ((fetchAndRun_of_word haddr hword).symm.trans h)⟩
  · cases (step_of_interrupted hboot hb).symm.trans h
    exact ⟨u, hu, .enters .interrupt rfl⟩
  · cases (step_of_boundary_refused hboot hb).symm.trans h

/-! The mode (R400, R401) -/

/-- With EXL set the mode is kernel (R400). -/
theorem modeOf_of_exl {status : Word} (h : statusExl status = true) : modeOf status = .kernel :=
  if_pos (by rw [h]; rfl)

/-- Settles O29: a step that changes Status ends in none of the ways that keep it. -/
theorem onlyTheseChangeTheMode : Obligations.OnlyTheseChangeTheMode := by
  refine ⟨fun s t h hchanged => ?_, fun e s => ⟨modeOf_of_exl ?_, enter_status e s⟩, fun s husable => ?_,
    fun s rt husable i hi => ?_⟩
  · obtain ⟨u, hu, hend⟩ := step_ending h
    refine ⟨u, hu.status, ?_⟩
    cases hend with
    | keeps hkept => exact absurd (hu.trans hkept).status hchanged
    | enters e he => exact .inl ⟨e, he⟩
    | returns heret _ => exact .inr (.inl heret)
    | writesStatus rt hmove _ => exact .inr (.inr ⟨rt, hmove⟩)
    | writesCompare rt hmove hstatus => exact absurd (hstatus.trans hu.status) hchanged
  · rw [enter_status]
    exact (putBit_getLsbD _ 1 1 true (by decide)).trans (if_pos rfl)
  · exact ⟨_, exec_eret_of_usable husable, returnFromException_status _⟩
  · have hmove : exec i s = .next (cp0Write .status (low32 (s.readX rt)) s).advance := by
      simp only [List.mem_cons, List.not_mem_nil, or_false] at hi
      exact exec_toCp0_of_usable hi husable
    exact ⟨_, hmove, by rw [advance_cp0]; rfl⟩

end Sys2Proof.Machine
end

section

/-! Coprocessor 0 usability (R400, R402, R378): the mode and the test as bits of Status, and the instructions that make the test
first. -/
namespace Sys2Proof.Machine

variable {s : State} {rt rd : RegNum} {i : Instr}

theorem modeOf_eq (status : Word) : modeOf status =
    if status.getLsbD 1 = true ∨ status.getLsbD 2 = true then .kernel
    else if status.extractLsb' 3 2 = 0#2 then .kernel
    else if status.extractLsb' 3 2 = 1#2 then .supervisor
    else .user := by
  simp only [modeOf, statusExl, statusErl, bit, Bool.or_eq_true]
  rfl

theorem cp0Usable_iff (status : Word) :
    cp0Usable status = true ↔ modeOf status = .kernel ∨ status.getLsbD 28 = true := by
  simp [cp0Usable, statusCu0, bit]

/-- The nine COP0 instructions, the moves first. -/
def cop0Instrs (rt rd : RegNum) : List Instr :=
  [.mfc0 rt rd, .dmfc0 rt rd, .mtc0 rt rd, .dmtc0 rt rd, .tlbr, .tlbwi, .tlbwr, .tlbp, .eret]

theorem exec_cop0_of_unusable (hi : i ∈ cop0Instrs rt rd) (h : cp0Usable s.cp0.status = false) :
    exec i s = .next (enter (.copUnusable 0) s) := by
  simp only [cop0Instrs, List.mem_cons, List.not_mem_nil, or_false] at hi
  obtain rfl | rfl | rfl | rfl | rfl | rfl | rfl | rfl | rfl := hi <;> exact if_neg (ne_true_of_eq_false h)

/-- Settles O27: each COP0 instruction and each COP0 word of no row is the usability test before anything else. -/
theorem unusableCop0IsTakenFirst : Obligations.UnusableCop0IsTakenFirst := by
  refine ⟨modeOf_eq, cp0Usable_iff, fun s rt rd w h hw o ho => ?_, fun s rest => requireCp0_of_usable⟩
  have hmem : o ∈ (cop0Instrs rt rd).map (exec · s) ++ [runWord w s] := ho
  obtain hexec | hrun := List.mem_append.1 hmem
  · obtain ⟨i, hi, rfl⟩ := List.mem_map.1 hexec
    exact exec_cop0_of_unusable hi h
  · obtain rfl := List.mem_singleton.1 hrun
    rw [runWord_of_unrecognisedCop0 hw]
    exact requireCp0_of_unusable h

end Sys2Proof.Machine
end

section

/-! Exception entry (R371, R372, R374, R376 to R378): what each field of the state holds afterwards, and what the cause adds. -/
namespace Sys2Proof.Machine

variable {s : State} {e : Exc}

/-- Where an exception restarts and BD (R371): an interrupt at the pc, any other at the branch when taken in a delay slot. -/
theorem restart_eq (e : Exc) (s : State) :
    e.restart s =
      (if s.inDelaySlot && decide (e ≠ .interrupt) then s.pc - 4 else s.pc, s.inDelaySlot && decide (e ≠ .interrupt)) := by
  by_cases he : e = .interrupt
  · subst he
    simp [Exc.restart]
  · rw [restart_of_ne_interrupt he]
    simp [he]

/-- Only coprocessor unusable writes CE (R378). -/
theorem enter_ce (h : ∀ cop, e ≠ .copUnusable cop) (s : State) : causeCe (enter e s).cp0.cause = causeCe s.cp0.cause := by
  have hextra : (e.extra s.cp0).cause = s.cp0.cause := by
    cases e
    case copUnusable cop => exact absurd rfl (h cop)
    all_goals rfl
  rw [enter_cause, hextra]
  split <;> simp

/-- Entry's Count is the sample's (R372). -/
theorem enter_count (e : Exc) (s : State) : (enter e s).cp0.count = (countSample s.pc s).cp0.count := by
  cases e <;> rfl

/-- Settles O39: EPC, BD, ExcCode, the lines, CE and Status each by their lemma; the sample, the push, the vector and what entry
leaves are read off `enter`. -/
theorem exceptionEntrySavesAndRedirects : Obligations.ExceptionEntrySavesAndRedirects := by
  intro e s t d exl slot
  have hepc := enter_epc e s
  have hbd := enter_bd e s
  rw [restart_eq] at hepc hbd
  refine ⟨enter_count e s, rfl, rfl, hepc, hbd, enter_excCode e s, enter_ip e s, fun h => enter_ce h s,
    enter_status e s, ?vector, rfl, rfl, ⟨fun _ => rfl, rfl, rfl⟩, ⟨rfl, rfl⟩, ⟨rfl, rfl, rfl⟩, fun _ => rfl, rfl,
    rfl, rfl, ⟨rfl, rfl, rfl, rfl, rfl, rfl⟩, rfl, ?registers, fun hrefill => ?kept, fun hrefill haddress => ?badVAddr⟩
  case vector =>
    have hpc : t.pc = vectorOf s.cp0.status e.isRefill exl := enter_pc e s
    rw [hpc]
    cases e
    case tlbRefill => cases exl <;> rfl
    all_goals rfl
  case registers => cases e <;> rfl
  case kept =>
    cases e
    case tlbRefill => exact absurd rfl (hrefill _ _)
    all_goals exact ⟨rfl, rfl⟩
  case badVAddr =>
    cases e
    case tlbRefill => exact absurd rfl (hrefill _ _)
    case addressError => exact absurd rfl (haddress _ _)
    all_goals rfl

/-! What a cause writes (R376 to R378) -/

/-- The VPN2 of an address, as a field and by a shift. -/
theorem vpn2_setWidth (va : Word) : (va.extractLsb' 13 19).setWidth 32 = va >>> 13 := by
  have hva := va.isLt
  apply BitVec.eq_of_toNat_eq
  simp only [BitVec.toNat_setWidth, BitVec.extractLsb'_toNat, BitVec.toNat_ushiftRight, Nat.shiftRight_eq_div_pow]
  omega

/-- Settles O40: ExcCode and CE by their lemmas; the addresses are what `Exc.extra` writes. -/
theorem eachCauseWritesItsRegisters : Obligations.EachCauseWritesItsRegisters := by
  intro s kind va cop r a c
  have hcontext : r.context = (s.cp0.context &&& 0xFF800000) ||| ((va >>> 13) <<< 4) := by
    rw [← vpn2_setWidth]
    rfl
  have hentryHi : r.entryHi = (va &&& 0xFFFFE000) ||| (s.cp0.entryHi &&& 0x000000FF) := by
    have hvpn2 : (va >>> 13) <<< 13 = va &&& 0xFFFFE000 := BitVec.shiftLeft_ushiftRight
    rw [← hvpn2, ← vpn2_setWidth]
    rfl
  have hrefill : r.cause.extractLsb' 2 5 = (Exc.tlbRefill kind va).code := enter_excCode _ s
  have haddress : a.cause.extractLsb' 2 5 = (Exc.addressError kind va).code := enter_excCode _ s
  refine ⟨⟨rfl, hcontext, hentryHi, hrefill.trans ?_⟩, ⟨rfl, rfl, rfl, haddress.trans ?_⟩, enter_copUnusable_ce cop s,
    enter_excCode (.copUnusable cop) s, rfl, rfl, rfl⟩ <;> cases kind <;> rfl

/-! The interrupt check (R385) -/

/-- Some enabled line is pending just when the field of the two has a bit. -/
theorem causeIp_and_statusIm_ne_zero_iff (cause status : Word) : causeIp cause &&& statusIm status ≠ 0 ↔
    ∃ k, k < 8 ∧ cause.getLsbD (8 + k) = true ∧ status.getLsbD (8 + k) = true := by
  rw [ne_eq, BitVec.eq_of_getLsbD_eq_iff]
  simp +contextual [causeIp, statusIm]

theorem interruptPending_iff (cause status : Word) : interruptPending cause status = true ↔
    status.getLsbD 0 = true ∧ status.getLsbD 1 = false ∧ status.getLsbD 2 = false ∧
      ∃ k, k < 8 ∧ cause.getLsbD (8 + k) = true ∧ status.getLsbD (8 + k) = true := by
  simp only [interruptPending, Bool.and_eq_true, decide_eq_true_eq, Bool.not_eq_true', and_assoc,
    causeIp_and_statusIm_ne_zero_iff]
  rfl

/-- Settles O41: the condition is `interruptPending`, and entry with EXL clear records the pc. -/
theorem interruptIsTakenWhenEnabled : Obligations.InterruptIsTakenWhenEnabled := by
  intro s
  rw [← interruptPending_iff]
  refine ⟨fun hpending => ?_, fun hpending => if_neg hpending⟩
  have htaken : checkInterrupt s = enter .interrupt s := if_pos hpending
  obtain ⟨-, hexl, -⟩ := (interruptPending_iff _ _).1 hpending
  have hclear : ¬statusExl s.cp0.status = true := ne_true_of_eq_false hexl
  rw [htaken]
  exact ⟨rfl, (enter_epc .interrupt s).trans (if_neg hclear), (enter_bd .interrupt s).trans (if_neg hclear),
    enter_excCode .interrupt s, enter_ip .interrupt s⟩

end Sys2Proof.Machine
end

section

/-! The timer (R390 to R394): the least distance to the next match, the firing of a due COMPARE node, and samples one after the
other. -/
namespace Sys2Proof.Machine

variable {s : State} {compare count : Word}

/-! The distance to the next match (R392) -/

theorem add_ofNat_eq_iff (a b : Word) (k : Nat) :
    a + BitVec.ofNat 32 k = b ↔ (a.toNat + k) % 4294967296 = b.toNat := by
  rw [← BitVec.toNat_inj]
  simp

theorem compareDelta_eq (compare count : Word) :
    compareDelta compare count = (compare.toNat + 2 * 4294967296 - count.toNat - 1) % 4294967296 + 1 := by
  have hpos := compareDelta_pos compare count
  have hle := compareDelta_le compare count
  have hmatch := count_add_compareDelta compare count
  omega

/-- Settles O47: after the delta Count equals Compare, and two matches lie a multiple of 2^32 ticks apart. -/
theorem compareDeltaIsTheNextMatch : Obligations.CompareDeltaIsTheNextMatch := by
  refine ⟨fun _ => rfl, fun compare count => ?_⟩
  have hpos := compareDelta_pos compare count
  have hle := compareDelta_le compare count
  have hmatch := count_add_compareDelta compare count
  refine ⟨compareDelta_eq compare count, hpos, hle, (add_ofNat_eq_iff ..).2 hmatch, fun k hk hless hequal => ?_,
    fun hequal => ?_⟩
  · have hearlier := (add_ofNat_eq_iff ..).1 hequal
    omega
  · subst hequal
    omega

/-! Firing (R393) -/

/-- A node due by less than 2^32 ticks that agrees with Count and Compare comes back 2^32 ticks after its due time. -/
theorem time_add_compareDelta {time due : Nat} (hdue : due ≤ time) (hwrap : time < due + 4294967296)
    (hmatch : (compare.toNat + time) % 4294967296 = (count.toNat + due) % 4294967296) :
    time + compareDelta compare count = due + 4294967296 := by
  have hpos := compareDelta_pos compare count
  have hle := compareDelta_le compare count
  have hnext := count_add_compareDelta compare count
  omega

/-- The COMPARE nodes a pop takes and leaves. -/
theorem compareNodes_dueNodes {now : Nat} {q : List Node} (h : Queue.Sorted q) :
    compareNodes (Queue.dueNodes now q) = (compareNodes q).filter fun n => n.due ≤ now := by
  rw [Queue.dueNodes_eq_filter now h, compareNodes, compareNodes, List.filter_comm]

theorem compareNodes_afterPop {now : Nat} {q : List Node} (h : Queue.Sorted q) :
    compareNodes (Queue.afterPop now q) = (compareNodes q).filter fun n => now < n.due := by
  rw [Queue.afterPop_eq_filter now h, compareNodes, compareNodes, List.filter_comm]

section
variable {due : Nat} (hwf : Queue.wf s.queue) (hnodes : compareNodes s.queue = [⟨.compare, due⟩]) (hdue : due ≤ s.time)
include hwf hnodes hdue

theorem compareNodes_dueNodes_of_due : compareNodes (Queue.dueNodes s.time s.queue) = [⟨.compare, due⟩] := by
  rw [compareNodes_dueNodes hwf.2, hnodes]
  simp [hdue]

theorem compareNodes_afterPop_of_due : compareNodes (Queue.afterPop s.time s.queue) = [] := by
  rw [compareNodes_afterPop hwf.2, hnodes]
  simp [hdue]

/-- A dispatch with COMPARE due raises the timer line and enters the node's successor. -/
theorem dispatchEvents_of_due : (dispatchEvents s).1 =
    { s with
      cp0 := { s.cp0 with cause := putIp s.cp0.cause 7 true }
      queue := Queue.insert ⟨.compare, s.time + compareDelta s.cp0.compare s.cp0.count⟩
        (Queue.afterPop s.time s.queue) } := by
  have hfires := compareNodes_dueNodes_of_due hwf hnodes hdue
  have hroom : (Queue.afterPop s.time s.queue).length < queueCap :=
    length_afterPop_lt hwf fun hnil => by simp [hnil, compareNodes] at hfires
  have hdispatch : (dispatchEvents s).1 = compareFire (popDue s.time s).1 := by
    show fireCompares (Queue.dueNodes s.time s.queue) (popDue s.time s).1 = _
    rw [fireCompares_eq_foldl, hfires]
    rfl
  rw [hdispatch]
  exact reschedCompare_of_room (s := { (popDue s.time s).1 with cp0 := _ }) hroom

end

/-- Entry leaves the timer line, one of the lines of Cause (R371). -/
theorem enter_timerLine (e : Exc) (s : State) : (enter e s).cp0.cause.getLsbD 15 = s.cp0.cause.getLsbD 15 := by
  have hip := congrArg (·.getLsbD 7) (enter_ip e s)
  simpa [causeIp] using hip

/-- Settles O48: only a Compare write ends a step with a raised timer line cleared; a dispatch with COMPARE due is
`dispatchEvents_of_due`. -/
theorem timerFiresEveryFullWrap : Obligations.TimerFiresEveryFullWrap := by
  refine ⟨fun s t hup h => ?_, fun s due hwf hnodes hdue hwrap hmatch => ?_⟩
  · obtain ⟨u, hu, hend⟩ := step_ending h
    have hline := hu.line hup
    cases hend with
    | keeps hkept => exact .inl (hkept.line hline)
    | enters e he =>
      subst he
      exact .inl ((enter_timerLine e u).trans hline)
    | returns _ hkept => exact .inl (hkept.trans hline)
    | writesStatus rt _ hkept => exact .inl (hkept.trans hline)
    | writesCompare rt hmove _ => exact .inr ⟨u, rt, hmove⟩
  · rw [dispatchEvents_of_due hwf hnodes hdue, time_add_compareDelta hdue hwrap hmatch]
    refine ⟨rfl, ?_, ?_, rfl⟩
    · exact Queue.filter_insert_of_nil (by simp) (compareNodes_afterPop_of_due hwf hnodes hdue)
    · show (Queue.dueNodes s.time s.queue).filter _ = _
      rw [Queue.dueNodes_eq_filter _ hwf.2, List.filter_filter]
      simp [and_comm]

/-! Samples (R390, R394) -/

/-- The instructions of straight-line code from `a` to `b`, counted in two parts. -/
theorem instructions_add {a b c : Word} (ha : a.toNat % 4 = 0) (hb : b.toNat % 4 = 0) (hc : c.toNat % 4 = 0)
    (hac : a.toNat ≤ c.toNat) (hcb : c.toNat ≤ b.toNat) :
    ((c - a) >>> 2).toNat + ((b - c) >>> 2).toNat = ((b - a) >>> 2).toNat := by
  simp only [BitVec.toNat_ushiftRight, Nat.shiftRight_eq_div_pow, BitVec.toNat_sub]
  omega

/-- Settles O49: the ticks of the two samples add up to those of one. -/
theorem countSamplesAreAdditive : Obligations.CountSamplesAreAdditive := by
  intro s b c ha hb hc hac hcb
  have hsum := instructions_add ha hb hc hac hcb
  simp only [countSample, ← hsum, Nat.add_mul, BitVec.ofNat_add, BitVec.add_assoc, Nat.add_assoc]

end Sys2Proof.Machine
end

section

/-! A load or store whose checks fail (R117, R262, R380): the first check that fails decides, and no access takes place. -/
namespace Sys2Proof.Machine

variable {s : State} {ft base : RegNum} {offset : Int} {va : Word} {kind : Access} {e : Exc}

theorem dataAddress_of_aligned {aligned : Bool} (h : aligned = true) :
    dataAddress va aligned kind s = translateAddress va kind s :=
  if_pos h

theorem dataAddress_of_misaligned {aligned : Bool} (h : ¬aligned = true) :
    dataAddress va aligned kind s = .miss (.addressError kind va) :=
  if_neg h

theorem withDataAddress_of_miss {aligned : Bool} {access : Word → Result} (h : dataAddress va aligned kind s = .miss e) :
    withDataAddress va aligned kind s access = .next (enter e s) := by
  rw [withDataAddress, h]
  rfl

section
variable (hcu : s.cp0.status.getLsbD 29 = true)
include hcu

theorem exec_lwc1_of_miss
    (h : dataAddress (s.effectiveAddress offset base) (wordAligned (s.effectiveAddress offset base)) .read s = .miss e) :
    exec (.lwc1 ft offset base) s = .next (enter e s) := by
  rw [exec, execLwc1, requireCp1_of_usable hcu, withDataAddress_of_miss h]

theorem exec_swc1_of_miss
    (h : dataAddress (s.effectiveAddress offset base) (wordAligned (s.effectiveAddress offset base)) .write s = .miss e) :
    exec (.swc1 ft offset base) s = .next (enter e s) := by
  rw [exec, execSwc1, requireCp1_of_usable hcu, withDataAddress_of_miss h]

theorem exec_ldc1_of_miss
    (h : dataAddress (s.effectiveAddress offset base) (dwordAligned (s.effectiveAddress offset base)) .read s = .miss e) :
    exec (.ldc1 ft offset base) s = .next (enter e s) := by
  rw [exec, execLdc1, requireCp1_of_usable hcu, withDataAddress_of_miss h]

theorem exec_sdc1_of_miss
    (h : dataAddress (s.effectiveAddress offset base) (dwordAligned (s.effectiveAddress offset base)) .write s = .miss e) :
    exec (.sdc1 ft offset base) s = .next (enter e s) := by
  rw [exec, execSdc1, requireCp1_of_usable hcu, withDataAddress_of_miss h]

end

/-- Settles O58: past the usability test the address checks decide, alignment before translate. -/
theorem loadStoreChecksInOrder : Obligations.LoadStoreChecksInOrder := by
  intro s ft base offset va
  refine ⟨fun hcu i hi => exec_cop1_of_unusable (List.mem_of_mem_drop (i := 6) hi) hcu, fun hcu =>
    ⟨fun h => ?_, fun h => ?_, fun e hmiss => ⟨fun h => ?_, fun h => ?_⟩,
      fun e hmiss => ⟨fun h => ?_, fun h => ?_⟩⟩⟩
  · have hmis := mt (wordAligned_iff va).1 h
    exact ⟨exec_lwc1_of_miss hcu (dataAddress_of_misaligned hmis), exec_swc1_of_miss hcu (dataAddress_of_misaligned hmis)⟩
  · have hmis := mt (dwordAligned_iff va).1 h
    exact ⟨exec_ldc1_of_miss hcu (dataAddress_of_misaligned hmis), exec_sdc1_of_miss hcu (dataAddress_of_misaligned hmis)⟩
  · exact exec_lwc1_of_miss hcu ((dataAddress_of_aligned ((wordAligned_iff va).2 h)).trans hmiss)
  · exact exec_ldc1_of_miss hcu ((dataAddress_of_aligned ((dwordAligned_iff va).2 h)).trans hmiss)
  · exact exec_swc1_of_miss hcu ((dataAddress_of_aligned ((wordAligned_iff va).2 h)).trans hmiss)
  · exact exec_sdc1_of_miss hcu ((dataAddress_of_aligned ((dwordAligned_iff va).2 h)).trans hmiss)

end Sys2Proof.Machine
end

section

/-! The save-state (R412, R319, R228): the image a read gives, what a write restores of it, and the two tests of a write. -/
namespace Sys2Proof.Machine

variable {s u : State} {img : SaveImage}

theorem atCheckpoint_iff (s : State) : s.atCheckpoint = true ↔ s.lastPc = s.pc ∧ s.inDelaySlot = false := by
  simp [State.atCheckpoint]

/-- The image a read at a checkpoint gives. -/
def imageOf (s : State) : SaveImage :=
  { gpr := s.gpr, hi := s.hi, lo := s.lo, pc := s.pc, llBit := s.llBit, cp0 := s.cp0, tlb := s.tlb, fpr := s.fpr
    fcr31 := s.fcr31, queue := s.queue.map fun n => (n.type, n.due - s.time), xs := s.xs
    luts := some (s.lutR, s.lutW) }

theorem saveRead_of_checkpoint (h : s.atCheckpoint = true) : saveRead s = .ok (imageOf s) := if_pos h

theorem saveRead_of_not_checkpoint (h : s.atCheckpoint = false) : saveRead s = .error .notAtCheckpoint :=
  if_neg (ne_true_of_eq_false h)

theorem saveRead_cases (h : saveRead s = .ok img) : s.atCheckpoint = true ∧ img = imageOf s := by
  unfold saveRead at h
  split at h
  case isTrue hat =>
    cases h
    exact ⟨hat, rfl⟩
  case isFalse => cases h

/-- What an image writes into a state besides the tables (R412). -/
def State.restored (u : State) (img : SaveImage) : State :=
  { u with
    gpr := img.gpr, hi := img.hi, lo := img.lo, pc := img.pc, llBit := img.llBit, cp0 := img.cp0, tlb := img.tlb
    fpr := img.fpr, fcr31 := img.fcr31, queue := img.queue.map fun q => ⟨q.1, u.time + q.2⟩, xs := img.xs
    lastPc := img.pc }

theorem saveWrite_of_not_checkpoint (h : u.atCheckpoint = false) : saveWrite img u = .error .notAtCheckpoint :=
  if_pos (by rw [h]; rfl)

section
variable (hat : u.atCheckpoint = true)
include hat

theorem saveWrite_of_invalid (h : ¬img.queueValid) : saveWrite img u = .error .invalidSaveImage := by
  rw [saveWrite, if_neg (by simp [hat]), if_neg h]

theorem saveWrite_of_tables {lutR lutW : List (Nat × BitVec 20)} (hvalid : img.queueValid)
    (hluts : img.luts = some (lutR, lutW)) :
    saveWrite img u = .ok { u.restored img with lutR, lutW } := by
  rw [saveWrite, if_neg (by simp [hat]), if_pos hvalid, hluts]
  rfl

theorem saveWrite_of_no_tables (hvalid : img.queueValid) (hluts : img.luts = none) :
    saveWrite img u = .ok (rederiveLuts (u.restored img)) := by
  rw [saveWrite, if_neg (by simp [hat]), if_pos hvalid, hluts]
  rfl

end

/-- The distances of a sorted queue do not fall, overdue nodes counted as due now (R319). -/
theorem queueValid_imageOf (h : Queue.wf s.queue) : (imageOf s).queueValid := by
  refine ⟨by simpa [imageOf] using h.1, ?_⟩
  have hsorted := h.2
  simp only [imageOf, List.map_map, List.pairwise_map] at hsorted ⊢
  exact hsorted.imp fun hle => Nat.sub_le_sub_right hle s.time

/-- Where no node is overdue, a queue restored at the time it was read is the same (R319). -/
theorem restored_imageOf_self (hat : s.atCheckpoint = true) (h : ∀ n ∈ s.queue, s.time ≤ n.due) :
    s.restored (imageOf s) = s := by
  have hqueue : (imageOf s).queue.map (fun q => (⟨q.1, s.time + q.2⟩ : Node)) = s.queue := by
    simp only [imageOf, List.map_map]
    refine (List.map_congr_left fun n hn => ?_).trans (List.map_id _)
    have hn := h n hn
    simp [hn]
  obtain ⟨hpc, -⟩ := (atCheckpoint_iff s).1 hat
  rw [State.restored, hqueue]
  show countRebase s.pc s = s
  rw [← hpc]
  rfl

/-- `rederive_luts` maps the entries in the order of their numbers (R228). -/
theorem rederiveLuts_eq_foldl_finRange (s : State) : rederiveLuts s =
    (List.finRange 32).foldl (fun t i => mapEntry s.tlb[i] t) { s with lutR := [], lutW := [] } := by
  have hentries : s.tlb.toList = (List.finRange 32).map fun i => s.tlb[i] :=
    List.ext_getElem (by simp) (by simp)
  rw [rederiveLuts, hentries, List.foldl_map]

/-- Settles O60: a write of a checkpoint's image restores its fields, and each refusal is one of the two tests of a write. -/
theorem saveThenRestoreIsIdentity : Obligations.SaveThenRestoreIsIdentity := by
  refine ⟨fun s u img hwf hread hat => ?_, fun s img hwf hdue hread => ?_, fun s => ?_, fun s img =>
    ⟨atCheckpoint_iff s, fun hat => ⟨_, saveRead_of_checkpoint hat⟩, fun hnot =>
      ⟨saveRead_of_not_checkpoint hnot, saveWrite_of_not_checkpoint hnot⟩, fun hat hinvalid =>
      saveWrite_of_invalid hat fun hvalid => ?_⟩⟩
  · obtain ⟨-, rfl⟩ := saveRead_cases hread
    have hvalid := queueValid_imageOf hwf
    intro t
    have ht : u.restored (imageOf s) = t := by simp [State.restored, imageOf, t]
    rw [← ht]
    exact ⟨saveWrite_of_tables hat hvalid rfl,
      saveWrite_of_no_tables (img := { imageOf s with luts := none }) hat hvalid rfl⟩
  · obtain ⟨hat, rfl⟩ := saveRead_cases hread
    rw [saveWrite_of_tables hat (queueValid_imageOf hwf) rfl, restored_imageOf_self hat hdue]
  · exact rederiveLuts_eq_foldl_finRange s
  · obtain ⟨hlength, hsorted⟩ := hvalid
    obtain hlong | hunsorted := hinvalid
    · exact absurd hlong (Nat.not_lt.2 hlength)
    · exact hunsorted hsorted

end Sys2Proof.Machine
end

section

/-! Power-on (R420 to R422): the one state it leaves up to F_BOOT, which way the boot check goes, and what translates in it. -/
namespace Sys2Proof.Machine

variable {p : Params} {u : ResetInputs} {s : State} {va : Word} {kind : Access}

/-- R420's table with the COMPARE node of R422 scheduled and F_BOOT as the boot check leaves it. -/
def State.poweredOn (p : Params) (u : ResetInputs) (boot : Bool) : State :=
  { State.powerOnTable p u with
    queue := [⟨.compare, compareDelta u.compare 0x5000⟩]
    faults := ⟨false, boot, false, false⟩ }

theorem reschedCompare_powerOnTable (p : Params) (u : ResetInputs) :
    reschedCompare (State.powerOnTable p u) = State.poweredOn p u false := by
  rw [reschedCompare_of_room (s := State.powerOnTable p u) (by decide : 0 < queueCap)]
  simp [State.poweredOn, State.powerOnTable, Queue.insert]

/-- The distance of R422 for Compare 0. -/
theorem compareDelta_zero_boot : compareDelta 0 0x5000 = 0xFFFFB000 := by decide

theorem reset_eq_poweredOn : State.reset = State.poweredOn Params.documentExample ResetInputs.reference false := by
  rw [State.reset, ← compareDelta_zero_boot]
  rfl

/-! The boot check (R421) -/

/-- The tables are empty at power-on, so the boot address translates by the hole or the remap alone. -/
theorem bootCheck_poweredOn_iff : bootCheck (State.poweredOn p u false) = true ↔
    p.bootAddr.extractLsb' 0 2 = 0 ∧ (inHole p p.bootAddr = true ∨ inRemap p p.bootAddr = true) := by
  rw [bootCheck, Bool.and_eq_true, decide_eq_true_iff]
  simp [State.poweredOn, State.powerOnTable]

theorem powerOn_of_bootCheck (h : bootCheck (State.poweredOn p u false) = true) :
    powerOn p u = (State.poweredOn p u false, .ok) := by
  rw [powerOn, reschedCompare_powerOnTable]
  exact if_pos h

theorem powerOn_of_not_bootCheck (h : ¬bootCheck (State.poweredOn p u false) = true) :
    powerOn p u = (State.poweredOn p u true, .bootError) := by
  rw [powerOn, reschedCompare_powerOnTable]
  exact if_neg h

theorem powerOn_state (p : Params) (u : ResetInputs) : ∃ boot, (powerOn p u).1 = State.poweredOn p u boot := by
  by_cases h : bootCheck (State.poweredOn p u false) = true
  · exact ⟨false, by rw [powerOn_of_bootCheck h]⟩
  · exact ⟨true, by rw [powerOn_of_not_bootCheck h]⟩

theorem step_of_bootFailed (h : s.faults.boot = true) : step s = .fault .bootFailed := if_pos h

/-- Settles O13: the answer, F_BOOT and the next step follow the boot check, and neither outcome writes CP0. -/
theorem bootCheckDecidesPowerOn : Obligations.BootCheckDecidesPowerOn := by
  intro p u
  rw [← bootCheck_poweredOn_iff (u := u)]
  by_cases h : bootCheck (State.poweredOn p u false) = true
  · rw [powerOn_of_bootCheck h]
    exact ⟨iff_of_true rfl h, iff_of_false Bool.false_ne_true nofun, nofun, rfl⟩
  · rw [powerOn_of_not_bootCheck h]
    exact ⟨iff_of_false nofun h, iff_of_true rfl rfl, fun _ => step_of_bootFailed rfl, rfl⟩

/-! What software finds (R424) -/

/-- In kernel mode every segment is open, so an address translates by the hole or by the lookup (R103). -/
theorem exists_hit_iff_of_kernel (hm : modeOf s.cp0.status = .kernel) :
    (∃ pa, translateAddress va kind s = .hit pa) ↔ inHole s.params va = true ∨ (tlbLookup va kind s).isSome = true := by
  have hallowed := (segmentAllowed_iff (modeOf s.cp0.status) va).2 (.inl hm)
  cases hh : inHole s.params va with
  | true => simp [translateAddress_of_inHole hallowed hh]
  | false =>
    cases hl : tlbLookup va kind s with
    | none => simp [translateAddress_of_none hallowed hh hl]
    | some pa => simp [translateAddress_of_some hallowed hh hl]

/-- With an empty table the lookup finds what the remap covers (R106, R110). -/
theorem tlbLookup_isSome_iff_of_empty (h : s.lut kind = []) :
    (tlbLookup va kind s).isSome = true ↔ inRemap s.params va = true := by
  cases hin : inRemap s.params va with
  | true => simp [tlbLookup_of_inRemap hin]
  | false => simp [tlbLookup_of_not_inRemap hin, h]

theorem poweredOn_lut (p : Params) (u : ResetInputs) (boot : Bool) (kind : Access) :
    (State.poweredOn p u boot).lut kind = [] := by
  cases kind <;> rfl

/-- What Status says at its reset value (R47, R400, R402). -/
theorem status_at_boot : let status : Word := 0x34000000
    modeOf status = .kernel ∧ statusIe status = false ∧ statusBev status = false ∧ statusFr status = true ∧
    vectorOf status true false = 0x80000000 ∧ vectorOf status false false = 0x80000180 ∧
    cp0Usable status = true ∧ cp1Usable status = true := by
  decide

/-- Settles O14: Status holds its reset value, and with empty tables only the hole and the remap translate. -/
theorem bootSoftwareFindsKernelMode : Obligations.BootSoftwareFindsKernelMode := by
  intro p u hhole
  obtain ⟨boot, hs⟩ := powerOn_state p u
  rw [hs]
  obtain ⟨hkernel, hie, hbev, hfr, hrefill, hgeneral, hcp0, hcp1⟩ := status_at_boot
  refine ⟨hkernel, hie, hbev, hfr, hrefill, hgeneral, hcp0, hcp1, fun va kind => ?_⟩
  have hin : inHole p va = true ↔ 0x80000000 ≤ va.toNat ∧ va.toNat < 0xC0000000 := by simp [inHole, hhole]
  rw [exists_hit_iff_of_kernel (s := State.poweredOn p u boot) hkernel,
    tlbLookup_isSome_iff_of_empty (poweredOn_lut p u boot kind)]
  exact or_congr hin .rfl

/-! The invariants (R318, R420, R422) -/

/-- Every unspecified register is masked by its fields, so no reserved bit is set (U6, U19). -/
theorem poweredOn_cp0_reserved (p : Params) (u : ResetInputs) (boot : Bool) :
    (State.poweredOn p u boot).cp0.Reserved where
  index := masked_and_eq_zero (by decide)
  entryLo0 := masked_and_eq_zero (by decide)
  entryLo1 := masked_and_eq_zero (by decide)
  context := masked_and_eq_zero (by decide)
  pageMask := masked_and_eq_zero (by decide)
  wired := BitVec.zero_and
  entryHi := masked_and_eq_zero (by decide)
  status := (by decide : (0x34000000 : Word) &&& 0x00A80000 = 0)
  cause := field_and_eq_zero (by decide)
  config := (by decide : (0x0006E463 : Word) &&& 0xF0FFFFF0 = 0x0006E460)
  watchLo := masked_and_eq_zero (by decide)
  watchHi := masked_and_eq_zero (by decide)
  tagLo := masked_and_eq_zero (by decide)

theorem poweredOn_wellFormed (h : p.Legal) (u : ResetInputs) (boot : Bool) : (State.poweredOn p u boot).WellFormed where
  legal := h
  cp0 := Cp0.reservedFields_iff.2 (poweredOn_cp0_reserved p u boot)
  fcr31 := masked_and_eq_zero (by decide)
  mem := Memory.wf_nil
  lutR := ⟨.nil, nofun⟩
  lutW := ⟨.nil, nofun⟩
  heldCode := .nil
  queue := ⟨(by decide : 1 ≤ queueCap), List.pairwise_singleton _ _⟩
  xs := Nat.zero_le _

theorem poweredOn_timerCoherent (p : Params) (u : ResetInputs) (boot : Bool) :
    (State.poweredOn p u boot).TimerCoherent := by
  have h : TimerInvariant (reschedCompare (State.powerOnTable p u)) :=
    timerInvariant_reschedCompare ⟨Nat.zero_le _, .nil⟩ (by decide : 0 < queueCap) rfl
  rw [reschedCompare_powerOnTable] at h
  exact h.coherent

/-- Settles O10: power-on and State.reset both leave R420's table with its COMPARE node. -/
theorem powerOnMeetsTheInvariants : Obligations.PowerOnMeetsTheInvariants := by
  rw [Obligations.PowerOnMeetsTheInvariants, reset_eq_poweredOn]
  refine ⟨fun p u hp => ?_, fun p u => ?_, poweredOn_wellFormed (by decide) _ _, poweredOn_timerCoherent _ _ _⟩
  · obtain ⟨boot, hs⟩ := powerOn_state p u
    rw [hs]
    exact ⟨poweredOn_wellFormed hp u boot, poweredOn_timerCoherent p u boot⟩
  · obtain ⟨boot, hs⟩ := powerOn_state p u
    rw [hs]
    rfl

/-! The table (R420) -/

theorem readX_poweredOn (p : Params) (u : ResetInputs) (boot : Bool) (r : RegNum) :
    (State.poweredOn p u boot).readX r = 0 := by
  simp [State.readX, State.poweredOn, State.powerOnTable]

theorem tlb_poweredOn (p : Params) (u : ResetInputs) (boot : Bool) (i : Fin 32) :
    (State.poweredOn p u boot).tlb[i] = TlbEntry.zero := by
  simp [State.poweredOn, State.powerOnTable]

/-- Settles O12: every element is read off the state power-on leaves. -/
theorem powerOnSetsEveryElement : Obligations.PowerOnSetsEveryElement := by
  intro p u
  obtain ⟨boot, hs⟩ := powerOn_state p u
  rw [hs]
  exact ⟨readX_poweredOn p u boot, rfl, rfl, rfl, rfl, rfl, rfl, rfl, rfl, rfl, tlb_poweredOn p u boot, rfl, rfl, rfl, rfl,
    rfl, rfl, rfl, rfl, rfl, rfl, rfl, compareDelta_zero_boot⟩

end Sys2Proof.Machine
end
